-- ==== Sys2Proof/Word.lean ====
section
/-! DEFINITION. The word types of the block: the 32-bit port word, the byte of the packed streams, the
20-bit port offset (20_memory.md R61) and the 64-bit pattern of a binary64 value (10_state.md R33). -/

namespace Sys2Proof

/-- One byte of PACKED or of a SHIFT view (00_scope.md R9). -/
abbrev Byte := BitVec 8

/-- One 32-bit register, RAM entry, command word or port transfer (20_memory.md R67). -/
abbrev Word := BitVec 32

/-- A byte offset on the host port (20_memory.md R61). -/
abbrev Offset := BitVec 20

/-- The 64 bits of a binary64 value, held in a HI and a LO register (20_memory.md R68). -/
abbrev Bits64 := BitVec 64

end Sys2Proof
end

