-- ==== Sys2Proof/Config.lean ====
section
/-! DEFINITION. What an implementation fixes (the identity constants, the legal capacities and their
default) and the free values of 93_implementation_defined.md: opaque constants with no body, so that
nothing can be proved of what they are. -/

namespace Sys2Proof.Config

/-- ID reads ASCII "BSAC" (10_state.md R24). -/
def idValue : Word := 0x42534143#32

/-- VERSION (10_state.md R24). -/
def versionValue : Word := 0x00000001#32

/-- Legal values of MAX_BATCH: multiples of 32 from 32 to 65536 (00_scope.md R8). -/
def legalMaxBatch (n : Nat) : Bool := decide (32 ≤ n) && decide (n ≤ 65536) && decide (n % 32 = 0)

/-- The default of MAX_BATCH (00_scope.md R8). -/
def defaultMaxBatch : Word := 4096#32

/-- The binary64 operations that can deliver a NaN (00_scope.md R14). -/
inductive FloatOp where
  | convert | add | mul | div
deriving DecidableEq, Repr

/-- FREE VALUE (log entry 4): the byte at a RAM address that nothing has written since power-on
(70_reset_and_hazards.md R261: "every entry holds an arbitrary value of its width"). -/
opaque powerOnByte : Nat → Byte

/-- FREE VALUE (log entry 8): what the n-th draw returns to a read, during BUSY, of state the pending
command writes (20_memory.md R72). -/
opaque unspecifiedRead : Nat → Word

/-- FREE VALUE (log entry 9): what a RAM byte that an abandoned command would have written holds after
the reset input (70_reset_and_hazards.md R263), by draw and address. -/
opaque abandonedByte : Nat → Nat → Byte

/-- FREE VALUE (log entry 1): how many host events may come between an issue and its completion
(70_reset_and_hazards.md R275: "a finite but unspecified number of host transactions"), by draw. -/
opaque completionDelay : Nat → Nat

/-- FREE VALUE (log entry 10): the sign and payload of the NaN an operation delivers, by operation and
operand patterns. No rule states a NaN's bit pattern. -/
opaque nanResult : FloatOp → Bits64 → Bits64 → Bits64

end Sys2Proof.Config
end

