-- ==== Sys2Proof/Machine/Float.lean ====
section
/-! DEFINITION. The binary32 and binary64 arithmetic of 00_scope.md R14: ordered comparisons, exact
conversions and correctly rounded operations (round to nearest, ties to even, subnormals kept). A finite
binary64 value is held as a sign and a number of UNITS of 2^(-1074), the smallest positive binary64, so
that every operation is exact integer arithmetic followed by one rounding. Log entries 10 and 19. -/

namespace Sys2Proof.Machine

/-- The biased exponent field of a binary32 pattern. -/
def f32Exp (w : Word) : Nat := w.toNat / 2 ^ 23 % 256

/-- The fraction field of a binary32 pattern. -/
def f32Frac (w : Word) : Nat := w.toNat % 2 ^ 23

/-- A binary32 NaN. -/
def f32IsNaN (w : Word) : Bool := f32Exp w == 255 && f32Frac w != 0

/-- A binary32 zero of either sign. -/
def f32IsZero (w : Word) : Bool := f32Exp w == 0 && f32Frac w == 0

/-- `x < 0`, ordered (00_scope.md R14): false for NaN and for -0. -/
def f32Neg (w : Word) : Bool := w.msb && !f32IsNaN w && !f32IsZero w

/-- `x > 0`, ordered (00_scope.md R14): false for NaN and for +0. -/
def f32Pos (w : Word) : Bool := !w.msb && !f32IsNaN w && !f32IsZero w

/-- `x ≤ 0`, ordered (00_scope.md R14): false for NaN, true for +0 and -0. -/
def f32NonPos (w : Word) : Bool := !f32IsNaN w && (w.msb || f32IsZero w)

/-- A binary64 datum. A NaN carries the free pattern its operation delivered (log entry 10). -/
inductive F64 where
  | nan (pattern : Bits64)
  | inf (neg : Bool)
  | fin (neg : Bool) (units : Nat)
deriving DecidableEq, Repr

/-- A pattern made a NaN: its sign and payload are kept, a payload of zero becomes the quiet bit
(log entry 10). -/
def nanPattern (free : Bits64) : Bits64 :=
  free.extractLsb' 63 1 ++ 0x7FF#11 ++
    (if free.extractLsb' 0 52 = 0#52 then 0x8000000000000#52 else free.extractLsb' 0 52)

/-- The exponent step of a magnitude given in units: the binade's spacing is `2 ^ step` units. -/
def unitStep (n : Nat) : Nat := Nat.log2 n - 52

/-- The magnitude field (exponent and fraction) of a finite value given in units. -/
def magnitudeField (units : Nat) : Nat := unitStep units * 2 ^ 52 + units / 2 ^ unitStep units

/-- The sign bit in its place. -/
def signField (neg : Bool) : Nat := if neg then 2 ^ 63 else 0

/-- `bits(x)` (10_state.md R33). -/
def F64.bits : F64 → Bits64
  | .nan p => nanPattern p
  | .inf neg => BitVec.ofNat 64 (signField neg + 0x7FF * 2 ^ 52)
  | .fin neg u => BitVec.ofNat 64 (signField neg + magnitudeField u)

/-- `p / q` rounded to the nearest integer, ties to even. -/
def roundQuotient (p q : Nat) : Nat :=
  if 2 * (p % q) > q ∨ (2 * (p % q) = q ∧ (p / q) % 2 = 1) then p / q + 1 else p / q

/-- The binary64 nearest to `± p / q` units, ties to even; infinity from 2^1024 on (00_scope.md R14). -/
def roundUnits (neg : Bool) (p q : Nat) : F64 :=
  let k := unitStep (p / q)
  let u := roundQuotient p (q * 2 ^ k) * 2 ^ k
  if u ≥ 2 ^ 2098 then .inf neg else .fin neg u

/-- The NaN an operation delivers (log entry 10). -/
def freshNaN (op : Config.FloatOp) (a b : F64) : F64 := .nan (Config.nanResult op a.bits b.bits)

/-- The sign of a datum; of a NaN, that of its pattern. -/
def F64.isNeg : F64 → Bool
  | .nan p => p.msb
  | .inf neg => neg
  | .fin neg _ => neg

/-- A finite value as a signed number of units. -/
def signedUnits (neg : Bool) (u : Nat) : Int := if neg then -(u : Int) else u

/-- `fneg` (00_scope.md R14). -/
def F64.neg : F64 → F64
  | .nan p => .nan (p ^^^ 0x8000000000000000#64)
  | .inf s => .inf (!s)
  | .fin s u => .fin (!s) u

/-- `fadd` (00_scope.md R14). An exact zero sum is +0 unless both operands are negative zeros. -/
def F64.add (a b : F64) : F64 :=
  match a, b with
  | .nan _, _ => freshNaN .add a b
  | _, .nan _ => freshNaN .add a b
  | .inf s, .inf t => if s = t then .inf s else freshNaN .add a b
  | .inf s, .fin _ _ => .inf s
  | .fin _ _, .inf t => .inf t
  | .fin s u, .fin t v =>
    if signedUnits s u + signedUnits t v = 0 then .fin (s && t) 0
    else roundUnits (decide (signedUnits s u + signedUnits t v < 0)) (signedUnits s u + signedUnits t v).natAbs 1

/-- `fsub` (00_scope.md R14). -/
def F64.sub (a b : F64) : F64 := F64.add a (F64.neg b)

/-- `fmul` (00_scope.md R14). -/
def F64.mul (a b : F64) : F64 :=
  match a, b with
  | .nan _, _ => freshNaN .mul a b
  | _, .nan _ => freshNaN .mul a b
  | .inf s, .inf t => .inf (s != t)
  | .inf s, .fin t v => if v = 0 then freshNaN .mul a b else .inf (s != t)
  | .fin s u, .inf t => if u = 0 then freshNaN .mul a b else .inf (s != t)
  | .fin s u, .fin t v => roundUnits (s != t) (u * v) (2 ^ 1074)

/-- `fdiv` (00_scope.md R14). -/
def F64.div (a b : F64) : F64 :=
  match a, b with
  | .nan _, _ => freshNaN .div a b
  | _, .nan _ => freshNaN .div a b
  | .inf _, .inf _ => freshNaN .div a b
  | .inf s, .fin t _ => .inf (s != t)
  | .fin s _, .inf t => .fin (s != t) 0
  | .fin s u, .fin t v =>
    if v = 0 then (if u = 0 then freshNaN .div a b else .inf (s != t))
    else roundUnits (s != t) (u * 2 ^ 1074) v

/-- The place of an ordered datum on the number line, in units; infinities lie beyond every finite
value. -/
def F64.place : F64 → Option Int
  | .nan _ => none
  | .inf s => some (signedUnits s (2 ^ 2098))
  | .fin s u => some (signedUnits s u)

/-- `a ≤ b`, ordered (00_scope.md R14). -/
def F64.le (a b : F64) : Bool :=
  match a.place, b.place with
  | some x, some y => decide (x ≤ y)
  | _, _ => false

/-- `a < b`, ordered (00_scope.md R14); `a > b` is `b < a`. -/
def F64.lt (a b : F64) : Bool :=
  match a.place, b.place with
  | some x, some y => decide (x < y)
  | _, _ => false

/-- `toF64` of a non-negative integer (00_scope.md R14: below 2^53, where it is exact). -/
def F64.ofNat (n : Nat) : F64 := roundUnits false (n * 2 ^ 1074) 1

/-- `toF64` of a binary32 pattern, exact (00_scope.md R14). -/
def F64.ofF32 (w : Word) : F64 :=
  if f32Exp w = 255 then
    if f32Frac w = 0 then .inf w.msb
    else .nan (Config.nanResult .convert (w.setWidth 64) 0#64)
  else if f32Exp w = 0 then .fin w.msb (f32Frac w * 2 ^ 925)
  else .fin w.msb ((2 ^ 23 + f32Frac w) * 2 ^ (f32Exp w - 1) * 2 ^ 925)

end Sys2Proof.Machine
end

