-- ==== Sys2Proof/Syntax.lean ====
section
/-! DEFINITION. The commands of the block, one constructor for each row of the opcode map
(30_encoding.md R91). Only SUPPLY has an operand (R92). -/

namespace Sys2Proof

/-- A command of the BSAC command interface (30_encoding.md R91). -/
inductive Instr where
  /-- no operation (46_detector.md R210) -/
  | nop
  /-- adopt the staged configuration (40_config.md R116) -/
  | config
  /-- declare the length of the supplied sample buffer (46_detector.md R204, 30_encoding.md R92) -/
  | supply (len : Nat)
  /-- the whole pipeline (46_detector.md R207) -/
  | run
  /-- acknowledge an error (46_detector.md R211) -/
  | clear
  /-- soft reset (46_detector.md R214) -/
  | sreset
  /-- the sign-bit packer (41_bitpacker.md R131) -/
  | pack
  /-- the bit-shift array builder (42_shiftcache.md R141) -/
  | shift
  /-- the XOR-popcount correlation engine (43_correlation.md R151) -/
  | corr
  /-- the harmonic-rejection curve analyzer (44_harmonic.md R160) -/
  | harm
  /-- the linear-interpolation pitch refiner (45_pitch.md R180) -/
  | pitch
deriving DecidableEq, Repr

end Sys2Proof
end

