-- ==== Sys2Proof/WellFormed.lean ====
section
/-! DEFINITION. Which commands can be encoded: SUPPLY's length is the 24-bit IMM field
(30_encoding.md R92). -/

namespace Sys2Proof

/-- SUPPLY's length satisfies `0 ≤ L ≤ 16777215` (30_encoding.md R92); the others have no operand. -/
def Instr.wf : Instr → Bool
  | .supply len => decide (len < 2 ^ 24)
  | .nop | .config | .run | .clear | .sreset => true
  | .pack | .shift | .corr | .harm | .pitch => true

end Sys2Proof
end

