-- ==== Sys2Proof/Decode.lean ====
section
/-! DEFINITION. Decoding and encoding of the 32-bit command word: OPC in bits [7:0], IMM in bits [31:8]
(30_encoding.md R90). Decoding is total (R93); a word it rejects completes as IllegalCommand
(46_detector.md R212). -/

namespace Sys2Proof

/-- Why a command word is illegal, in the order the block checks (30_encoding.md R93). -/
inductive DecodeError where
  /-- check 1: OPC is not listed in 30_encoding.md R91 -/
  | reservedOpcode (opc : Byte)
  /-- check 2: a listed OPC other than SUPPLY's with IMM ≠ 0 -/
  | nonzeroImmediate (opc : Byte) (imm : BitVec 24)
deriving DecidableEq, Repr

/-- The OPC field, bits [7:0] (30_encoding.md R90). -/
def opcField (w : Word) : Byte := w.extractLsb' 0 8

/-- The IMM field, bits [31:8] (30_encoding.md R90). -/
def immField (w : Word) : BitVec 24 := w.extractLsb' 8 24

/-- The opcode map (30_encoding.md R91). -/
def opcode : Instr → Byte
  | .nop => 0x00#8
  | .config => 0x01#8
  | .supply _ => 0x02#8
  | .run => 0x03#8
  | .clear => 0x04#8
  | .sreset => 0x05#8
  | .pack => 0x10#8
  | .shift => 0x11#8
  | .corr => 0x12#8
  | .harm => 0x13#8
  | .pitch => 0x14#8

/-- The commands whose IMM must be 0, in the order of 30_encoding.md R91. -/
def plainCommands : List Instr :=
  [.nop, .config, .run, .clear, .sreset, .pack, .shift, .corr, .harm, .pitch]

/-- The command of a word, or which of the two decode checks it fails (30_encoding.md R93). -/
def decode (w : Word) : Except DecodeError Instr :=
  if opcField w = 0x02#8 then .ok (.supply (immField w).toNat)
  else
    match plainCommands.find? (fun i => opcode i == opcField w) with
    | none => .error (.reservedOpcode (opcField w))
    | some i =>
      if immField w = 0#24 then .ok i else .error (.nonzeroImmediate (opcField w) (immField w))

/-- What the IMM field of a command holds (30_encoding.md R91 and R92). -/
def immediate : Instr → BitVec 24
  | .supply len => BitVec.ofNat 24 len
  | .nop | .config | .run | .clear | .sreset => 0#24
  | .pack | .shift | .corr | .harm | .pitch => 0#24

/-- The command word `OPC | (IMM << 8)` of a command (30_encoding.md R94). -/
def encode (i : Instr) : Word := immediate i ++ opcode i

/-- The instruction read from a command word given as a number, bit 0 the least significant (the
interface's decoding probe). A command word is one 32-bit port word, so no byte order arises
(20_memory.md R68), and no word is longer (30_encoding.md R90). -/
def decodeTableWord (_nbits w : Nat) : Option Instr :=
  if w < 2 ^ 32 then (decode (BitVec.ofNat 32 w)).toOption else none

end Sys2Proof
end

