-- ==== Sys2Proof/Machine/State.lean ====
section
/-! DEFINITION. The state of the block and of the host that drives it: the register block
(10_state.md R22), the four RAMs (R41 to R44), the hidden PEND (R45) and the model's own fields that
say what the host does next and when the pending command completes (log entries 1, 2 and 7). -/

namespace Sys2Proof.Machine

/-- STATUS.STATE (10_state.md R28). The encoding 3 is never produced and has no constructor. -/
inductive Detector where
  /-- no valid configuration -/
  | unconf
  /-- configured, no data supplied -/
  | idle
  /-- configured and data supplied -/
  | ready
deriving DecidableEq, Repr

/-- The outcome codes of STATUS.ERRCODE (60_exceptions.md R230). Codes 8 to 15 are never produced and
have no constructor. -/
inductive ErrCode where
  | ok
  | invalidBatchSize
  | invalidSampleRate
  | invalidFrequencyRange
  | noPositiveSample
  | degenerateLag
  | notReady
  | illegalCommand
deriving DecidableEq, Repr

/-- What the host does at the port (30_encoding.md R99 and R100) or at the reset input
(70_reset_and_hazards.md R260). -/
inductive HostEvent where
  /-- `RD off`: one read transaction -/
  | rd (off : Offset)
  /-- `WR off, v`: one write transaction -/
  | wr (off : Offset) (v : Word)
  /-- `POLL`: read STATUS until BUSY reads 0 -/
  | poll
  /-- the reset input is asserted (70_reset_and_hazards.md R260) -/
  | assertReset
  /-- the reset input is released -/
  | releaseReset
deriving DecidableEq, Repr

/-- The RAM contents written since power-on: (port offset, byte) pairs, offsets strictly rising. An
offset that is not listed has not been written and reads as Config.powerOnByte (log entry 4). -/
abbrev Memory := List Host.Cell

/-- The whole state. Each field names its rule of spec/; INVENTORY.md lists them with their reset
values. -/
@[ext]
structure State where
  /-- CAPS, the capacity MAX_BATCH (10_state.md R25, 00_scope.md R8) -/
  maxBatch : Word
  /-- CFG_BATCH (10_state.md R29) -/
  cfgBatch : Word
  /-- CFG_RATE (10_state.md R29) -/
  cfgRate : Word
  /-- CFG_MAXF (10_state.md R29) -/
  cfgMaxf : Word
  /-- BATCH, the active batchSize N (10_state.md R30) -/
  batch : Word
  /-- RATE (10_state.md R31) -/
  rate : Word
  /-- MAXF (10_state.md R31) -/
  maxf : Word
  /-- MINPERIOD (10_state.md R32) -/
  minPeriod : Word
  /-- MINFREQ_LO (10_state.md R33) -/
  minFreqLo : Word
  /-- MINFREQ_HI (10_state.md R33) -/
  minFreqHi : Word
  /-- GLOBAL_MAX (10_state.md R34) -/
  globalMax : Word
  /-- BEST_VALUE (10_state.md R34) -/
  bestValue : Word
  /-- BEST_LAG (10_state.md R34) -/
  bestLag : Word
  /-- LAG (10_state.md R35) -/
  lag : Word
  /-- START_EDGE (10_state.md R36) -/
  startEdge : Word
  /-- NEXT_EDGE (10_state.md R36) -/
  nextEdge : Word
  /-- LAGSAMP_LO (10_state.md R37) -/
  lagSampLo : Word
  /-- LAGSAMP_HI (10_state.md R37) -/
  lagSampHi : Word
  /-- PITCH_LO (10_state.md R38) -/
  pitchLo : Word
  /-- PITCH_HI (10_state.md R38) -/
  pitchHi : Word
  /-- STATUS.BUSY (10_state.md R27) -/
  busy : Bool
  /-- STATUS.STATE (10_state.md R28) -/
  det : Detector
  /-- STATUS.PITCH_VALID (10_state.md R27) -/
  pitchValid : Bool
  /-- STATUS.PROTO (10_state.md R27) -/
  proto : Bool
  /-- STATUS.ERRCODE (10_state.md R27) -/
  errCode : ErrCode
  /-- STATUS.LASTOP (10_state.md R27) -/
  lastOp : Byte
  /-- the level of the reset input, true while it is asserted (70_reset_and_hazards.md R260) -/
  resetHeld : Bool
  /-- PEND, the hidden pending-command register (10_state.md R45) -/
  pend : Word
  /-- SAMPLE, PACKED, SHIFT and CURVE (10_state.md R41 to R44) at their port offsets -/
  ram : Memory
  /-- the model's own: the host's next events, oldest first (log entry 2) -/
  inputs : List HostEvent
  /-- the model's own: the words the host has read, newest first (log entry 2) -/
  reads : List Word
  /-- the model's own: how many host events may come before the completion (log entry 1) -/
  delay : Nat
  /-- the model's own: how many free values have been drawn (log entries 1, 8 and 9) -/
  draws : Nat
deriving DecidableEq, Repr

/-- Nothing faults: the block has no traps (60_exceptions.md R234), no access raises an error
(20_memory.md R66) and no error is fatal (60_exceptions.md R232), so this type has no constructor
(log entry 18). -/
inductive Fault where
deriving DecidableEq, Repr

/-- Why a step has no meaning. -/
inductive Refusal where
  /-- raised by Machine/Dispatch.lean alone, for a command without a meaning; safe. No command is
  without one. -/
  | notModelled (mnemonic : String)
deriving DecidableEq, Repr

/-- The block after power-on with capacity `cap`, reset released, the host idle: every register as
70_reset_and_hazards.md R260 says, PEND 0 (log entry 6), RAM unwritten (R261), the model's own fields
empty (log entry 7). -/
def State.powerOn (cap : Word) : State where
  maxBatch := cap
  cfgBatch := 0#32
  cfgRate := 0#32
  cfgMaxf := 0#32
  batch := 0#32
  rate := 0#32
  maxf := 0#32
  minPeriod := 0#32
  minFreqLo := 0#32
  minFreqHi := 0#32
  globalMax := 0#32
  bestValue := 0#32
  bestLag := 0#32
  lag := 0#32
  startEdge := 0#32
  nextEdge := 0#32
  lagSampLo := 0#32
  lagSampHi := 0#32
  pitchLo := 0#32
  pitchHi := 0#32
  busy := false
  det := .unconf
  pitchValid := false
  proto := false
  errCode := .ok
  lastOp := 0#8
  resetHeld := false
  pend := 0#32
  ram := []
  inputs := []
  reads := []
  delay := 0
  draws := 0

/-- The machine right after reset, with the default capacity of 00_scope.md R8 (log entry 5). -/
def State.reset : State := State.powerOn Config.defaultMaxBatch

end Sys2Proof.Machine
end

