-- ==== Sys2Proof/Machine/Flags.lean ====
section
/-! DEFINITION. STATUS, the only flags the block has (10_state.md R39): its fields' encodings and the
word the port reads (R27). -/

namespace Sys2Proof.Machine

/-- The code of an outcome (60_exceptions.md R230). -/
def ErrCode.code : ErrCode → BitVec 4
  | .ok => 0#4
  | .invalidBatchSize => 1#4
  | .invalidSampleRate => 2#4
  | .invalidFrequencyRange => 3#4
  | .noPositiveSample => 4#4
  | .degenerateLag => 5#4
  | .notReady => 6#4
  | .illegalCommand => 7#4

/-- The encoding of STATE (10_state.md R28). -/
def Detector.code : Detector → BitVec 2
  | .unconf => 0#2
  | .idle => 1#2
  | .ready => 2#2

/-- The STATUS word: reserved [31:24], LASTOP [23:16], reserved [15:12], ERRCODE [11:8], reserved
[7:5], PROTO [4], PITCH_VALID [3], STATE [2:1], BUSY [0] (10_state.md R27). -/
def statusWord (s : State) : Word :=
  0#8 ++ s.lastOp ++ 0#4 ++ s.errCode.code ++ 0#3 ++ BitVec.ofBool s.proto ++
    BitVec.ofBool s.pitchValid ++ s.det.code ++ BitVec.ofBool s.busy

/-- BUSY of a STATUS word a host has read (30_encoding.md R100, POLL). -/
def statusBusy (w : Word) : Bool := w.getLsbD 0

/-- ERRCODE of a STATUS word a host has read, bits [11:8] (30_encoding.md R100, ERR). -/
def statusErr (w : Word) : BitVec 4 := w.extractLsb' 8 4

end Sys2Proof.Machine
end

