-- ==== Sys2Proof/Machine/Memory.lean ====
section
/-! DEFINITION. The operations over the RAM list: one byte, runs of bytes, and 32-bit entries with the
byte at the lowest offset in bits [7:0] (20_memory.md R64, log entry 11). -/

namespace Sys2Proof.Machine

/-- Offsets strictly rising from a lower bound. -/
def Memory.risingFrom : Nat → Memory → Bool
  | _, [] => true
  | lo, (a, _) :: rest => decide (lo ≤ a) && Memory.risingFrom (a + 1) rest

/-- The canonical form: offsets strictly rising, so that each written byte is listed once. An unlisted
offset holds no written value, so no listed entry equals it (log entry 4). -/
def Memory.wf (m : Memory) : Bool := Memory.risingFrom 0 m

/-- The byte written at an offset, or none when nothing has written there since power-on. -/
def Memory.written? : Memory → Nat → Option Byte
  | [], _ => none
  | (b, v) :: rest, a => if a = b then some v else Memory.written? rest a

/-- One byte of RAM: what was last written, or the power-on value (70_reset_and_hazards.md R261). -/
def Memory.read (m : Memory) (a : Nat) : Byte := (Memory.written? m a).getD (Config.powerOnByte a)

/-- Store one byte. -/
def Memory.set : Memory → Nat → Byte → Memory
  | [], a, v => [(a, v)]
  | (b, w) :: rest, a, v =>
    if a < b then (a, v) :: (b, w) :: rest
    else if a = b then (a, v) :: rest
    else (b, w) :: Memory.set rest a v

/-- Store a run of bytes at rising offsets. -/
def Memory.writeBytes : Memory → Nat → List Byte → Memory
  | m, _, [] => m
  | m, a, v :: vs => Memory.writeBytes (Memory.set m a v) (a + 1) vs

/-- The run of `len` bytes at an offset. -/
def Memory.readBytes (m : Memory) (a len : Nat) : List Byte :=
  (List.range len).map (fun k => Memory.read m (a + k))

/-- The bytes of a 32-bit word, bits [7:0] first (20_memory.md R64 and R68). -/
def wordBytes (v : Word) : List Byte :=
  [v.extractLsb' 0 8, v.extractLsb' 8 8, v.extractLsb' 16 8, v.extractLsb' 24 8]

/-- The 32-bit word at an offset (20_memory.md R63 and R64). -/
def Memory.readWord (m : Memory) (a : Nat) : Word :=
  Memory.read m (a + 3) ++ Memory.read m (a + 2) ++ Memory.read m (a + 1) ++ Memory.read m a

/-- Store a 32-bit word (20_memory.md R63 and R64). -/
def Memory.writeWord (m : Memory) (a : Nat) (v : Word) : Memory := Memory.writeBytes m a (wordBytes v)

end Sys2Proof.Machine
end

