-- ==== Sys2Proof/Machine/Operands.lean ====
section
/-! DEFINITION. What commands and transactions name: the registers and their offsets (10_state.md R22),
the windows of the address map (20_memory.md R62), the entries of the RAMs, and the STATE in which each
command runs (30_encoding.md R91). -/

namespace Sys2Proof.Machine

/-- The registers of the register block (10_state.md R22). -/
inductive Reg where
  | id | version | caps | cmd | status
  | cfgBatch | cfgRate | cfgMaxf
  | batch | rate | maxf | minPeriod | minFreqLo | minFreqHi
  | globalMax | bestValue | bestLag | lag
  | startEdge | nextEdge | lagSampLo | lagSampHi | pitchLo | pitchHi
deriving DecidableEq, Repr

/-- A register's port offset (10_state.md R22). -/
def Reg.offset : Reg → Nat
  | .id => 0x000
  | .version => 0x004
  | .caps => 0x008
  | .cmd => 0x00C
  | .status => 0x010
  | .cfgBatch => 0x020
  | .cfgRate => 0x024
  | .cfgMaxf => 0x028
  | .batch => 0x030
  | .rate => 0x034
  | .maxf => 0x038
  | .minPeriod => 0x03C
  | .minFreqLo => 0x040
  | .minFreqHi => 0x044
  | .globalMax => 0x048
  | .bestValue => 0x04C
  | .bestLag => 0x050
  | .lag => 0x054
  | .startEdge => 0x058
  | .nextEdge => 0x05C
  | .lagSampLo => 0x060
  | .lagSampHi => 0x064
  | .pitchLo => 0x068
  | .pitchHi => 0x06C

/-- Every register, in the order of 10_state.md R22. -/
def Reg.all : List Reg :=
  [.id, .version, .caps, .cmd, .status, .cfgBatch, .cfgRate, .cfgMaxf, .batch, .rate, .maxf, .minPeriod,
    .minFreqLo, .minFreqHi, .globalMax, .bestValue, .bestLag, .lag, .startEdge, .nextEdge, .lagSampLo,
    .lagSampHi, .pitchLo, .pitchHi]

/-- The register at a word offset; none where the offset is reserved (10_state.md R22). -/
def Reg.at? (a : Nat) : Option Reg := Reg.all.find? (fun r => r.offset == a)

/-- What a host read of a register returns (10_state.md R23): CMD is write-only and reads 0 (R26). -/
def readReg (s : State) : Reg → Word
  | .id => Config.idValue
  | .version => Config.versionValue
  | .caps => s.maxBatch
  | .cmd => 0#32
  | .status => statusWord s
  | .cfgBatch => s.cfgBatch
  | .cfgRate => s.cfgRate
  | .cfgMaxf => s.cfgMaxf
  | .batch => s.batch
  | .rate => s.rate
  | .maxf => s.maxf
  | .minPeriod => s.minPeriod
  | .minFreqLo => s.minFreqLo
  | .minFreqHi => s.minFreqHi
  | .globalMax => s.globalMax
  | .bestValue => s.bestValue
  | .bestLag => s.bestLag
  | .lag => s.lag
  | .startEdge => s.startEdge
  | .nextEdge => s.nextEdge
  | .lagSampLo => s.lagSampLo
  | .lagSampHi => s.lagSampHi
  | .pitchLo => s.pitchLo
  | .pitchHi => s.pitchHi

/-- The first offset of the SAMPLE window (20_memory.md R62). -/
def sampleBase : Nat := 0x40000

/-- The first offset of the PACKED window (20_memory.md R62). -/
def packedBase : Nat := 0x80000

/-- The first offset of view `v` in the SHIFT window (20_memory.md R62). -/
def viewBase (v : Nat) : Nat := 0x90000 + 0x2000 * v

/-- The first offset of the CURVE window (20_memory.md R62). -/
def curveBase : Nat := 0xA0000

/-- The offset of SAMPLE[i] (20_memory.md R63). -/
def sampleOffset (i : Nat) : Nat := sampleBase + 4 * i

/-- The offset of CURVE[i] (20_memory.md R63). -/
def curveOffset (i : Nat) : Nat := curveBase + 4 * i

/-- The regions of the address map (20_memory.md R62). -/
inductive Region where
  | registers | sample | packed | shift | curve | reserved
deriving DecidableEq, Repr

/-- The region of a port offset, for a capacity of `cap` samples (20_memory.md R62). -/
def regionOf (cap a : Nat) : Region :=
  if a < 0x1000 then .registers
  else if sampleBase ≤ a ∧ a < sampleBase + 4 * cap then .sample
  else if packedBase ≤ a ∧ a < packedBase + cap / 8 then .packed
  else if viewBase 0 ≤ a ∧ a < viewBase 8 ∧ (a - viewBase 0) % 0x2000 < cap / 8 then .shift
  else if curveBase ≤ a ∧ a < curveBase + 4 * (cap / 2) then .curve
  else .reserved

/-- The word a transaction at an offset acts on: address bits [1:0] are ignored (20_memory.md R67). -/
def wordOffset (off : Offset) : Nat := off.toNat - off.toNat % 4

/-- SAMPLE[i], a binary32 pattern (10_state.md R41). -/
def sampleAt (s : State) (i : Nat) : Word := Memory.readWord s.ram (sampleOffset i)

/-- PACKED[k] (10_state.md R42). -/
def packedAt (s : State) (k : Nat) : Byte := Memory.read s.ram (packedBase + k)

/-- SHIFT[v][k] (10_state.md R43). -/
def shiftAt (s : State) (v k : Nat) : Byte := Memory.read s.ram (viewBase v + k)

/-- CURVE[i], an unsigned integer (10_state.md R44). -/
def curveAt (s : State) (i : Nat) : Nat := (Memory.readWord s.ram (curveOffset i)).toNat

/-- PACKED[0 .. B-1]. -/
def packedBytes (s : State) (b : Nat) : List Byte := Memory.readBytes s.ram packedBase b

/-- SHIFT[v][0 .. B-1]. -/
def viewBytes (s : State) (b v : Nat) : List Byte := Memory.readBytes s.ram (viewBase v) b

/-- N, the active batchSize (10_state.md R30). -/
def activeN (s : State) : Nat := s.batch.toNat

/-- B = N div 8, the packed length (00_scope.md R10). -/
def activeB (s : State) : Nat := activeN s / 8

/-- N2 = N div 2, the curve's length (00_scope.md R10). -/
def activeN2 (s : State) : Nat := activeN s / 2

/-- The STATEs in which a command runs (30_encoding.md R91); in any other it is NotReady
(46_detector.md R203). -/
def precondition : Instr → List Detector
  | .nop | .config | .clear | .sreset => [.unconf, .idle, .ready]
  | .supply _ | .shift | .corr | .harm => [.idle, .ready]
  | .run | .pack | .pitch => [.ready]

end Sys2Proof.Machine
end

