-- ==== Sys2Proof/Machine/Ops.lean ====
section
/-! DEFINITION. The shared operations: the named updates of State, how a command ends (`complete` and
`raise`, 00_scope.md R15), its completion (46_detector.md R201 and R203) and the resets. An error is
taken by `finish`, the block's only exception mechanism: a code in ERRCODE, no control transfer, no saved
state (60_exceptions.md R234); there is nothing to return from (R235). -/

namespace Sys2Proof.Machine

/-- Replace the RAM contents. -/
def State.setRam (s : State) (m : Memory) : State := { s with ram := m }

/-- Set PITCH_VALID. -/
def State.setPitchValid (s : State) (b : Bool) : State := { s with pitchValid := b }

/-- Set PROTO. -/
def State.setProto (s : State) (b : Bool) : State := { s with proto := b }

/-- The writes SUPPLY makes on success (46_detector.md R205): BATCH, MINPERIOD, MINFREQ, STATE = READY
and PITCH_VALID = 0. -/
def State.adoptLength (s : State) (n mp : Nat) (mf : F64) : State :=
  { s with
    batch := BitVec.ofNat 32 n
    minPeriod := BitVec.ofNat 32 mp
    minFreqLo := mf.bits.extractLsb' 0 32
    minFreqHi := mf.bits.extractLsb' 32 32
    det := .ready
    pitchValid := false }

/-- The writes CONFIG makes on success (40_config.md R117): the whole active configuration, STATE = IDLE
and PITCH_VALID = 0. -/
def State.adoptConfig (s : State) (n r f mp : Nat) (mf : F64) : State :=
  { s with
    batch := BitVec.ofNat 32 n
    rate := BitVec.ofNat 32 r
    maxf := BitVec.ofNat 32 f
    minPeriod := BitVec.ofNat 32 mp
    minFreqLo := mf.bits.extractLsb' 0 32
    minFreqHi := mf.bits.extractLsb' 32 32
    det := .idle
    pitchValid := false }

/-- GLOBAL_MAX, BEST_VALUE and BEST_LAG (10_state.md R34). -/
def State.setBest (s : State) (g bv bl : Nat) : State :=
  { s with
    globalMax := BitVec.ofNat 32 g
    bestValue := BitVec.ofNat 32 bv
    bestLag := BitVec.ofNat 32 bl }

/-- LAG (10_state.md R35). -/
def State.setLag (s : State) (v : Word) : State := { s with lag := v }

/-- START_EDGE (10_state.md R36). -/
def State.setStartEdge (s : State) (i : Nat) : State := { s with startEdge := BitVec.ofNat 32 i }

/-- NEXT_EDGE (10_state.md R36). -/
def State.setNextEdge (s : State) (i : Nat) : State := { s with nextEdge := BitVec.ofNat 32 i }

/-- LAGSAMP_HI:LAGSAMP_LO (10_state.md R37). -/
def State.setLagSamp (s : State) (x : F64) : State :=
  { s with lagSampLo := x.bits.extractLsb' 0 32, lagSampHi := x.bits.extractLsb' 32 32 }

/-- PITCH_HI:PITCH_LO (10_state.md R38). -/
def State.setPitch (s : State) (x : F64) : State :=
  { s with pitchLo := x.bits.extractLsb' 0 32, pitchHi := x.bits.extractLsb' 32 32 }

/-- The completion's own writes (46_detector.md R201): LASTOP, ERRCODE and BUSY = 0. -/
def State.retire (s : State) (op : Byte) (e : ErrCode) : State :=
  { s with lastOp := op, errCode := e, busy := false }

/-- How a command's pseudocode ends (00_scope.md R15). Either way the writes it made stay made. -/
inductive Ending where
  /-- `complete` -/
  | complete (s : State)
  /-- `raise <Error>` -/
  | raise (e : ErrCode) (s : State)
deriving DecidableEq, Repr

/-- The state a command's pseudocode left. -/
def Ending.state : Ending → State
  | .complete s => s
  | .raise _ s => s

/-- The code the ending reports: 0 on `complete`, the error's on `raise` (46_detector.md R201). -/
def Ending.code : Ending → ErrCode
  | .complete _ => .ok
  | .raise e _ => e

/-- Go on with the next stage unless the ending is a `raise` (46_detector.md R208). -/
def Ending.andThen (r : Ending) (next : State → Ending) : Ending :=
  match r with
  | .complete s => next s
  | .raise e s => .raise e s

/-- End a command: its writes stay, and ERRCODE, LASTOP and BUSY are written (46_detector.md R201,
60_exceptions.md R234). -/
def finish (op : Byte) (r : Ending) : State := r.state.retire op r.code

/-- Complete a decoded command: check 3 of 46_detector.md R203, then its pseudocode. NotReady writes
only ERRCODE and LASTOP, and the completion clears BUSY (R201). -/
def runCommand (i : Instr) (body : State → Ending) (s : State) : State :=
  if s.det ∈ precondition i then finish (opcode i) (body s)
  else finish (opcode i) (.raise .notReady s)

/-- Complete an illegal command word (46_detector.md R212): ERRCODE = 7 and LASTOP = PEND[7:0]. -/
def completeIllegal (s : State) : State := finish (opcField s.pend) (.raise .illegalCommand s)

/-- Every register of 10_state.md R22 at its value of 70_reset_and_hazards.md R260, the constants
aside; RAM and PEND are kept (46_detector.md R214). -/
def State.clearRegisters (s : State) : State :=
  { s with
    cfgBatch := 0#32
    cfgRate := 0#32
    cfgMaxf := 0#32
    batch := 0#32
    rate := 0#32
    maxf := 0#32
    minPeriod := 0#32
    minFreqLo := 0#32
    minFreqHi := 0#32
    globalMax := 0#32
    bestValue := 0#32
    bestLag := 0#32
    lag := 0#32
    startEdge := 0#32
    nextEdge := 0#32
    lagSampLo := 0#32
    lagSampHi := 0#32
    pitchLo := 0#32
    pitchHi := 0#32
    busy := false
    det := .unconf
    pitchValid := false
    proto := false
    errCode := .ok
    lastOp := 0#8 }

end Sys2Proof.Machine
end

