-- ==== Sys2Proof/Machine/Configure.lean ====
section
/-! DEFINITION. The configuration check of 40_config.md R110 and the two commands that use it, CONFIG
(R116 to R118) and SUPPLY (46_detector.md R204 and R205). -/

namespace Sys2Proof.Machine

/-- `minFrequency = fdiv(toF64(r), toF64(n div 2))` (10_state.md R33). -/
def minFrequency (n r : Nat) : F64 := F64.div (F64.ofNat r) (F64.ofNat (n / 2))

/-- `Validate(n, r, f)` for a capacity `cap` (40_config.md R110): the derived pair (minPeriod,
minFrequency), or the first failing check of R111, R112, R113 and R115. -/
def validate (cap n r f : Nat) : Except ErrCode (Nat × F64) :=
  if n ≤ 1 ∨ n % 2 ≠ 0 ∨ n % 8 ≠ 0 ∨ n > cap then .error .invalidBatchSize
  else if r ≤ 1 then .error .invalidSampleRate
  else if f * (n / 2) ≤ r then .error .invalidFrequencyRange
  else if r / f ≥ n then .error .invalidFrequencyRange
  else .ok (r / f, minFrequency n r)

/-- CONFIG's pseudocode (40_config.md R116). -/
def configBody (s : State) : Ending :=
  match validate s.maxBatch.toNat s.cfgBatch.toNat s.cfgRate.toNat s.cfgMaxf.toNat with
  | .error e => .raise e s
  | .ok (mp, mf) =>
    .complete (s.adoptConfig s.cfgBatch.toNat s.cfgRate.toNat s.cfgMaxf.toNat mp mf)

/-- SUPPLY's pseudocode (46_detector.md R204). -/
def supplyBody (len : Nat) (s : State) : Ending :=
  match validate s.maxBatch.toNat len s.rate.toNat s.maxf.toNat with
  | .error e => .raise e s
  | .ok (mp, mf) => .complete (s.adoptLength len mp mf)

/-- CONFIG (40_config.md R116 to R118). -/
def execConfig (s : State) : Host.Outcome State Fault Refusal := .next (runCommand .config configBody s)

/-- SUPPLY (46_detector.md R204 and R205). -/
def execSupply (len : Nat) (s : State) : Host.Outcome State Fault Refusal :=
  .next (runCommand (.supply len) (supplyBody len) s)

end Sys2Proof.Machine
end

