-- ==== Sys2Proof/Machine/Control.lean ====
section
/-! DEFINITION. The control commands NOP (46_detector.md R210), CLEAR (R211) and SRESET (R214). -/

namespace Sys2Proof.Machine

/-- NOP's pseudocode: `complete` (46_detector.md R210). -/
def nopBody (s : State) : Ending := .complete s

/-- CLEAR's pseudocode: PROTO <- 0 (46_detector.md R211). -/
def clearBody (s : State) : Ending := .complete (s.setProto false)

/-- SRESET's pseudocode: every register to its reset value (46_detector.md R214). -/
def sresetBody (s : State) : Ending := .complete s.clearRegisters

/-- NOP (46_detector.md R210). -/
def execNop (s : State) : Host.Outcome State Fault Refusal := .next (runCommand .nop nopBody s)

/-- CLEAR (46_detector.md R211). -/
def execClear (s : State) : Host.Outcome State Fault Refusal := .next (runCommand .clear clearBody s)

/-- SRESET (46_detector.md R214): LASTOP = 0x05 and ERRCODE = 0 after the reset values. -/
def execSreset (s : State) : Host.Outcome State Fault Refusal := .next (runCommand .sreset sresetBody s)

end Sys2Proof.Machine
end

