-- ==== Sys2Proof/Machine/Harmonic.lean ====
section
/-! DEFINITION. The harmonic-rejection curve analyzer HARM (44_harmonic.md). -/

namespace Sys2Proof.Machine

/-- The largest of the values `curve 0 .. curve (n - 1)`; 0 for none (44_harmonic.md R161). -/
def curveMax (curve : Nat → Nat) : Nat → Nat
  | 0 => 0
  | n + 1 => max (curveMax curve n) (curve n)

/-- Of two indices, the second only if it holds a strictly smaller value (44_harmonic.md R162). -/
def smallerAt (curve : Nat → Nat) (best cand : Nat) : Nat := if curve cand < curve best then cand else best

/-- The least index from `lo` on, `n` of them, that holds the smallest value, ties going to the first;
`lo` for none (44_harmonic.md R162). -/
def argMin (curve : Nat → Nat) (lo : Nat) : Nat → Nat
  | 0 => lo
  | n + 1 => smallerAt curve (argMin curve lo n) (lo + n)

/-- The threshold test at one index, `20 * CURVE[q] ≤ 3 * g` (44_harmonic.md R164). -/
def underThreshold (curve : Nat → Nat) (g q : Nat) : Bool := decide (20 * curve q ≤ 3 * g)

/-- Division `d` is accepted: every k from 1 to d - 1 passes at index `(k * bl) div d`
(44_harmonic.md R165). -/
def divisionPasses (curve : Nat → Nat) (g bl d : Nat) : Bool :=
  (List.range (d - 1)).all (fun j => underThreshold curve g ((j + 1) * bl / d))

/-- The first accepted division, from `maxDiv` down to 1 (44_harmonic.md R165). -/
def acceptedDivision (curve : Nat → Nat) (g bl : Nat) : Nat → Option Nat
  | 0 => none
  | d + 1 => if divisionPasses curve g bl (d + 1) then some (d + 1) else acceptedDivision curve g bl d

/-- What the analyzer finds: globalMax, bestValue, the uncorrected bestLag, and the corrected lag where
it writes one (44_harmonic.md R160). -/
structure HarmResult where
  globalMax : Nat
  bestValue : Nat
  bestLag : Nat
  corrected : Option Nat
deriving DecidableEq, Repr

/-- The analyzer over a curve of `n2` values with search start `mp` (44_harmonic.md R160). No lag is
corrected when mp = 0 (R163). -/
def analyzeCurve (curve : Nat → Nat) (n2 mp : Nat) : HarmResult :=
  let g := curveMax curve n2
  let bl := argMin curve mp (n2 - mp)
  { globalMax := g
    bestValue := curve bl
    bestLag := bl
    corrected :=
      if mp = 0 then none
      else (acceptedDivision curve g bl (bl / mp)).map (fun d => bl / d) }

/-- LAG is written where a division was accepted (44_harmonic.md R166). -/
def State.setCorrected (s : State) (l : Option Nat) : State :=
  match l with
  | some v => s.setLag (BitVec.ofNat 32 v)
  | none => s

/-- HARM's pseudocode less its `requires` line (44_harmonic.md R160): the results, then DegenerateLag
when MINPERIOD = 0 (R163), then LAG. -/
def harmBody (s : State) : Ending :=
  let h := analyzeCurve (curveAt s) (activeN2 s) s.minPeriod.toNat
  let t := s.setBest h.globalMax h.bestValue h.bestLag
  if s.minPeriod.toNat = 0 then .raise .degenerateLag t else .complete (t.setCorrected h.corrected)

/-- HARM (44_harmonic.md R160). -/
def execHarm (s : State) : Host.Outcome State Fault Refusal := .next (runCommand .harm harmBody s)

end Sys2Proof.Machine
end

