-- ==== Sys2Proof/Machine/Pitch.lean ====
section
/-! DEFINITION. The linear-interpolation pitch refiner PITCH (45_pitch.md). -/

namespace Sys2Proof.Machine

/-- The crossing predicate `s[j] > 0 and s[j-1] ≤ 0`, for j ≥ 1 (45_pitch.md R181). -/
def crossing (sample : Nat → Word) (j : Nat) : Bool := f32Pos (sample j) && f32NonPos (sample (j - 1))

/-- The least crossing j with `lo ≤ j ≤ n - 1` (45_pitch.md R182 and R184). -/
def firstCrossing (sample : Nat → Word) (lo n : Nat) : Option Nat :=
  (List.range' lo (n - lo)).find? (crossing sample)

/-- `Interp(j)`, the fractional crossing position between samples j - 1 and j (45_pitch.md R185). -/
def interpolate (sample : Nat → Word) (j : Nat) : F64 :=
  F64.div (F64.neg (F64.ofF32 (sample (j - 1))))
    (F64.sub (F64.ofF32 (sample j)) (F64.ofF32 (sample (j - 1))))

/-- Where the second scan starts: LAG - 1, or 1 when LAG is 0 or 1 (45_pitch.md R183). -/
def scanStart (lag : Nat) : Nat := if lag ≥ 2 then lag - 1 else 1

/-- The refined lag between two edges (45_pitch.md R186). -/
def lagSamples (sample : Nat → Word) (se ne : Nat) : F64 :=
  F64.add (F64.ofNat (ne - se)) (F64.sub (interpolate sample ne) (interpolate sample se))

/-- How far the refiner gets (45_pitch.md R180). -/
inductive PitchResult where
  /-- no start edge: NoPositiveSample (R182) -/
  | noStart
  /-- a start edge and no next edge: NoPositiveSample (R184) -/
  | noNext (se : Nat)
  /-- lagSamples not above 0: DegenerateLag (R187) -/
  | degenerate (se ne : Nat) (ls : F64)
  /-- the pitch in Hertz (R188) -/
  | found (se ne : Nat) (ls p : F64)
deriving DecidableEq, Repr

/-- The refiner over `n` samples, for a lag and a sample rate (45_pitch.md R180). -/
def refinePitch (sample : Nat → Word) (n lag rate : Nat) : PitchResult :=
  match firstCrossing sample 1 n with
  | none => .noStart
  | some se =>
    match firstCrossing sample (scanStart lag) n with
    | none => .noNext se
    | some ne =>
      let ls := lagSamples sample se ne
      if F64.lt (F64.fin false 0) ls then .found se ne ls (F64.div (F64.ofNat rate) ls)
      else .degenerate se ne ls

/-- The writes of PITCH, as far as the refiner got (45_pitch.md R180): each failure clears
PITCH_VALID and keeps PITCH. -/
def State.storePitch (s : State) : PitchResult → Ending
  | .noStart => .raise .noPositiveSample (s.setPitchValid false)
  | .noNext se => .raise .noPositiveSample ((s.setStartEdge se).setPitchValid false)
  | .degenerate se ne ls =>
    .raise .degenerateLag ((((s.setStartEdge se).setNextEdge ne).setLagSamp ls).setPitchValid false)
  | .found se ne ls p =>
    .complete (((((s.setStartEdge se).setNextEdge ne).setLagSamp ls).setPitch p).setPitchValid true)

/-- What PITCH finds in a state (45_pitch.md R180). -/
def pitchOf (s : State) : PitchResult := refinePitch (sampleAt s) (activeN s) s.lag.toNat s.rate.toNat

/-- PITCH's pseudocode less its `requires` line (45_pitch.md R180). -/
def pitchBody (s : State) : Ending := s.storePitch (pitchOf s)

/-- PITCH (45_pitch.md R180). -/
def execPitch (s : State) : Host.Outcome State Fault Refusal := .next (runCommand .pitch pitchBody s)

end Sys2Proof.Machine
end

