-- ==== Sys2Proof/Machine/Stages.lean ====
section
/-! DEFINITION. The bitstream stages: the sign-bit packer PACK (41_bitpacker.md), the bit-shift array
builder SHIFT (42_shiftcache.md) and the XOR-popcount correlation engine CORR (43_correlation.md). Each is
a pure function and a body that stores its result. -/

namespace Sys2Proof.Machine

/-- `signbit(x)`: 0 when `x < 0`, 1 otherwise (41_bitpacker.md R130). -/
def signBit (w : Word) : Byte := if f32Neg w then 0#8 else 1#8

/-- Fold eight samples into one byte, the first ending as the most significant bit
(41_bitpacker.md R131). -/
def packByte (sample : Nat → Word) (b : Nat) : Byte :=
  (List.range 8).foldl (fun acc i => (acc <<< 1) ||| signBit (sample (8 * b + i))) 0#8

/-- PACKED[0 .. B-1] from the samples (41_bitpacker.md R131). -/
def packSigns (sample : Nat → Word) (b : Nat) : List Byte := (List.range b).map (packByte sample)

/-- PACK's pseudocode less its `requires` line (41_bitpacker.md R131). -/
def packBody (s : State) : Ending :=
  .complete (s.setRam (Memory.writeBytes s.ram packedBase (packSigns (sampleAt s) (activeB s))))

/-- `ArrayBitShift(in, len, d)` (42_shiftcache.md R140): the array advanced by `d` bits, its missing
tail bits 0. -/
def arrayBitShift (xs : List Byte) (d : Nat) : List Byte :=
  List.zipWith (fun (x y : Byte) => (x <<< (d % 8)) ||| (y >>> (8 - d % 8)))
    (xs.drop (d / 8)) ((xs.drop (d / 8)).tail ++ [0#8])

/-- Store the first `n` views of a packed stream (42_shiftcache.md R141). -/
def writeViews (m : Memory) (packed : List Byte) (n : Nat) : Memory :=
  (List.range n).foldl (fun acc v => Memory.writeBytes acc (viewBase v) (arrayBitShift packed v)) m

/-- SHIFT's pseudocode less its `requires` line (42_shiftcache.md R141). -/
def shiftBody (s : State) : Ending :=
  .complete (s.setRam (writeViews s.ram (packedBytes s (activeB s)) 8))

/-- The number of 1 bits of a byte (00_scope.md R13). -/
def popcount8 (v : Byte) : Nat := ((List.range 8).map (fun i => (v.getLsbD i).toNat)).sum

/-- One lag of the curve: the lanes `popcount8(PACKED[j] XOR view[j + o])` for every j with j + o inside
the view, summed (43_correlation.md R150 and R151). -/
def correlateLag (packed : List Byte) (view : Nat → List Byte) (i : Nat) : Nat :=
  (List.zipWith (fun (x y : Byte) => popcount8 (x ^^^ y)) packed ((view (i % 8)).drop (i / 8))).sum

/-- CURVE[0 .. N2-1] (43_correlation.md R151). -/
def correlate (packed : List Byte) (view : Nat → List Byte) (n2 : Nat) : List Nat :=
  (List.range n2).map (correlateLag packed view)

/-- The bytes of a run of CURVE entries (20_memory.md R63). -/
def curveBytes (values : List Nat) : List Byte := values.flatMap (fun v => wordBytes (BitVec.ofNat 32 v))

/-- CORR's pseudocode less its `requires` line (43_correlation.md R151). -/
def corrBody (s : State) : Ending :=
  .complete (s.setRam (Memory.writeBytes s.ram curveBase
    (curveBytes (correlate (packedBytes s (activeB s)) (viewBytes s (activeB s)) (activeN2 s)))))

/-- PACK (41_bitpacker.md R131). -/
def execPack (s : State) : Host.Outcome State Fault Refusal := .next (runCommand .pack packBody s)

/-- SHIFT (42_shiftcache.md R141). -/
def execShift (s : State) : Host.Outcome State Fault Refusal := .next (runCommand .shift shiftBody s)

/-- CORR (43_correlation.md R151). -/
def execCorr (s : State) : Host.Outcome State Fault Refusal := .next (runCommand .corr corrBody s)

end Sys2Proof.Machine
end

