-- ==== Sys2Proof/Machine/Run.lean ====
section
/-! DEFINITION. RUN, the whole pipeline in one completion step (46_detector.md R207 and R208). -/

namespace Sys2Proof.Machine

/-- RUN up to and with CORR: PITCH_VALID <- 0, then the bodies that cannot fail
(46_detector.md R207). -/
def runToCurve (s : State) : Ending :=
  (((packBody (s.setPitchValid false)).andThen shiftBody).andThen corrBody)

/-- RUN's pseudocode less its `requires` line: a stage that raises ends it (46_detector.md R208). -/
def runBody (s : State) : Ending := ((runToCurve s).andThen harmBody).andThen pitchBody

/-- RUN (46_detector.md R207). -/
def execRun (s : State) : Host.Outcome State Fault Refusal := .next (runCommand .run runBody s)

end Sys2Proof.Machine
end

