-- ==== Sys2Proof/Machine/Dispatch.lean ====
section
/-! DEFINITION. The meaning of each command, one arm a command. -/

namespace Sys2Proof.Machine

def exec (i : Instr) (s : State) : Host.Outcome State Fault Refusal :=
  match i with
  | .nop => Sys2Proof.Machine.execNop s
  | .config => Sys2Proof.Machine.execConfig s
  | .supply len => Sys2Proof.Machine.execSupply len s
  | .run => Sys2Proof.Machine.execRun s
  | .clear => Sys2Proof.Machine.execClear s
  | .sreset => Sys2Proof.Machine.execSreset s
  | .pack => Sys2Proof.Machine.execPack s
  | .shift => Sys2Proof.Machine.execShift s
  | .corr => Sys2Proof.Machine.execCorr s
  | .harm => Sys2Proof.Machine.execHarm s
  | .pitch => Sys2Proof.Machine.execPitch s

end Sys2Proof.Machine
end

