-- ==== Sys2Proof/Machine/HostPort.lean ====
section
/-! DEFINITION. The host port (20_memory.md): what a read returns and a write does, BUSY = 1 included,
and the reset input, a level (70_reset_and_hazards.md R260 and R263). -/

namespace Sys2Proof.Machine

/-- The command the pending word will perform: decoded, and in a STATE that admits it
(46_detector.md R203). Otherwise its completion writes only ERRCODE and LASTOP (10_state.md R47). -/
def pendingCommand? (s : State) : Option Instr :=
  match decode s.pend with
  | .error _ => none
  | .ok i => if s.det ∈ precondition i then some i else none

/-- The registers a successful SUPPLY writes (10_state.md R47). -/
def supplyRegs : List Reg := [.batch, .minPeriod, .minFreqLo, .minFreqHi]

/-- The registers HARM writes: LAG not on DegenerateLag (10_state.md R47). -/
def harmRegs (s : State) : List Reg :=
  [.globalMax, .bestValue, .bestLag] ++ (if s.minPeriod.toNat = 0 then [] else [.lag])

/-- The registers PITCH writes, as far as the refiner gets (10_state.md R47, 45_pitch.md R180). -/
def pitchRegs : PitchResult → List Reg
  | .noStart => []
  | .noNext _ => [.startEdge]
  | .degenerate _ _ _ => [.startEdge, .nextEdge, .lagSampLo, .lagSampHi]
  | .found _ _ _ _ => [.startEdge, .nextEdge, .lagSampLo, .lagSampHi, .pitchLo, .pitchHi]

/-- The registers RUN writes: HARM's, and PITCH's when HARM does not fail (10_state.md R47,
46_detector.md R208). -/
def runRegs (s : State) : List Reg :=
  harmRegs s ++
    (match (runToCurve s).andThen harmBody with
     | .complete t => pitchRegs (pitchOf t)
     | .raise _ _ => [])

/-- The registers SRESET writes: all but the constants, CMD and the STATUS fields, which read as
10_state.md R27 says (10_state.md R22 and R47). -/
def sresetRegs : List Reg :=
  [.cfgBatch, .cfgRate, .cfgMaxf, .batch, .rate, .maxf, .minPeriod, .minFreqLo, .minFreqHi, .globalMax,
    .bestValue, .bestLag, .lag, .startEdge, .nextEdge, .lagSampLo, .lagSampHi, .pitchLo, .pitchHi]

/-- The registers, STATUS aside, that the completion of a command writes (10_state.md R47). -/
def writtenRegs (s : State) : Instr → List Reg
  | .nop | .clear | .pack | .shift | .corr => []
  | .config =>
    match configBody s with
    | .complete _ => supplyRegs ++ [.rate, .maxf]
    | .raise _ _ => []
  | .supply len =>
    match supplyBody len s with
    | .complete _ => supplyRegs
    | .raise _ _ => []
  | .sreset => sresetRegs
  | .harm => harmRegs s
  | .pitch => pitchRegs (pitchOf s)
  | .run => runRegs s

/-- The RAM bytes PACK writes, as (offset, length) (10_state.md R47). -/
def packSpans (s : State) : List (Nat × Nat) := [(packedBase, activeB s)]

/-- The RAM bytes SHIFT writes (10_state.md R47). -/
def shiftSpans (s : State) : List (Nat × Nat) := (List.range 8).map (fun v => (viewBase v, activeB s))

/-- The RAM bytes CORR writes (10_state.md R47). -/
def corrSpans (s : State) : List (Nat × Nat) := [(curveBase, 4 * activeN2 s)]

/-- The RAM bytes the completion of a command writes (10_state.md R47). -/
def writtenSpans (s : State) : Instr → List (Nat × Nat)
  | .pack => packSpans s
  | .shift => shiftSpans s
  | .corr => corrSpans s
  | .run => packSpans s ++ shiftSpans s ++ corrSpans s
  | .nop | .config | .supply _ | .clear | .sreset | .harm | .pitch => []

/-- The RAM bytes the pending command writes (10_state.md R47). -/
def pendingSpans (s : State) : List (Nat × Nat) :=
  match pendingCommand? s with
  | some i => writtenSpans s i
  | none => []

/-- An offset lies in one of the spans. -/
def inSpans (spans : List (Nat × Nat)) (a : Nat) : Bool :=
  spans.any (fun p => decide (p.1 ≤ a) && decide (a < p.1 + p.2))

/-- The pending command writes state that a read of the word at `a` returns (20_memory.md R72): the
register there, or one of its four RAM bytes (log entry 8). -/
def pendingWrites (s : State) (a : Nat) : Bool :=
  match pendingCommand? s with
  | none => false
  | some i =>
    (writtenRegs s i).any (fun r => r.offset == a) ||
      (List.range 4).any (fun q => inSpans (writtenSpans s i) (a + q))

/-- The current value of the word at `a` (20_memory.md R62 to R66; reserved offsets read 0). -/
def currentWord (s : State) (a : Nat) : Word :=
  match regionOf s.maxBatch.toNat a with
  | .registers =>
    match Reg.at? a with
    | some r => readReg s r
    | none => 0#32
  | .sample | .packed | .shift | .curve => Memory.readWord s.ram a
  | .reserved => 0#32

/-- The port returns a word to the host. -/
def State.give (s : State) (v : Word) : State := { s with reads := v :: s.reads }

/-- A free value has been drawn. -/
def State.drawn (s : State) : State := { s with draws := s.draws + 1 }

/-- `MemRead(off, 4)`: the current word, or, for state the pending command writes while BUSY = 1, an
unspecified word (20_memory.md R67 and R72). A read has no other effect (R70). -/
def portRead (s : State) (off : Offset) : State :=
  if s.busy && pendingWrites s (wordOffset off) then (s.give (Config.unspecifiedRead s.draws)).drawn
  else s.give (currentWord s (wordOffset off))

/-- Issue: the word goes into PEND and BUSY becomes 1, nothing else (46_detector.md R200). The draw
says how long the host may go on before the completion (log entry 1). -/
def State.issue (s : State) (v : Word) : State :=
  { s with pend := v, busy := true, delay := Config.completionDelay s.draws, draws := s.draws + 1 }

/-- A host write to a register while BUSY = 0 (10_state.md R22 and R23): CMD issues, the RW registers
store, the rest ignore it. -/
def writeReg (s : State) (v : Word) : Reg → State
  | .cmd => s.issue v
  | .cfgBatch => { s with cfgBatch := v }
  | .cfgRate => { s with cfgRate := v }
  | .cfgMaxf => { s with cfgMaxf := v }
  | .lag => s.setLag v
  | .id | .version | .caps | .status | .batch | .rate | .maxf | .minPeriod | .minFreqLo | .minFreqHi => s
  | .globalMax | .bestValue | .bestLag | .startEdge | .nextEdge => s
  | .lagSampLo | .lagSampHi | .pitchLo | .pitchHi => s

/-- A host write at the word `a` while BUSY = 0 (20_memory.md R63 to R66). While the reset input is
asserted every register keeps its reset value (70_reset_and_hazards.md R260), so a write to the register
block has no effect and CMD issues nothing (log entry 13). -/
def writeCurrent (s : State) (a : Nat) (v : Word) : State :=
  match regionOf s.maxBatch.toNat a with
  | .registers =>
    if s.resetHeld then s
    else
      match Reg.at? a with
      | some r => writeReg s v r
      | none => s
  | .sample | .packed | .curve => s.setRam (Memory.writeWord s.ram a v)
  | .shift | .reserved => s

/-- `MemWrite(off, 4, v)`: while BUSY = 1 it only sets PROTO (70_reset_and_hazards.md R270). -/
def portWrite (s : State) (off : Offset) (v : Word) : State :=
  if s.busy then s.setProto true else writeCurrent s (wordOffset off) v

/-- Every byte of the spans replaced by a free value (70_reset_and_hazards.md R263, log entry 9). -/
def abandonSpans (draw : Nat) (m : Memory) (spans : List (Nat × Nat)) : Memory :=
  spans.foldl
    (fun acc p =>
      Memory.writeBytes acc p.1 ((List.range p.2).map (fun k => Config.abandonedByte draw (p.1 + k)))) m

/-- The reset input is asserted (70_reset_and_hazards.md R260, R261 and R263): the registers of R260, RAM
kept but for what a pending command writes, the pending command abandoned. The level stays until it is
released. -/
def assertReset (s : State) : State :=
  if s.busy then
    { s.clearRegisters with
      resetHeld := true
      ram := abandonSpans s.draws s.ram (pendingSpans s)
      pend := 0#32
      delay := 0
      draws := s.draws + 1 }
  else { s.clearRegisters with resetHeld := true, pend := 0#32, delay := 0 }

/-- The reset input is released: the registers hold the values they had while it was asserted
(70_reset_and_hazards.md R260). -/
def releaseReset (s : State) : State := { s with resetHeld := false }

end Sys2Proof.Machine
end

