-- ==== Sys2Proof/Machine/Sequencer.lean ====
section
/-! DEFINITION. Who moves next (00_scope.md R17): the block's completion step (46_detector.md R201) or
the host's next event (20_memory.md R71). Log entries 1, 2 and 3. -/

namespace Sys2Proof.Machine

/-- The completion of PEND (46_detector.md R201 and R203): decode it, then perform the command. An
illegal word completes as IllegalCommand (R212). -/
def completion (s : State) : Host.Outcome State Fault Refusal :=
  match decode s.pend with
  | .ok i => exec i s
  | .error _ => .next (completeIllegal s)

/-- The host's events after the one it is making. -/
def State.queue (s : State) (rest : List HostEvent) : State := { s with inputs := rest }

/-- One host event less before the pending command completes (log entry 1). -/
def State.tick (s : State) : State := { s with delay := s.delay - 1 }

/-- One POLL read of STATUS; the POLL is done when the BUSY bit it read is 0 (30_encoding.md R100). -/
def pollStatus (s : State) (rest : List HostEvent) : State :=
  if statusBusy (statusWord s) then s.give (statusWord s)
  else (s.give (statusWord s)).queue rest

/-- The host's next event, `rest` the ones after it. -/
def hostTurn (s : State) (e : HostEvent) (rest : List HostEvent) : State :=
  match e with
  | .rd off => portRead (s.queue rest) off
  | .wr off v => portWrite (s.queue rest) off v
  | .poll => pollStatus s rest
  | .assertReset => assertReset (s.queue rest)
  | .releaseReset => releaseReset (s.queue rest)

/-- One step of the system (20_memory.md R71). BUSY = 1: the completion, once the host has had the
events the delay leaves it or has nothing more to do (70_reset_and_hazards.md R275). BUSY = 0: the
host's next event; with none, nothing changes (60_exceptions.md R244). -/
def advance (s : State) : Host.Outcome State Fault Refusal :=
  match s.busy, s.inputs, s.delay with
  | true, [], _ => completion s
  | true, _ :: _, 0 => completion s
  | true, e :: rest, _ + 1 => .next (hostTurn s.tick e rest)
  | false, [], _ => .next s
  | false, e :: rest, _ => .next (hostTurn s e rest)

/-- The command word `w` pending with reset released, its completion the very next step (log entry
2). -/
def State.withPending (s : State) (w : Nat) : State :=
  { s with pend := BitVec.ofNat 32 w, busy := true, resetHeld := false, delay := 0 }

end Sys2Proof.Machine
end

