-- ==== Sys2Proof/Machine/Step.lean ====
section
/-! DEFINITION. One step of the machine, and the command word placed where the next step takes it. -/

namespace Sys2Proof.Machine

/-- One step of the system. -/
def step (s : State) : Host.Outcome State Fault Refusal := advance s

/-- `s` with the command word `w` issued and about to complete: PEND holds it, BUSY = 1 and no host
event comes before the completion (log entry 2). -/
def State.withFetchWord (s : State) (_nbits w : Nat) : State := s.withPending w

end Sys2Proof.Machine
end

