-- ==== Sys2Proof/Machine/HostProgram.lean ====
section
/-! DEFINITION. The host-program notation of 30_encoding.md R99 and R100 as host events: the
pseudo-operations and what the host makes of the words it reads. -/

namespace Sys2Proof.Machine

/-- A register's offset as a port offset. -/
def regOffset (r : Reg) : Offset := BitVec.ofNat 20 r.offset

/-- A command mnemonic: `WR 0x00C, <its encoding>` (30_encoding.md R99). -/
def issueEvents (i : Instr) : List HostEvent := [.wr (regOffset .cmd) (encode i)]

/-- `EXEC m [L]`: the command, then POLL (30_encoding.md R100). -/
def execEvents (i : Instr) : List HostEvent := issueEvents i ++ [.poll]

/-- `SETCFG n, r, f` (30_encoding.md R100). -/
def setcfgEvents (n r f : Word) : List HostEvent :=
  [.wr (regOffset .cfgBatch) n, .wr (regOffset .cfgRate) r, .wr (regOffset .cfgMaxf) f]

/-- `LDS i, x`, x given as its binary32 bits (30_encoding.md R100). -/
def ldsEvents (i : Nat) (x : Word) : List HostEvent := [.wr (BitVec.ofNat 20 (sampleOffset i)) x]

/-- The read of `ERR -> e` (30_encoding.md R100); e is `statusErr` of the word it returns. -/
def errEvents : List HostEvent := [.rd (regOffset .status)]

/-- `RDF64 lo_off`, its two reads (30_encoding.md R100). -/
def rdf64Events (lo : Offset) : List HostEvent := [.rd lo, .rd (lo + 4#20)]

/-- The binary64 pattern `{b, a}` of the two words RDF64 read, the newest first (30_encoding.md
R100). -/
def rdf64Value (reads : List Word) : Option Bits64 :=
  match reads with
  | hi :: lo :: _ => some (hi ++ lo)
  | _ => none

end Sys2Proof.Machine
end

