-- ==== Sys2Proof/Safety.lean ====
section
/-! DEFINITION. What the rules promise of every state a run reaches, in the terms the statements use. -/

namespace Sys2Proof.Machine

/-- The active configuration while STATE ≠ UNCONF: 10_state.md R30 (BATCH), R31 (RATE, MAXF), R32
(MINPERIOD) and R33 (MINFREQ). -/
structure ActiveConfig (s : State) : Prop where
  batch_multiple : s.batch.toNat % 8 = 0
  batch_least : 8 ≤ s.batch.toNat
  batch_capacity : s.batch.toNat ≤ s.maxBatch.toNat
  rate_least : 2 ≤ s.rate.toNat
  maxf_least : 1 ≤ s.maxf.toNat
  minPeriod_value : s.minPeriod.toNat = s.rate.toNat / s.maxf.toNat
  minPeriod_bound : s.minPeriod.toNat < s.batch.toNat / 2
  minFreq_value : s.minFreqHi ++ s.minFreqLo =
    (F64.div (F64.ofNat s.rate.toNat) (F64.ofNat (s.batch.toNat / 2))).bits

/-- While STATE = UNCONF no configuration has been accepted since the last reset, so its registers hold
their reset values (70_reset_and_hazards.md R260, 46_detector.md R213). -/
structure NoConfig (s : State) : Prop where
  batch : s.batch = 0#32
  rate : s.rate = 0#32
  maxf : s.maxf = 0#32
  minPeriod : s.minPeriod = 0#32
  minFreqLo : s.minFreqLo = 0#32
  minFreqHi : s.minFreqHi = 0#32
  pitchValid : s.pitchValid = false

/-- PITCH holds the result of a PITCH or RUN under the present RATE: LAGSAMP holds a lagSamples above
0, and PITCH the quotient of RATE by it (45_pitch.md R187 and R188, 10_state.md R27). -/
def PitchCurrent (s : State) : Prop :=
  ∃ ls : F64, F64.lt (F64.fin false 0) ls = true ∧
    s.lagSampHi ++ s.lagSampLo = ls.bits ∧
    s.pitchHi ++ s.pitchLo = (F64.div (F64.ofNat s.rate.toNat) ls).bits

/-- A port offset that lies in one of the RAM windows (20_memory.md R62). -/
def inWindow (cap a : Nat) : Bool :=
  match regionOf cap a with
  | .sample | .packed | .shift | .curve => true
  | .registers | .reserved => false

/-- The value each register reads while reset is asserted and when it is released
(70_reset_and_hazards.md R260). -/
def resetValue (cap : Word) : Reg → Word
  | .id => 0x42534143#32
  | .version => 0x00000001#32
  | .caps => cap
  | .cmd | .status | .cfgBatch | .cfgRate | .cfgMaxf | .batch | .rate | .maxf | .minPeriod => 0#32
  | .minFreqLo | .minFreqHi | .globalMax | .bestValue | .bestLag | .lag | .startEdge | .nextEdge => 0#32
  | .lagSampLo | .lagSampHi | .pitchLo | .pitchHi => 0#32

/-- The invariant of the machine. -/
structure Inv (s : State) : Prop where
  /-- MAX_BATCH is a legal capacity (00_scope.md R8) -/
  capacity : Config.legalMaxBatch s.maxBatch.toNat = true
  /-- the RAM list is in canonical form -/
  ram_form : Memory.wf s.ram = true
  /-- RAM holds entries of the windows only (20_memory.md R62) -/
  ram_inside : ∀ c ∈ s.ram, inWindow s.maxBatch.toNat c.1 = true
  /-- the configuration in force (10_state.md R30 to R33) -/
  configured : s.det ≠ .unconf → ActiveConfig s
  /-- nothing configured (70_reset_and_hazards.md R260) -/
  unconfigured : s.det = .unconf → NoConfig s
  /-- a valid pitch is a current one, in READY (10_state.md R27) -/
  valid : s.pitchValid = true → s.det = .ready ∧ PitchCurrent s
  /-- while reset is asserted nothing is pending and every register has its reset value
  (70_reset_and_hazards.md R260 and R263) -/
  held : s.resetHeld = true → s.busy = false ∧ ∀ r : Reg, readReg s r = resetValue s.maxBatch r

/-- The stream bit `t` of a packed stream: the most significant bit of its byte first
(00_scope.md R12). -/
def streamBit (packed : Nat → Byte) (t : Nat) : Bool := (packed (t / 8)).getLsbD (7 - t % 8)

/-- The big-endian value of a byte array (42_shiftcache.md R140). -/
def bigEndian (xs : List Byte) : Nat := xs.foldl (fun acc x => acc * 256 + x.toNat) 0

/-- The block is busy and the next step is the completion of the pending command (46_detector.md R201,
log entry 1). -/
def CompletesNow (s : State) : Prop := s.busy = true ∧ (s.inputs = [] ∨ s.delay = 0)

/-- The host's event `e` is the next step, `rest` the events after it, in state `s` (20_memory.md R71,
log entry 1). -/
def HostMoves (s : State) (e : HostEvent) (rest : List HostEvent) : Prop :=
  s.inputs = e :: rest ∧ (s.busy = false ∨ s.delay ≠ 0)

/-- `s` once the host's event has been taken from its queue; during BUSY the delay runs down. -/
def State.afterEvent (s : State) (rest : List HostEvent) : State :=
  { s with inputs := rest, delay := if s.busy then s.delay - 1 else s.delay }

/-- The RAM bytes of a command's row in 10_state.md R47, for a batchSize of `n`: PACKED[0..B-1] for
PACK, the eight views' bytes 0 to B-1 for SHIFT, CURVE[0..N2-1] for CORR, all of them for RUN. -/
def RowByte (n a : Nat) : Instr → Prop
  | .pack => 0x80000 ≤ a ∧ a < 0x80000 + n / 8
  | .shift => ∃ v, v < 8 ∧ 0x90000 + 0x2000 * v ≤ a ∧ a < 0x90000 + 0x2000 * v + n / 8
  | .corr => 0xA0000 ≤ a ∧ a < 0xA0000 + 4 * (n / 2)
  | .run =>
    (0x80000 ≤ a ∧ a < 0x80000 + n / 8) ∨
      (∃ v, v < 8 ∧ 0x90000 + 0x2000 * v ≤ a ∧ a < 0x90000 + 0x2000 * v + n / 8) ∨
      (0xA0000 ≤ a ∧ a < 0xA0000 + 4 * (n / 2))
  | .nop | .config | .supply _ | .clear | .sreset | .harm | .pitch => False

/-- The word offset of a reserved place of the address map, for a capacity `cap` (10_state.md R22,
20_memory.md R62 and R66). -/
def ReservedOffset (cap a : Nat) : Prop :=
  (a < 0x1000 ∧ a ∉ Reg.all.map Reg.offset) ∨
    (0x1000 ≤ a ∧ ¬(0x40000 ≤ a ∧ a < 0x40000 + 4 * cap) ∧ ¬(0x80000 ≤ a ∧ a < 0x80000 + cap / 8) ∧
      (∀ v, v < 8 → ¬(0x90000 + 0x2000 * v ≤ a ∧ a < 0x90000 + 0x2000 * v + cap / 8)) ∧
      ¬(0xA0000 ≤ a ∧ a < 0xA0000 + 2 * cap))

/-- `Cross(j)` in a state (45_pitch.md R181), on the patterns: SAMPLE[j] a positive number or +infinity,
SAMPLE[j-1] a zero or a negative number or -infinity. -/
def CrossAt (s : State) (j : Nat) : Prop :=
  (0x00000001 ≤ (sampleAt s j).toNat ∧ (sampleAt s j).toNat ≤ 0x7F800000) ∧
    ((sampleAt s (j - 1)).toNat = 0 ∨
      (0x80000000 ≤ (sampleAt s (j - 1)).toNat ∧ (sampleAt s (j - 1)).toNat ≤ 0xFF800000))

/-- `j` is the least crossing with `lo ≤ j ≤ N - 1` (45_pitch.md R182 and R184). -/
def FirstEdge (s : State) (lo j : Nat) : Prop :=
  lo ≤ j ∧ j < s.batch.toNat ∧ CrossAt s j ∧ ∀ k, lo ≤ k → k < j → ¬CrossAt s k

/-- No crossing lies between `lo` and N - 1 (45_pitch.md R182 and R184). -/
def NoEdge (s : State) (lo : Nat) : Prop := ∀ k, lo ≤ k → k < s.batch.toNat → ¬CrossAt s k

/-- The start of the second scan (45_pitch.md R183). -/
def SecondStart (s : State) (j0 : Nat) : Prop :=
  (2 ≤ s.lag.toNat ∧ j0 = s.lag.toNat - 1) ∨ (s.lag.toNat ≤ 1 ∧ j0 = 1)

/-- A number of units that some finite binary64 value has: a significand below 2^53 times a power of
two (00_scope.md R14). -/
def Representable (u : Nat) : Prop := u < 2 ^ 2098 ∧ ∃ m k, m < 2 ^ 53 ∧ u = m * 2 ^ k

/-- The correctly rounded value of `± p / q` units (00_scope.md R14): infinity from half a step below
2^1024 on; otherwise a representable value with that sign to which none is nearer, a tie having gone to
the even significand. -/
def RoundsTo (neg : Bool) (p q : Nat) (x : F64) : Prop :=
  ((2 ^ 54 - 1) * 2 ^ 2045 * q ≤ 2 * p ∧ x = .inf neg) ∨
    (2 * p < (2 ^ 54 - 1) * 2 ^ 2045 * q ∧
      ∃ u, x = .fin neg u ∧ Representable u ∧
        ∀ v, Representable v →
          ((u * q : Int) - p).natAbs ≤ ((v * q : Int) - p).natAbs ∧
            (((u * q : Int) - p).natAbs = ((v * q : Int) - p).natAbs → v ≠ u →
              u / 2 ^ (Nat.log2 u - 52) % 2 = 0))

/-- The registers a host can read, as (word offset, value) pairs (10_state.md R22, R23 and R26). -/
def registerMap (s : State) : List (Nat × Word) :=
  [(0x000, 0x42534143#32), (0x004, 0x00000001#32), (0x008, s.maxBatch), (0x00C, 0#32),
    (0x010, statusWord s), (0x020, s.cfgBatch), (0x024, s.cfgRate), (0x028, s.cfgMaxf),
    (0x030, s.batch), (0x034, s.rate), (0x038, s.maxf), (0x03C, s.minPeriod),
    (0x040, s.minFreqLo), (0x044, s.minFreqHi), (0x048, s.globalMax), (0x04C, s.bestValue),
    (0x050, s.bestLag), (0x054, s.lag), (0x058, s.startEdge), (0x05C, s.nextEdge),
    (0x060, s.lagSampLo), (0x064, s.lagSampHi), (0x068, s.pitchLo), (0x06C, s.pitchHi)]

/-- `w` is the current value of the word at offset `a`: a register, a window's word, or 0 at a reserved
place (10_state.md R22, 20_memory.md R62 to R66). -/
def MapWord (s : State) (a : Nat) (w : Word) : Prop :=
  (a, w) ∈ registerMap s ∨
    (∃ i, i < s.maxBatch.toNat ∧ a = 0x40000 + 4 * i ∧ w = sampleAt s i) ∨
    (∃ m, m < s.maxBatch.toNat / 32 ∧ a = 0x80000 + 4 * m ∧
      w = packedAt s (4 * m + 3) ++ packedAt s (4 * m + 2) ++ packedAt s (4 * m + 1) ++ packedAt s (4 * m)) ∨
    (∃ v m, v < 8 ∧ m < s.maxBatch.toNat / 32 ∧ a = 0x90000 + 0x2000 * v + 4 * m ∧
      w = shiftAt s v (4 * m + 3) ++ shiftAt s v (4 * m + 2) ++ shiftAt s v (4 * m + 1) ++ shiftAt s v (4 * m)) ∨
    (∃ i, i < s.maxBatch.toNat / 2 ∧ a = 0xA0000 + 4 * i ∧ w.toNat = curveAt s i) ∨
    (ReservedOffset s.maxBatch.toNat a ∧ w = 0#32)

/-- The register words PITCH writes when it ends with code `e` (10_state.md R47, 45_pitch.md R180): all six
on success, the edges and LAGSAMP on DegenerateLag, START_EDGE on NoPositiveSample if there is a start
edge. -/
def PitchWord (s : State) (e : ErrCode) (a : Nat) : Prop :=
  (e = .ok ∧ a ∈ [0x058, 0x05C, 0x060, 0x064, 0x068, 0x06C]) ∨
    (e = .degenerateLag ∧ a ∈ [0x058, 0x05C, 0x060, 0x064]) ∨
    (e = .noPositiveSample ∧ a = 0x058 ∧ ∃ j, FirstEdge s 1 j)

/-- The register words, STATUS aside, of a command's row in 10_state.md R47 when it ends with code `e`.
RUN's row goes on to PITCH's only where HARM does not fail, that is, with MINPERIOD ≥ 1
(46_detector.md R208, 44_harmonic.md R163). -/
def RowWord (s : State) (e : ErrCode) (a : Nat) : Instr → Prop
  | .nop | .clear | .pack | .shift | .corr => False
  | .config => e = .ok ∧ a ∈ [0x030, 0x034, 0x038, 0x03C, 0x040, 0x044]
  | .supply _ => e = .ok ∧ a ∈ [0x030, 0x03C, 0x040, 0x044]
  | .sreset =>
    a ∈ [0x020, 0x024, 0x028, 0x030, 0x034, 0x038, 0x03C, 0x040, 0x044, 0x048, 0x04C, 0x050, 0x054, 0x058,
      0x05C, 0x060, 0x064, 0x068, 0x06C]
  | .harm => a ∈ [0x048, 0x04C, 0x050] ∨ (e = .ok ∧ a = 0x054)
  | .pitch => PitchWord s e a
  | .run => a ∈ [0x048, 0x04C, 0x050] ∨ (1 ≤ s.minPeriod.toNat ∧ (a = 0x054 ∨ PitchWord s e a))

/-- The pending command's completion writes the word at offset `a` (20_memory.md R72): the pending word
decodes, STATE admits it, and a register word or a RAM byte of its row of 10_state.md R47, for the code
it ends with, lies there. A word that ends with NotReady or IllegalCommand writes only ERRCODE and
LASTOP. The reading is log entry 8. -/
def CompletionWrites (s : State) (a : Nat) : Prop :=
  ∃ i t, decode s.pend = .ok i ∧ s.det ∈ precondition i ∧ exec i s = .next t ∧
    (RowWord s t.errCode a i ∨ ∃ q, q < 4 ∧ RowByte s.batch.toNat (a + q) i)

end Sys2Proof.Machine
end

