-- ==== Sys2Proof/Certificates/Slice0/Obligations.lean ====
section
/-! DEFINITION. The statements for the provers. Each docstring names the rule of spec/ it formalises, or
says what is the model's own. -/

open Sys2Proof Sys2Proof.Machine

/-! ## Encoding, the step, the lifecycle -/

/-- A completion step runs the decoded command, which is well formed, and adds nothing around it
(46_detector.md R201, R203); a word placed by withFetchWord is the one that runs. -/
def Obligations.StepRunsTheDecodedCommand : Prop :=
  (∀ (s : State) (i : Instr), CompletesNow s → decode s.pend = .ok i → i.wf = true ∧ step s = exec i s) ∧
    (∀ (s : State) (nbits w : Nat) (i : Instr), decode (BitVec.ofNat 32 w) = .ok i →
      step (s.withFetchWord nbits w) = exec i (s.withFetchWord nbits w))

/-- The command words of 30_encoding.md R94 decode to their commands, and its two illegal words to
nothing. -/
def Obligations.ListedWordsDecode : Prop :=
  decode 0x00000000#32 = .ok .nop ∧ decode 0x00000001#32 = .ok .config ∧
    decode 0x00000003#32 = .ok .run ∧ decode 0x00000004#32 = .ok .clear ∧
    decode 0x00000005#32 = .ok .sreset ∧ decode 0x00000010#32 = .ok .pack ∧
    decode 0x00000011#32 = .ok .shift ∧ decode 0x00000012#32 = .ok .corr ∧
    decode 0x00000013#32 = .ok .harm ∧ decode 0x00000014#32 = .ok .pitch ∧
    decode 0x00004002#32 = .ok (.supply 64) ∧ decode 0x000C0002#32 = .ok (.supply 3072) ∧
    decode 0x00002002#32 = .ok (.supply 32) ∧ (decode 0x00000103#32).toOption = none ∧
    (decode 0x000000FF#32).toOption = none

/-- Decoding and encoding are inverse to each other: every well-formed command is read back from its
word, and every word that decodes is the word of the command it decodes to (30_encoding.md R90 to
R93). -/
def Obligations.DecodeAndEncodeAreInverse : Prop :=
  (∀ i : Instr, i.wf = true → decode (encode i) = .ok i) ∧
    (∀ (w : Word) (i : Instr), decode w = .ok i → i.wf = true ∧ encode i = w)

/-- 46_detector.md R212: a word with an unlisted OPC, or with a nonzero IMM on an opcode other than
SUPPLY's, completes with code 7, LASTOP = PEND[7:0] and nothing else; the block is ready for the next
command. -/
def Obligations.IllegalWordCompletesWithCodeSeven : Prop :=
  ErrCode.illegalCommand.code = 7#4 ∧
    ∀ s : State, CompletesNow s →
      (s.pend.toNat % 256 ∉ [0, 1, 2, 3, 4, 5, 16, 17, 18, 19, 20] ∨
        (s.pend.toNat % 256 ≠ 2 ∧ s.pend.toNat / 256 ≠ 0)) →
      step s = .next { s with
        errCode := .illegalCommand
        lastOp := BitVec.ofNat 8 s.pend.toNat
        busy := false }

/-- Every completion step ends the pending command: BUSY = 0 and LASTOP = PEND[7:0] (46_detector.md R201).
That PEND itself is kept, after SRESET too, is log entry 20; the host's events, the words read and the
level of reset are no block's to change (log entries 2 and 13). -/
def Obligations.CompletionRetiresTheCommand : Prop :=
  ∀ s : State, CompletesNow s →
    ∃ t, step s = .next t ∧ t.busy = false ∧ t.lastOp = BitVec.ofNat 8 s.pend.toNat ∧
      t.pend = s.pend ∧ t.inputs = s.inputs ∧ t.reads = s.reads ∧ t.maxBatch = s.maxBatch ∧
      t.resetHeld = s.resetHeld

/-- A command outside its precondition set is NotReady and writes only ERRCODE and LASTOP
(46_detector.md R203, 30_encoding.md R91). -/
def Obligations.NotReadyWritesOnlyTheOutcome : Prop :=
  ErrCode.notReady.code = 6#4 ∧
    (∀ (s : State) (len : Nat), s.det = .unconf →
      ∀ i ∈ [Instr.supply len, .shift, .corr, .harm],
        exec i s = .next { s with errCode := .notReady, lastOp := opcode i, busy := false }) ∧
    (∀ s : State, s.det ≠ .ready →
      ∀ i ∈ [Instr.run, .pack, .pitch],
        exec i s = .next { s with errCode := .notReady, lastOp := opcode i, busy := false })

/-- 46_detector.md R200: a write to CMD while BUSY = 0, with reset not asserted, stores the word into PEND
and sets BUSY; nothing else of the block changes (the delay and the draw count are the model's own, log
entry 1). -/
def Obligations.IssueStoresTheWordAndSetsBusy : Prop :=
  ∀ (s : State) (off : Offset) (v : Word) (rest : List HostEvent),
    s.busy = false → s.resetHeld = false → s.inputs = .wr off v :: rest → off.toNat / 4 * 4 = 0x00C →
    ∃ d n, step s = .next { s with inputs := rest, pend := v, busy := true, delay := d, draws := n }

/-- 70_reset_and_hazards.md R270 and 46_detector.md R202: a host write while BUSY = 1, whatever its
offset, CMD included, only sets PROTO. -/
def Obligations.WriteDuringBusyOnlySetsProto : Prop :=
  ∀ (s : State) (off : Offset) (v : Word) (rest : List HostEvent),
    s.busy = true → HostMoves s (.wr off v) rest →
    step s = .next { s.afterEvent rest with proto := true }

/-- Every issued command completes, or is abandoned by the reset input, within the delay the host was
given: BUSY returns to 0 (46_detector.md R201, 70_reset_and_hazards.md R275; the bound is the model's
own, log entry 1). -/
def Obligations.BusyReturnsToZero : Prop :=
  ∀ s : State, s.busy = true →
    ∃ k t, k ≤ s.delay + 1 ∧ Host.Core.run Sys2Proof.core k s = .next t ∧ t.busy = false

/-- No state is stuck: every step has a next state, errors included (60_exceptions.md R232, R234;
20_memory.md R66). While BUSY = 0 the block has no step, so with no host event nothing changes
(46_detector.md R201, 60_exceptions.md R244; that the machine's step then answers the same state is the
model's own, log entry 3). -/
def Obligations.EveryStateHasANextStep : Prop :=
  ∀ s : State, ∃ t, step s = .next t ∧ (s.busy = false → s.inputs = [] → t = s)

/-! ## Control commands -/

/-- 46_detector.md R210: NOP's encoding, and its two writes (the completion clears BUSY). -/
def Obligations.NopWritesOnlyTheOutcome : Prop :=
  encode .nop = 0x00000000#32 ∧ decode 0x00000000#32 = .ok .nop ∧
    ∀ s : State, exec .nop s = .next { s with errCode := .ok, lastOp := 0x00#8, busy := false }

/-- 46_detector.md R211: CLEAR's encoding and writes, and that besides it only SRESET and the reset
input ever clear PROTO. -/
def Obligations.ClearIsTheWayToClearProto : Prop :=
  encode .clear = 0x00000004#32 ∧ decode 0x00000004#32 = .ok .clear ∧
    (∀ s : State, exec .clear s =
      .next { s with proto := false, errCode := .ok, lastOp := 0x04#8, busy := false }) ∧
    (∀ s t : State, s.proto = true → step s = .next t → t.proto = false →
      (CompletesNow s ∧ (decode s.pend = .ok .clear ∨ decode s.pend = .ok .sreset)) ∨
        (∃ rest, HostMoves s .assertReset rest))

/-- 70_reset_and_hazards.md R264: SRESET gives every register its reset value except LASTOP = 0x05, keeps
every RAM entry (and the model's own fields, log entries 1, 2 and 13), and cannot interrupt a pending
command: written to CMD during BUSY it only sets PROTO. -/
def Obligations.SoftResetClearsRegistersAndKeepsRam : Prop :=
  (∀ s : State, ∃ t, exec .sreset s = .next t ∧
    (∀ r : Reg, r ≠ .status → readReg t r = resetValue s.maxBatch r) ∧
    readReg t .status = 0x00050000#32 ∧ t.ram = s.ram ∧ t.resetHeld = s.resetHeld ∧ t.inputs = s.inputs ∧
    t.reads = s.reads ∧ t.delay = s.delay ∧ t.draws = s.draws) ∧
  (∀ (s : State) (off : Offset) (rest : List HostEvent), s.busy = true →
    HostMoves s (.wr off (encode .sreset)) rest →
    step s = .next { s.afterEvent rest with proto := true })

/-! ## Reset -/

/-- After power-on every register reads its reset value for every capacity, and every RAM byte reads its
free power-on value (70_reset_and_hazards.md R260, R261); the state after reset is that of the default
capacity 4096 (00_scope.md R8). -/
def Obligations.PowerOnRegistersAndRam : Prop :=
  State.reset = State.powerOn 4096#32 ∧
    ∀ cap : Word,
      (∀ r : Reg, readReg (State.powerOn cap) r = resetValue cap r) ∧
        (∀ a : Nat, Memory.read (State.powerOn cap).ram a = Config.powerOnByte a)

/-- The reset input, a level (70_reset_and_hazards.md R260, R261). Asserted with no command pending, it
sets every register to its reset value and keeps every RAM entry. However long it stays asserted,
whatever the host does meanwhile, every register reads its reset value and nothing is pending; a host
read then returns it, a write to the register block changes nothing (log entry 13). Its release changes
nothing else. -/
def Obligations.ResetInputKeepsRam : Prop :=
  (∀ (s : State) (rest : List HostEvent), s.busy = false → s.inputs = .assertReset :: rest →
    ∃ t, step s = .next t ∧ (∀ r : Reg, readReg t r = resetValue s.maxBatch r) ∧ t.busy = false ∧
      t.resetHeld = true ∧ t.ram = s.ram ∧ t.inputs = rest ∧ t.reads = s.reads) ∧
  (∀ (s t : State) (k : Nat), s.resetHeld = false → Host.Core.run Sys2Proof.core k s = .next t →
    t.resetHeld = true →
    t.busy = false ∧ (∀ r : Reg, readReg t r = resetValue t.maxBatch r) ∧
      (∀ (r : Reg) (off : Offset) (rest : List HostEvent), t.inputs = .rd off :: rest →
        off.toNat / 4 * 4 = r.offset →
        step t = .next { t with inputs := rest, reads := resetValue t.maxBatch r :: t.reads }) ∧
      (∀ (off : Offset) (v : Word) (rest : List HostEvent), t.inputs = .wr off v :: rest →
        off.toNat < 0x1000 → step t = .next { t with inputs := rest })) ∧
  (∀ (s : State) (rest : List HostEvent), s.busy = false → s.inputs = .releaseReset :: rest →
    step s = .next { s with inputs := rest, resetHeld := false })

/-- 70_reset_and_hazards.md R263: the reset input, asserted during BUSY, abandons the pending command. The
registers take their reset values; every RAM byte of the pending command's row of 10_state.md R47
takes a free value, and every other byte keeps its own; a command that would end with NotReady or
IllegalCommand has no row. No other host event aborts a pending command. -/
def Obligations.ResetDuringBusyAbandonsTheCommand : Prop :=
  (∀ (s : State) (rest : List HostEvent), s.busy = true → HostMoves s .assertReset rest →
    ∃ t, step s = .next t ∧ (∀ r : Reg, readReg t r = resetValue s.maxBatch r) ∧ t.busy = false ∧
      t.resetHeld = true ∧ t.inputs = rest ∧ t.reads = s.reads ∧
      ∀ a : Nat,
        ((∃ i, decode s.pend = .ok i ∧ s.det ∈ precondition i ∧ RowByte s.batch.toNat a i) →
          Memory.read t.ram a = Config.abandonedByte s.draws a) ∧
        (¬(∃ i, decode s.pend = .ok i ∧ s.det ∈ precondition i ∧ RowByte s.batch.toNat a i) →
          Memory.read t.ram a = Memory.read s.ram a)) ∧
  (∀ (s t : State) (e : HostEvent) (rest : List HostEvent), s.busy = true → HostMoves s e rest →
    e ≠ .assertReset → step s = .next t → t.busy = true ∧ t.pend = s.pend)

/-! ## The host port -/

/-- 10_state.md R25 and R24: ID, VERSION and CAPS read their constants, and no step changes MAX_BATCH. -/
def Obligations.IdentityRegistersAreConstant : Prop :=
  (∀ (s : State) (off : Offset) (rest : List HostEvent) (p : Nat × Word),
    HostMoves s (.rd off) rest →
    p ∈ [(0x000, 0x42534143#32), (0x004, 0x00000001#32), (0x008, s.maxBatch)] →
    off.toNat / 4 * 4 = p.1 →
    step s = .next { s.afterEvent rest with reads := p.2 :: s.reads }) ∧
  (∀ s t : State, step s = .next t → t.maxBatch = s.maxBatch)

/-- While BUSY = 0 a read of a register returns what the register map says, and changes nothing else
(10_state.md R22, R23, R26; 20_memory.md R70). -/
def Obligations.RegisterReadsFollowTheMap : Prop :=
  ∀ (s : State) (off : Offset) (rest : List HostEvent) (p : Nat × Word),
    s.busy = false → s.inputs = .rd off :: rest →
    p ∈ registerMap s →
    off.toNat / 4 * 4 = p.1 →
    step s = .next { s with inputs := rest, reads := p.2 :: s.reads }

/-- The places of the STATUS fields, reserved bits reading 0, and the encodings of STATE and ERRCODE
(10_state.md R27 and R28, 60_exceptions.md R230). -/
def Obligations.StatusWordLayout : Prop :=
  (∀ s : State, (statusWord s).toNat =
    s.busy.toNat + 2 * s.det.code.toNat + 8 * s.pitchValid.toNat + 16 * s.proto.toNat +
      256 * s.errCode.code.toNat + 65536 * s.lastOp.toNat) ∧
    (Detector.unconf.code = 0#2 ∧ Detector.idle.code = 1#2 ∧ Detector.ready.code = 2#2) ∧
    (ErrCode.ok.code = 0#4 ∧ ErrCode.invalidBatchSize.code = 1#4 ∧ ErrCode.invalidSampleRate.code = 2#4 ∧
      ErrCode.invalidFrequencyRange.code = 3#4 ∧ ErrCode.noPositiveSample.code = 4#4 ∧
      ErrCode.degenerateLag.code = 5#4 ∧ ErrCode.notReady.code = 6#4 ∧ ErrCode.illegalCommand.code = 7#4)

/-- While BUSY = 0, with reset not asserted, a write stores all 32 bits into the staging registers and LAG,
and has no effect on any other register but CMD, nor on the reserved places of the register block
(10_state.md R22, R23, R29, R35). -/
def Obligations.RegisterWritesFollowTheMap : Prop :=
  ∀ (s : State) (off : Offset) (v : Word) (rest : List HostEvent),
    s.busy = false → s.resetHeld = false → s.inputs = .wr off v :: rest →
    (off.toNat / 4 * 4 = 0x020 → step s = .next { s with inputs := rest, cfgBatch := v }) ∧
    (off.toNat / 4 * 4 = 0x024 → step s = .next { s with inputs := rest, cfgRate := v }) ∧
    (off.toNat / 4 * 4 = 0x028 → step s = .next { s with inputs := rest, cfgMaxf := v }) ∧
    (off.toNat / 4 * 4 = 0x054 → step s = .next { s with inputs := rest, lag := v }) ∧
    (off.toNat / 4 * 4 < 0x1000 → off.toNat / 4 * 4 ∉ [0x00C, 0x020, 0x024, 0x028, 0x054] →
      step s = .next { s with inputs := rest })

/-- While BUSY = 0 the SAMPLE and CURVE windows return and store whole entries, and a store touches no
other byte (20_memory.md R63; that it is so while reset is asserted too is log entry 13). -/
def Obligations.SampleAndCurveWindows : Prop :=
  ∀ (s : State) (off : Offset) (i : Nat) (v : Word) (rest : List HostEvent),
    Config.legalMaxBatch s.maxBatch.toNat = true → s.busy = false →
    (i < s.maxBatch.toNat → off.toNat = 0x40000 + 4 * i →
      (s.inputs = .rd off :: rest →
        step s = .next { s with inputs := rest, reads := sampleAt s i :: s.reads }) ∧
      (s.inputs = .wr off v :: rest →
        ∃ t, step s = .next t ∧ t = { s with inputs := rest, ram := t.ram } ∧ sampleAt t i = v ∧
          ∀ a, a < 0x40000 + 4 * i ∨ 0x40000 + 4 * i + 4 ≤ a →
            Memory.read t.ram a = Memory.read s.ram a)) ∧
    (i < s.maxBatch.toNat / 2 → off.toNat = 0xA0000 + 4 * i →
      (s.inputs = .rd off :: rest →
        ∃ w, step s = .next { s with inputs := rest, reads := w :: s.reads } ∧ w.toNat = curveAt s i) ∧
      (s.inputs = .wr off v :: rest →
        ∃ t, step s = .next t ∧ t = { s with inputs := rest, ram := t.ram } ∧ curveAt t i = v.toNat ∧
          ∀ a, a < 0xA0000 + 4 * i ∨ 0xA0000 + 4 * i + 4 ≤ a →
            Memory.read t.ram a = Memory.read s.ram a))

/-- 20_memory.md R64 (while BUSY = 0): a PACKED word is its four bytes, the lowest in bits [7:0], and a
write stores each byte of the word at its place and no other byte (while reset is asserted too: log
entry 13). -/
def Obligations.PackedWindowIsLittleEndian : Prop :=
  ∀ (s : State) (off : Offset) (m : Nat) (v : Word) (rest : List HostEvent),
    Config.legalMaxBatch s.maxBatch.toNat = true → s.busy = false → m < s.maxBatch.toNat / 32 →
    off.toNat = 0x80000 + 4 * m →
    (s.inputs = .rd off :: rest →
      step s = .next { s with
        inputs := rest
        reads := (packedAt s (4 * m + 3) ++ packedAt s (4 * m + 2) ++ packedAt s (4 * m + 1) ++
          packedAt s (4 * m)) :: s.reads }) ∧
    (s.inputs = .wr off v :: rest →
      ∃ t, step s = .next t ∧ t = { s with inputs := rest, ram := t.ram } ∧
        (∀ q, q < 4 → packedAt t (4 * m + q) = v.extractLsb' (8 * q) 8) ∧
        ∀ a, a < 0x80000 + 4 * m ∨ 0x80000 + 4 * m + 4 ≤ a →
          Memory.read t.ram a = Memory.read s.ram a)

/-- 20_memory.md R65: while BUSY = 0 a SHIFT word reads as its four view bytes and a host write there has
no effect (during BUSY it sets PROTO as any write does). -/
def Obligations.ShiftWindowIsReadOnly : Prop :=
  ∀ (s : State) (off : Offset) (view m : Nat) (v : Word) (rest : List HostEvent),
    Config.legalMaxBatch s.maxBatch.toNat = true → view < 8 → m < s.maxBatch.toNat / 32 →
    off.toNat = 0x90000 + 0x2000 * view + 4 * m →
    (s.busy = false → s.inputs = .rd off :: rest →
      step s = .next { s with
        inputs := rest
        reads := (shiftAt s view (4 * m + 3) ++ shiftAt s view (4 * m + 2) ++
          shiftAt s view (4 * m + 1) ++ shiftAt s view (4 * m)) :: s.reads }) ∧
    (s.busy = false → s.inputs = .wr off v :: rest → step s = .next { s with inputs := rest }) ∧
    (s.busy = true → HostMoves s (.wr off v) rest →
      step s = .next { s.afterEvent rest with proto := true })

/-- 20_memory.md R66: a read at a reserved offset returns 0, BUSY or not; a write there while BUSY = 0
has no effect, and during BUSY only sets PROTO; neither stops the machine. -/
def Obligations.ReservedOffsetsReadZero : Prop :=
  ∀ (s : State) (off : Offset) (v : Word) (rest : List HostEvent),
    Inv s → ReservedOffset s.maxBatch.toNat (off.toNat / 4 * 4) →
    (HostMoves s (.rd off) rest →
      step s = .next { s.afterEvent rest with reads := 0#32 :: s.reads }) ∧
    (s.busy = false → s.inputs = .wr off v :: rest → step s = .next { s with inputs := rest }) ∧
    (s.busy = true → HostMoves s (.wr off v) rest →
      step s = .next { s.afterEvent rest with proto := true })

/-- 20_memory.md R67: address bits [1:0] are ignored, in reads and writes, so that every transaction acts
on the aligned word; none is turned away. -/
def Obligations.AddressLowBitsAreIgnored : Prop :=
  ∀ (s : State) (off : Offset) (v : Word) (rest : List HostEvent),
    s.busy = false ∨ s.delay ≠ 0 →
    step { s with inputs := .rd off :: rest } =
        step { s with inputs := .rd (off - off % 4#20) :: rest } ∧
      step { s with inputs := .wr off v :: rest } =
        step { s with inputs := .wr (off - off % 4#20) v :: rest } ∧
      (∃ t, step { s with inputs := .rd off :: rest } = .next t) ∧
      (∃ t, step { s with inputs := .wr off v :: rest } = .next t)

/-- While BUSY = 1: a read of a word the pending command's completion writes, by its row of
10_state.md R47 and the code it ends with, returns some word and changes nothing else of the block; a
read of any other word of the address map returns its current value; STATUS reads its fields
(20_memory.md R72; the reading of "writes" is log entry 8). -/
def Obligations.ReadDuringBusy : Prop :=
  ∀ (s : State) (off : Offset) (rest : List HostEvent),
    Inv s → s.busy = true → HostMoves s (.rd off) rest →
    (CompletionWrites s (off.toNat / 4 * 4) →
      ∃ w, step s = .next { s.afterEvent rest with reads := w :: s.reads, draws := s.draws + 1 }) ∧
    (¬CompletionWrites s (off.toNat / 4 * 4) → ∀ w, MapWord s (off.toNat / 4 * 4) w →
      step s = .next { s.afterEvent rest with reads := w :: s.reads }) ∧
    (∃ w, MapWord s (off.toNat / 4 * 4) w) ∧
    (off.toNat / 4 * 4 = 0x010 →
      step s = .next { s.afterEvent rest with reads := statusWord s :: s.reads })

/-- POLL repeats its read of STATUS, one transaction a step, until the BUSY bit it read is 0
(30_encoding.md R100). -/
def Obligations.PollReadsStatusUntilNotBusy : Prop :=
  ∀ (s : State) (rest : List HostEvent), HostMoves s .poll rest →
    (s.busy = true →
      step s = .next { s with delay := s.delay - 1, reads := statusWord s :: s.reads }) ∧
    (s.busy = false → step s = .next { s with inputs := rest, reads := statusWord s :: s.reads })

/-- EXEC (30_encoding.md R100): from an idle block out of reset, the write of a command's word and the
POLL after it perform the command exactly, however long its completion takes, and the host's last read
is the STATUS it left (46_detector.md R200, R201; the delay is log entry 1). -/
def Obligations.ExecPerformsTheCommand : Prop :=
  ∀ (s : State) (i : Instr) (rest : List HostEvent), i.wf = true → s.busy = false →
    s.resetHeld = false → s.inputs = execEvents i ++ rest →
    ∃ k t u, Host.Core.run Sys2Proof.core k s = .next t ∧
      exec i { s with pend := encode i, busy := true } = .next u ∧
      t = { u with inputs := rest, reads := t.reads, delay := t.delay, draws := t.draws } ∧
      t.reads.head? = some (statusWord t)

/-! ## Configuration -/

/-- 40_config.md R117: with the checks of R111 to R113 passed, CONFIG writes the active configuration and
the two derived values, sets IDLE from any STATE, clears PITCH_VALID, and changes no RAM and no result
register. -/
def Obligations.ConfigAdoptsTheStagedValues : Prop :=
  ∀ s : State, 1 < s.cfgBatch.toNat → s.cfgBatch.toNat % 8 = 0 →
    s.cfgBatch.toNat ≤ s.maxBatch.toNat → 1 < s.cfgRate.toNat →
    s.cfgRate.toNat < s.cfgMaxf.toNat * (s.cfgBatch.toNat / 2) →
    ∃ mf : Bits64,
      mf = (F64.div (F64.ofNat s.cfgRate.toNat) (F64.ofNat (s.cfgBatch.toNat / 2))).bits ∧
      exec .config s = .next { s with
        batch := s.cfgBatch
        rate := s.cfgRate
        maxf := s.cfgMaxf
        minPeriod := BitVec.ofNat 32 (s.cfgRate.toNat / s.cfgMaxf.toNat)
        minFreqLo := mf.extractLsb' 0 32
        minFreqHi := mf.extractLsb' 32 32
        det := .idle
        pitchValid := false
        errCode := .ok
        lastOp := 0x01#8
        busy := false }

/-- 40_config.md R118 with the order of R110 to R113: the first failing check gives the code, and only
ERRCODE and LASTOP are written; the old configuration and STATE stay. -/
def Obligations.ConfigRejectsInOrder : Prop :=
  ErrCode.invalidBatchSize.code = 1#4 ∧ ErrCode.invalidSampleRate.code = 2#4 ∧
    ErrCode.invalidFrequencyRange.code = 3#4 ∧
    ∀ s : State,
      ((s.cfgBatch.toNat ≤ 1 ∨ s.cfgBatch.toNat % 2 ≠ 0 ∨ s.cfgBatch.toNat % 8 ≠ 0 ∨
          s.maxBatch.toNat < s.cfgBatch.toNat) →
        exec .config s =
          .next { s with errCode := .invalidBatchSize, lastOp := 0x01#8, busy := false }) ∧
      (1 < s.cfgBatch.toNat → s.cfgBatch.toNat % 8 = 0 → s.cfgBatch.toNat ≤ s.maxBatch.toNat →
        (s.cfgRate.toNat ≤ 1 →
          exec .config s =
            .next { s with errCode := .invalidSampleRate, lastOp := 0x01#8, busy := false }) ∧
        (1 < s.cfgRate.toNat → s.cfgMaxf.toNat * (s.cfgBatch.toNat / 2) ≤ s.cfgRate.toNat →
          exec .config s =
            .next { s with errCode := .invalidFrequencyRange, lastOp := 0x01#8, busy := false }))

/-- 40_config.md R120: an accepted configuration has `mp ≤ (n div 2) - 1`, with n div 2 at least 4, so the
lag range that HARM searches is never empty; and mp = 0 exactly when f > r (R121). -/
def Obligations.AcceptedMinPeriodIsBelowHalfTheBatch : Prop :=
  ∀ (cap n r f mp : Nat) (mf : F64), validate cap n r f = .ok (mp, mf) →
    mp ≤ n / 2 - 1 ∧ 4 ≤ n / 2 ∧ n ≤ cap ∧ (mp = 0 ↔ r < f)

/-- 46_detector.md R205: SUPPLY on success writes BATCH, MINPERIOD and MINFREQ for the new length, sets
READY and clears PITCH_VALID; on failure it writes only ERRCODE and LASTOP. InvalidSampleRate cannot
occur once CONFIG has accepted the rate. -/
def Obligations.SupplyCommitsTheLength : Prop :=
  ∀ (s : State) (len : Nat), Inv s → s.det ≠ .unconf →
    (1 < len → len % 8 = 0 → len ≤ s.maxBatch.toNat → s.rate.toNat < s.maxf.toNat * (len / 2) →
      ∃ mf : Bits64, mf = (F64.div (F64.ofNat s.rate.toNat) (F64.ofNat (len / 2))).bits ∧
        exec (.supply len) s = .next { s with
          batch := BitVec.ofNat 32 len
          minPeriod := BitVec.ofNat 32 (s.rate.toNat / s.maxf.toNat)
          minFreqLo := mf.extractLsb' 0 32
          minFreqHi := mf.extractLsb' 32 32
          det := .ready
          pitchValid := false
          errCode := .ok
          lastOp := 0x02#8
          busy := false }) ∧
    ((len ≤ 1 ∨ len % 8 ≠ 0 ∨ s.maxBatch.toNat < len) →
      exec (.supply len) s =
        .next { s with errCode := .invalidBatchSize, lastOp := 0x02#8, busy := false }) ∧
    (1 < len → len % 8 = 0 → len ≤ s.maxBatch.toNat → s.maxf.toNat * (len / 2) ≤ s.rate.toNat →
      exec (.supply len) s =
        .next { s with errCode := .invalidFrequencyRange, lastOp := 0x02#8, busy := false }) ∧
    (∀ t, exec (.supply len) s = .next t → t.errCode ≠ .invalidSampleRate)

/-! ## The bitstream stages -/

/-- 41_bitpacker.md R130: signbit is 0 exactly for the patterns of the negative non-zero numbers, and 1
for every other pattern, both zeros and every NaN included. -/
def Obligations.SignBitIsZeroForNegativeNumbers : Prop :=
  ∀ w : Word,
    ((0x80000001 ≤ w.toNat ∧ w.toNat ≤ 0xFF800000) → signBit w = 0#8) ∧
    (¬(0x80000001 ≤ w.toNat ∧ w.toNat ≤ 0xFF800000) → signBit w = 1#8)

/-- 41_bitpacker.md R132 (with PACK's writes, R131): in READY, PACK puts the sign bit of sample 8b + i in
bit 7 - i of PACKED[b], for the first B bytes, and changes nothing else but the outcome. -/
def Obligations.PackStoresTheSignBits : Prop :=
  ∀ s : State, s.det = .ready →
    ∃ t, exec .pack s = .next t ∧
      t = { s with ram := t.ram, errCode := .ok, lastOp := 0x10#8, busy := false } ∧
      (∀ b i, b < s.batch.toNat / 8 → i < 8 →
        ((packedAt t b).getLsbD (7 - i) = false ↔
          (0x80000001 ≤ (sampleAt s (8 * b + i)).toNat ∧
            (sampleAt s (8 * b + i)).toNat ≤ 0xFF800000))) ∧
      ∀ a, a < 0x80000 ∨ 0x80000 + s.batch.toNat / 8 ≤ a →
        Memory.read t.ram a = Memory.read s.ram a

/-- 42_shiftcache.md R140: the shifted array's length, and its value as a big-endian integer. -/
def Obligations.ArrayBitShiftIsABigEndianShift : Prop :=
  ∀ (xs : List Byte) (d : Nat),
    (arrayBitShift xs d).length = xs.length - d / 8 ∧
      bigEndian (arrayBitShift xs d) =
        (bigEndian xs * 2 ^ d) % 2 ^ (8 * xs.length) / 2 ^ (8 * (d / 8))

/-- 42_shiftcache.md R142 (with SHIFT's writes, R141): once configured, SHIFT makes view v the packed
stream advanced by v bits, zeros at its end, and changes nothing else but the outcome. -/
def Obligations.ShiftBuildsTheAdvancedStreams : Prop :=
  ∀ s : State, Inv s → s.det ≠ .unconf →
    ∃ t, exec .shift s = .next t ∧
      t = { s with ram := t.ram, errCode := .ok, lastOp := 0x11#8, busy := false } ∧
      (∀ v k i, v < 8 → k < s.batch.toNat / 8 → i < 8 →
        (shiftAt t v k).getLsbD (7 - i) =
          (decide (8 * k + i + v < s.batch.toNat) && streamBit (packedAt s) (8 * k + i + v))) ∧
      ∀ a, ¬RowByte s.batch.toNat a .shift → Memory.read t.ram a = Memory.read s.ram a

/-- 43_correlation.md R151: once configured, CORR writes to CURVE[i], for every lag i below N2, the sum
over its lanes of the popcounts of PACKED[j] XOR SHIFT[i mod 8][j + i div 8], whatever the views hold,
and changes nothing else but the outcome. -/
def Obligations.CorrSumsThePopcounts : Prop :=
  ∀ s : State, s.det ≠ .unconf →
    ∃ t, exec .corr s = .next t ∧
      t = { s with ram := t.ram, errCode := .ok, lastOp := 0x12#8, busy := false } ∧
      (∀ i, i < s.batch.toNat / 2 →
        curveAt t i = ∑ j ∈ Finset.range (s.batch.toNat / 8 - i / 8),
          popcount8 (packedAt s j ^^^ shiftAt s (i % 8) (j + i / 8))) ∧
      ∀ a, ¬RowByte s.batch.toNat a .corr → Memory.read t.ram a = Memory.read s.ram a

/-- 43_correlation.md R152: where the views are those SHIFT makes of the present PACKED, CURVE[i] counts
the differing bits over the true overlap and the 1 bits that meet the zero fill. -/
def Obligations.CorrClosedForm : Prop :=
  ∀ s : State, Inv s → s.det ≠ .unconf →
    (∀ v k i, v < 8 → k < s.batch.toNat / 8 → i < 8 →
      (shiftAt s v k).getLsbD (7 - i) =
        (decide (8 * k + i + v < s.batch.toNat) && streamBit (packedAt s) (8 * k + i + v))) →
    ∃ t, exec .corr s = .next t ∧
      ∀ i, i < s.batch.toNat / 2 →
        curveAt t i =
          ((Finset.range (s.batch.toNat - i)).filter
            (fun b => streamBit (packedAt s) b ≠ streamBit (packedAt s) (b + i))).card +
          ((Finset.Ico (s.batch.toNat - i) (s.batch.toNat - i + i % 8)).filter
            (fun b => streamBit (packedAt s) b = true)).card

/-! ## The harmonic analyzer -/

/-- 44_harmonic.md R161 and R162: once configured, HARM writes the curve's largest value over the whole
curve, its smallest value from MINPERIOD on, and the smallest index that holds it there; apart from LAG
and the outcome it writes nothing else. -/
def Obligations.HarmFindsTheExtremes : Prop :=
  ∀ s : State, Inv s → s.det ≠ .unconf →
    ∃ t, exec .harm s = .next t ∧
      t = { s with
        globalMax := t.globalMax
        bestValue := t.bestValue
        bestLag := t.bestLag
        lag := t.lag
        errCode := t.errCode
        lastOp := 0x13#8
        busy := false } ∧
      (∀ i, i < s.batch.toNat / 2 → curveAt s i ≤ t.globalMax.toNat) ∧
      (∃ i, i < s.batch.toNat / 2 ∧ curveAt s i = t.globalMax.toNat) ∧
      (∀ i, s.minPeriod.toNat ≤ i → i < s.batch.toNat / 2 → t.bestValue.toNat ≤ curveAt s i) ∧
      s.minPeriod.toNat ≤ t.bestLag.toNat ∧ t.bestLag.toNat < s.batch.toNat / 2 ∧
      curveAt s t.bestLag.toNat = t.bestValue.toNat ∧
      (∀ i, s.minPeriod.toNat ≤ i → i < t.bestLag.toNat → curveAt s i ≠ t.bestValue.toNat)

/-- 44_harmonic.md R165 and R166 (with the test of R164): with MINPERIOD ≥ 1, HARM accepts the largest
division from BEST_LAG div MINPERIOD down whose every index passes, writes BEST_LAG div d to LAG and
completes with code 0. -/
def Obligations.HarmAcceptsTheLargestDivision : Prop :=
  ∀ s : State, Inv s → s.det ≠ .unconf → 1 ≤ s.minPeriod.toNat →
    ∃ t d, exec .harm s = .next t ∧ t.errCode = .ok ∧ t.ram = s.ram ∧
      1 ≤ d ∧ d ≤ t.bestLag.toNat / s.minPeriod.toNat ∧
      (∀ k, 1 ≤ k → k ≤ d - 1 →
        20 * curveAt s (k * t.bestLag.toNat / d) ≤ 3 * t.globalMax.toNat) ∧
      (∀ d', d < d' → d' ≤ t.bestLag.toNat / s.minPeriod.toNat →
        ∃ k, 1 ≤ k ∧ k ≤ d' - 1 ∧
          ¬(20 * curveAt s (k * t.bestLag.toNat / d') ≤ 3 * t.globalMax.toNat)) ∧
      t.lag.toNat = t.bestLag.toNat / d

/-- 44_harmonic.md R163: with MINPERIOD = 0, HARM writes GLOBAL_MAX, BEST_VALUE and BEST_LAG as R161 and
R162 say, leaves LAG unchanged and ends with DegenerateLag, code 5. -/
def Obligations.HarmWithoutMinPeriodIsDegenerate : Prop :=
  ErrCode.degenerateLag.code = 5#4 ∧
    ∀ s : State, Inv s → s.det ≠ .unconf → s.minPeriod.toNat = 0 →
      ∃ t, exec .harm s = .next t ∧
        t = { s with
          globalMax := t.globalMax
          bestValue := t.bestValue
          bestLag := t.bestLag
          errCode := .degenerateLag
          lastOp := 0x13#8
          busy := false } ∧
        (∀ i, i < s.batch.toNat / 2 → curveAt s i ≤ t.globalMax.toNat) ∧
        (∃ i, i < s.batch.toNat / 2 ∧ curveAt s i = t.globalMax.toNat) ∧
        (∀ i, i < s.batch.toNat / 2 → t.bestValue.toNat ≤ curveAt s i) ∧
        t.bestLag.toNat < s.batch.toNat / 2 ∧ curveAt s t.bestLag.toNat = t.bestValue.toNat ∧
        (∀ i, i < t.bestLag.toNat → curveAt s i ≠ t.bestValue.toNat)

/-- 44_harmonic.md R167: with MINPERIOD ≥ 1, maxDiv is at least 1 and HARM succeeds; every index it
checks lies below BEST_LAG, inside the curve; MINPERIOD ≤ LAG ≤ BEST_LAG ≤ N2 - 1; and the products
stay below 2^37. -/
def Obligations.HarmStaysInsideTheCurve : Prop :=
  ∀ (s t : State), Inv s → s.det ≠ .unconf → 1 ≤ s.minPeriod.toNat → exec .harm s = .next t →
    t.errCode = .ok ∧ 1 ≤ t.bestLag.toNat / s.minPeriod.toNat ∧
      s.minPeriod.toNat ≤ t.lag.toNat ∧ t.lag.toNat ≤ t.bestLag.toNat ∧
      t.bestLag.toNat ≤ s.batch.toNat / 2 - 1 ∧ 3 * t.globalMax.toNat < 2 ^ 37 ∧
      ∀ d k, 1 ≤ d → d ≤ t.bestLag.toNat / s.minPeriod.toNat → 1 ≤ k → k ≤ d - 1 →
        k * t.bestLag.toNat / d < t.bestLag.toNat ∧ k * t.bestLag.toNat < 2 ^ 37 ∧
          20 * curveAt s (k * t.bestLag.toNat / d) < 2 ^ 37

/-- The equivalence in 44_harmonic.md R164: the integer test agrees, for every 32-bit g and every 32-bit
curve value, with the binary64 evaluation `toF64(c) ≤ fmul(0.15, toF64(g))`, where 0.15 is the binary64
value 5404319552844595 * 2^(-55). -/
def Obligations.ThresholdAgreesWithBinary64 : Prop :=
  (F64.fin false (5404319552844595 * 2 ^ 1019)).bits = 0x3FC3333333333333#64 ∧
    ∀ c g : Nat, c < 2 ^ 32 → g < 2 ^ 32 →
      decide (20 * c ≤ 3 * g) =
        F64.le (F64.ofNat c) (F64.mul (F64.fin false (5404319552844595 * 2 ^ 1019)) (F64.ofNat g))

/-! ## The pitch refiner -/

/-- 00_scope.md R14 as the model computes it (its reading of IEEE 754 is log entry 19): `fadd`, `fsub`,
`fmul` and `fdiv` of finite values deliver the exact sum, difference, product or quotient correctly rounded,
and a zero sum its sign; `fneg` flips the sign; the comparisons compare the values; `toF64` of a finite
binary32 pattern and of an integer below 2^53 is exact. Values are in units of 2^(-1074);
Binary64LayoutHoldsTheValue ties units to patterns. -/
def Obligations.RoundingIsToNearestEven : Prop :=
  (∀ (neg : Bool) (p q : Nat), 0 < q → RoundsTo neg p q (roundUnits neg p q)) ∧
  (∀ (s t : Bool) (u v : Nat) (x y : Int),
    x = (if s then -(u : Int) else u) → y = (if t then -(v : Int) else v) →
    (x + y ≠ 0 → RoundsTo (decide (x + y < 0)) (x + y).natAbs 1 (F64.add (.fin s u) (.fin t v))) ∧
    (x + y = 0 → F64.add (.fin s u) (.fin t v) = .fin (s && t) 0) ∧
    (x - y ≠ 0 → RoundsTo (decide (x - y < 0)) (x - y).natAbs 1 (F64.sub (.fin s u) (.fin t v))) ∧
    (x - y = 0 → F64.sub (.fin s u) (.fin t v) = .fin (s && !t) 0) ∧
    RoundsTo (s != t) (u * v) (2 ^ 1074) (F64.mul (.fin s u) (.fin t v)) ∧
    (0 < v → RoundsTo (s != t) (u * 2 ^ 1074) v (F64.div (.fin s u) (.fin t v))) ∧
    F64.neg (.fin s u) = .fin (!s) u ∧
    (F64.lt (.fin s u) (.fin t v) = true ↔ x < y) ∧ (F64.le (.fin s u) (.fin t v) = true ↔ x ≤ y)) ∧
  (∀ (w : Word) (e f : Nat), e = w.toNat / 2 ^ 23 % 256 → f = w.toNat % 2 ^ 23 → e ≠ 255 →
    ∃ u, F64.ofF32 w = .fin (w.toNat / 2 ^ 31 == 1) u ∧ Representable u ∧
      u = (if e = 0 then f else 2 ^ 23 + f) * 2 ^ (925 + (e - 1))) ∧
  (∀ n : Nat, n < 2 ^ 53 →
    F64.ofNat n = .fin false (n * 2 ^ 1074) ∧ Representable (n * 2 ^ 1074))

/-- The pattern of a finite value, by the binary64 layout: sign, exponent and fraction give the value
back; a NaN's pattern is a NaN's, whatever the free bits (00_scope.md R14, log entries 10 and 19). -/
def Obligations.Binary64LayoutHoldsTheValue : Prop :=
  (∀ (neg : Bool) (u : Nat), Representable u →
    (F64.fin neg u).bits.msb = neg ∧
      u = (if (F64.fin neg u).bits.toNat / 2 ^ 52 % 2 ^ 11 = 0
        then (F64.fin neg u).bits.toNat % 2 ^ 52
        else (2 ^ 52 + (F64.fin neg u).bits.toNat % 2 ^ 52) *
          2 ^ ((F64.fin neg u).bits.toNat / 2 ^ 52 % 2 ^ 11 - 1))) ∧
    ∀ p : Bits64, (F64.nan p).bits.toNat / 2 ^ 52 % 2 ^ 11 = 2047 ∧
      (F64.nan p).bits.toNat % 2 ^ 52 ≠ 0

/-- 45_pitch.md R185: the formula of Interp(j); under Cross(j) its denominator is above 0, and Interp(j)
lies in [-0, 1], or is a NaN when s[j-1] is -infinity; it is -0 when s[j-1] = +0. -/
def Obligations.InterpolationStaysInTheUnitInterval : Prop :=
  ∀ (s : State) (j : Nat), CrossAt s j →
    interpolate (sampleAt s) j = F64.div (F64.neg (F64.ofF32 (sampleAt s (j - 1))))
      (F64.sub (F64.ofF32 (sampleAt s j)) (F64.ofF32 (sampleAt s (j - 1)))) ∧
    F64.lt (F64.fin false 0) (F64.sub (F64.ofF32 (sampleAt s j)) (F64.ofF32 (sampleAt s (j - 1)))) = true ∧
    (sampleAt s (j - 1) = 0xFF800000#32 → ∃ p, interpolate (sampleAt s) j = .nan p) ∧
    (sampleAt s (j - 1) ≠ 0xFF800000#32 →
      ∃ neg u, interpolate (sampleAt s) j = .fin neg u ∧ u ≤ 2 ^ 1074 ∧ (neg = true → u = 0)) ∧
    (sampleAt s (j - 1) = 0#32 → interpolate (sampleAt s) j = .fin true 0)

/-- 45_pitch.md R182 to R188 on success: in READY, with the two edges found and lagSamples above 0, PITCH
writes both edges, LAGSAMP, the pitch fdiv(toF64(RATE), lagSamples) and PITCH_VALID = 1, and nothing
else but the outcome. -/
def Obligations.PitchRefinesBetweenTheEdges : Prop :=
  ∀ (s : State) (se ne j0 : Nat) (x1 x2 ls : F64), s.det = .ready →
    FirstEdge s 1 se → SecondStart s j0 → FirstEdge s j0 ne →
    x1 = F64.div (F64.neg (F64.ofF32 (sampleAt s (se - 1))))
      (F64.sub (F64.ofF32 (sampleAt s se)) (F64.ofF32 (sampleAt s (se - 1)))) →
    x2 = F64.div (F64.neg (F64.ofF32 (sampleAt s (ne - 1))))
      (F64.sub (F64.ofF32 (sampleAt s ne)) (F64.ofF32 (sampleAt s (ne - 1)))) →
    ls = F64.add (F64.ofNat (ne - se)) (F64.sub x2 x1) →
    F64.lt (F64.fin false 0) ls = true →
    exec .pitch s = .next { s with
      startEdge := BitVec.ofNat 32 se
      nextEdge := BitVec.ofNat 32 ne
      lagSampLo := ls.bits.extractLsb' 0 32
      lagSampHi := ls.bits.extractLsb' 32 32
      pitchLo := (F64.div (F64.ofNat s.rate.toNat) ls).bits.extractLsb' 0 32
      pitchHi := (F64.div (F64.ofNat s.rate.toNat) ls).bits.extractLsb' 32 32
      pitchValid := true
      errCode := .ok
      lastOp := 0x14#8
      busy := false }

/-- PITCH's failures (45_pitch.md R180, R182, R184, R187; 10_state.md R38): without a start edge, or
without a next edge, NoPositiveSample; with lagSamples not above 0, DegenerateLag with LAGSAMP
written. Each clears PITCH_VALID and keeps PITCH. -/
def Obligations.PitchFailuresKeepThePitch : Prop :=
  ErrCode.noPositiveSample.code = 4#4 ∧
    ∀ (s : State), s.det = .ready →
      (NoEdge s 1 → exec .pitch s = .next { s with
        pitchValid := false, errCode := .noPositiveSample, lastOp := 0x14#8, busy := false }) ∧
      (∀ se j0, FirstEdge s 1 se → SecondStart s j0 →
        (NoEdge s j0 → exec .pitch s = .next { s with
          startEdge := BitVec.ofNat 32 se
          pitchValid := false
          errCode := .noPositiveSample
          lastOp := 0x14#8
          busy := false }) ∧
        (∀ ne ls, FirstEdge s j0 ne → ls = lagSamples (sampleAt s) se ne →
          F64.lt (F64.fin false 0) ls = false → exec .pitch s = .next { s with
            startEdge := BitVec.ofNat 32 se
            nextEdge := BitVec.ofNat 32 ne
            lagSampLo := ls.bits.extractLsb' 0 32
            lagSampHi := ls.bits.extractLsb' 32 32
            pitchValid := false
            errCode := .degenerateLag
            lastOp := 0x14#8
            busy := false }))

/-- 45_pitch.md R187: PITCH, once it has both edges, ends with DegenerateLag exactly when lagSamples is
not above 0, in exactly two cases: equal edges (then it is 0) or a -infinity before one of the edges
(then it is a NaN). Otherwise the edges are at least 2 apart and lagSamples is at least 1. -/
def Obligations.LagSamplesIsDegenerateInTwoCases : Prop :=
  ∀ (s : State) (se ne j0 : Nat), s.batch.toNat ≤ 65536 →
    FirstEdge s 1 se → SecondStart s j0 → FirstEdge s j0 ne →
    (s.det = .ready → ∃ t, exec .pitch s = .next t ∧
      (t.errCode = .degenerateLag ↔ F64.lt (F64.fin false 0) (lagSamples (sampleAt s) se ne) = false) ∧
      (t.errCode = .degenerateLag ↔
        (ne = se ∨ sampleAt s (se - 1) = 0xFF800000#32 ∨ sampleAt s (ne - 1) = 0xFF800000#32))) ∧
    ((sampleAt s (se - 1) = 0xFF800000#32 ∨ sampleAt s (ne - 1) = 0xFF800000#32) →
      ∃ p, lagSamples (sampleAt s) se ne = .nan p) ∧
    ((sampleAt s (se - 1) ≠ 0xFF800000#32 ∧ sampleAt s (ne - 1) ≠ 0xFF800000#32) →
      (ne = se → lagSamples (sampleAt s) se ne = .fin false 0) ∧
      (ne ≠ se → se + 2 ≤ ne ∧
        ∃ u, lagSamples (sampleAt s) se ne = .fin false u ∧ 2 ^ 1074 ≤ u))

/-- 45_pitch.md R188: when PITCH succeeds the pitch is finite, positive and at most RATE, PITCH_HI:PITCH_LO
hold it and PITCH_VALID = 1. -/
def Obligations.PitchIsFiniteAndAtMostTheRate : Prop :=
  ∀ s t : State, Inv s → exec .pitch s = .next t → t.errCode = .ok →
    t.pitchValid = true ∧
      ∃ (ls : F64) (u : Nat), t.lagSampHi ++ t.lagSampLo = ls.bits ∧
        F64.le (F64.ofNat 1) ls = true ∧
        F64.div (F64.ofNat s.rate.toNat) ls = .fin false u ∧ 0 < u ∧
        u ≤ s.rate.toNat * 2 ^ 1074 ∧ t.pitchHi ++ t.pitchLo = (F64.fin false u).bits

/-- PITCH is idempotent: repeated with nothing between, it writes the same values, the bit pattern of a
NaN lagSamples included (45_pitch.md R189; that a NaN's pattern depends on the operands alone is log
entry 10). -/
def Obligations.PitchIsIdempotent : Prop :=
  ∀ s t : State, exec .pitch s = .next t → exec .pitch t = .next t

/-! ## RUN -/

/-- RUN is its stage commands in order (46_detector.md R207, R208, R209): it leaves the state they leave
but for LASTOP; when HARM fails it stops there with HARM's code and PITCH_VALID = 0. -/
def Obligations.RunIsTheStageSequence : Prop :=
  ∀ s : State, s.det = .ready →
    ∃ s1 s2 s3 s4, exec .pack s = .next s1 ∧ exec .shift s1 = .next s2 ∧ exec .corr s2 = .next s3 ∧
      exec .harm s3 = .next s4 ∧
      (s4.errCode = .ok →
        ∃ s5, exec .pitch s4 = .next s5 ∧ exec .run s = .next { s5 with lastOp := 0x03#8 }) ∧
      (s4.errCode ≠ .ok → exec .run s = .next { s4 with lastOp := 0x03#8, pitchValid := false })

/-- The pipeline as one function of the samples (46_detector.md R206, R207): in READY with MINPERIOD ≥ 1,
RUN leaves in PACKED the sign bits, in SHIFT their views, in CURVE the correlation, and in the result
registers what the analyzer makes of that curve and the refiner of that lag; no register but these and
the outcome changes, and no RAM byte outside its row of 10_state.md R47. -/
def Obligations.RunComputesThePipeline : Prop :=
  ∀ (s : State) (packed : List Byte) (curve : Nat → Nat) (h : HarmResult) (lag se ne : Nat)
    (ls p : F64), Inv s → s.det = .ready → 1 ≤ s.minPeriod.toNat →
    packed = packSigns (sampleAt s) (s.batch.toNat / 8) →
    curve = correlateLag packed (arrayBitShift packed) →
    h = analyzeCurve curve (s.batch.toNat / 2) s.minPeriod.toNat → h.corrected = some lag →
    refinePitch (sampleAt s) s.batch.toNat lag s.rate.toNat = .found se ne ls p →
    ∃ t, exec .run s = .next t ∧
      t = { s with
        ram := t.ram
        globalMax := BitVec.ofNat 32 h.globalMax
        bestValue := BitVec.ofNat 32 h.bestValue
        bestLag := BitVec.ofNat 32 h.bestLag
        lag := BitVec.ofNat 32 lag
        startEdge := BitVec.ofNat 32 se
        nextEdge := BitVec.ofNat 32 ne
        lagSampLo := ls.bits.extractLsb' 0 32
        lagSampHi := ls.bits.extractLsb' 32 32
        pitchLo := p.bits.extractLsb' 0 32
        pitchHi := p.bits.extractLsb' 32 32
        pitchValid := true
        errCode := .ok
        lastOp := 0x03#8
        busy := false } ∧
      packedBytes t (s.batch.toNat / 8) = packed ∧
      (∀ v, v < 8 → viewBytes t (s.batch.toNat / 8) v = arrayBitShift packed v) ∧
      (∀ i, i < s.batch.toNat / 2 → curveAt t i = curve i) ∧
      ∀ a, ¬RowByte s.batch.toNat a .run → Memory.read t.ram a = Memory.read s.ram a

/-- Two RUNs with nothing between them write identical values: the second changes nothing at all
(46_detector.md R209, R206; of a NaN's pattern, log entry 10). -/
def Obligations.RunIsIdempotent : Prop :=
  ∀ s t : State, Inv s → exec .run s = .next t → exec .run t = .next t

/-! ## Whole-machine rules -/

/-- Each command writes only what its row of 10_state.md R47 names (and BUSY): registers by equality of
all the others, RAM by every byte outside its row; on NotReady only ERRCODE and LASTOP. That SRESET keeps
the hidden PEND is log entry 20, not R47; the model's own fields are log entries 1, 2 and 13. -/
def Obligations.CommandsWriteOnlyTheirRow : Prop :=
  ∀ (i : Instr) (s t : State), Inv s → exec i s = .next t →
    (∀ a, ¬RowByte s.batch.toNat a i → Memory.read t.ram a = Memory.read s.ram a) ∧
    (t.errCode = .notReady → t = { s with errCode := .notReady, lastOp := opcode i, busy := false }) ∧
    match i with
    | .nop => t = { s with errCode := .ok, lastOp := opcode i, busy := false }
    | .clear => t = { s with proto := false, errCode := .ok, lastOp := opcode i, busy := false }
    | .config =>
      t = { s with
        batch := t.batch, rate := t.rate, maxf := t.maxf, minPeriod := t.minPeriod
        minFreqLo := t.minFreqLo, minFreqHi := t.minFreqHi, det := t.det, pitchValid := t.pitchValid
        errCode := t.errCode, lastOp := opcode i, busy := false } ∧
      (t.errCode ≠ .ok → t = { s with errCode := t.errCode, lastOp := opcode i, busy := false })
    | .supply _ =>
      t = { s with
        batch := t.batch, minPeriod := t.minPeriod, minFreqLo := t.minFreqLo, minFreqHi := t.minFreqHi
        det := t.det, pitchValid := t.pitchValid
        errCode := t.errCode, lastOp := opcode i, busy := false } ∧
      (t.errCode ≠ .ok → t = { s with errCode := t.errCode, lastOp := opcode i, busy := false })
    | .sreset =>
      t.ram = s.ram ∧ t.maxBatch = s.maxBatch ∧ t.pend = s.pend ∧ t.resetHeld = s.resetHeld ∧
        t.inputs = s.inputs ∧ t.reads = s.reads ∧ t.delay = s.delay ∧ t.draws = s.draws
    | .pack | .shift | .corr =>
      t = { s with ram := t.ram, errCode := t.errCode, lastOp := opcode i, busy := false }
    | .harm =>
      t = { s with
        globalMax := t.globalMax, bestValue := t.bestValue, bestLag := t.bestLag, lag := t.lag
        errCode := t.errCode, lastOp := opcode i, busy := false } ∧
      (t.errCode = .degenerateLag → t.lag = s.lag)
    | .pitch =>
      t = { s with
        startEdge := t.startEdge, nextEdge := t.nextEdge, lagSampLo := t.lagSampLo
        lagSampHi := t.lagSampHi, pitchLo := t.pitchLo, pitchHi := t.pitchHi
        pitchValid := t.pitchValid, errCode := t.errCode, lastOp := opcode i, busy := false } ∧
      (t.errCode ≠ .ok → t.pitchLo = s.pitchLo ∧ t.pitchHi = s.pitchHi)
    | .run =>
      t = { s with
        ram := t.ram, globalMax := t.globalMax, bestValue := t.bestValue, bestLag := t.bestLag
        lag := t.lag, startEdge := t.startEdge, nextEdge := t.nextEdge, lagSampLo := t.lagSampLo
        lagSampHi := t.lagSampHi, pitchLo := t.pitchLo, pitchHi := t.pitchHi
        pitchValid := t.pitchValid, errCode := t.errCode, lastOp := opcode i, busy := false } ∧
      (t.errCode ≠ .ok → t.pitchLo = s.pitchLo ∧ t.pitchHi = s.pitchHi)

/-- 46_detector.md R213: the state machine. -/
def Obligations.StateMachineFollowsTheTable : Prop :=
  (∀ (i : Instr) (s t : State), exec i s = .next t →
    match i with
    | .config => (t.errCode = .ok → t.det = .idle) ∧ (t.errCode ≠ .ok → t.det = s.det)
    | .supply _ =>
      (s.det = .unconf → t.errCode = .notReady ∧ t.det = .unconf) ∧
      (s.det ≠ .unconf → (t.errCode = .ok → t.det = .ready) ∧ (t.errCode ≠ .ok → t.det = s.det))
    | .run | .pack | .pitch => t.det = s.det ∧ (s.det ≠ .ready → t.errCode = .notReady)
    | .shift | .corr | .harm => t.det = s.det ∧ (s.det = .unconf → t.errCode = .notReady)
    | .nop | .clear => t.det = s.det
    | .sreset => t.det = .unconf) ∧
  (∀ s t : State, (decode s.pend).toOption = none → CompletesNow s → step s = .next t →
    t.det = s.det)

/-- The codes each command can end with (60_exceptions.md R230). -/
def Obligations.OutcomeCodesByCommand : Prop :=
  ∀ (i : Instr) (s t : State), Inv s → exec i s = .next t →
    match i with
    | .nop | .clear | .sreset => t.errCode = .ok
    | .config =>
      t.errCode ∈ [ErrCode.ok, .invalidBatchSize, .invalidSampleRate, .invalidFrequencyRange]
    | .supply _ => t.errCode ∈ [ErrCode.ok, .invalidBatchSize, .invalidFrequencyRange, .notReady]
    | .pack | .shift | .corr => t.errCode ∈ [ErrCode.ok, .notReady]
    | .harm => t.errCode ∈ [ErrCode.ok, .degenerateLag, .notReady]
    | .pitch | .run => t.errCode ∈ [ErrCode.ok, .noPositiveSample, .degenerateLag, .notReady]

/-- After any error the block has the same STATE as before, and SAMPLE, the active and the staged
configuration are unchanged (60_exceptions.md R232). -/
def Obligations.ErrorsLeaveTheBlockUsable : Prop :=
  ∀ (i : Instr) (s t : State), Inv s → exec i s = .next t → t.errCode ≠ .ok →
    t.busy = false ∧ t.det = s.det ∧ t.cfgBatch = s.cfgBatch ∧ t.cfgRate = s.cfgRate ∧
      t.cfgMaxf = s.cfgMaxf ∧ t.batch = s.batch ∧ t.rate = s.rate ∧ t.maxf = s.maxf ∧
      t.minPeriod = s.minPeriod ∧ t.minFreqLo = s.minFreqLo ∧ t.minFreqHi = s.minFreqHi ∧
      ∀ k, k < s.maxBatch.toNat → sampleAt t k = sampleAt s k

/-- Every step keeps the invariant: a legal constant capacity, RAM in canonical form inside its windows,
the configuration registers as 10_state.md R30 to R33 say while STATE ≠ UNCONF and at their reset values
in UNCONF, PITCH_VALID only in READY with PITCH the quotient of RATE by a positive LAGSAMP, every
register at its reset value while reset is asserted. -/
def Obligations.EveryStepKeepsTheInvariant : Prop :=
  ∀ s t : State, Inv s → step s = .next t → Inv t

/-- The invariant holds right after power-on, for every legal capacity, and so at State.reset. -/
def Obligations.InvariantHoldsAfterReset : Prop :=
  Inv State.reset ∧
    ∀ cap : Word, Config.legalMaxBatch cap.toNat = true → Inv (State.powerOn cap)
end

