-- ==== Sys2Proof/Laws/State.lean ====
section
/-! SUPPORT. What each named update of State does to each field, by rfl, so that no proof unfolds a record
update. -/

namespace Sys2Proof.Machine

section

variable (s : State)

/-! setRam -/

@[simp] theorem State.setRam_maxBatch (m : Memory) : (s.setRam m).maxBatch = s.maxBatch := rfl
@[simp] theorem State.setRam_cfgBatch (m : Memory) : (s.setRam m).cfgBatch = s.cfgBatch := rfl
@[simp] theorem State.setRam_cfgRate (m : Memory) : (s.setRam m).cfgRate = s.cfgRate := rfl
@[simp] theorem State.setRam_cfgMaxf (m : Memory) : (s.setRam m).cfgMaxf = s.cfgMaxf := rfl
@[simp] theorem State.setRam_batch (m : Memory) : (s.setRam m).batch = s.batch := rfl
@[simp] theorem State.setRam_rate (m : Memory) : (s.setRam m).rate = s.rate := rfl
@[simp] theorem State.setRam_maxf (m : Memory) : (s.setRam m).maxf = s.maxf := rfl
@[simp] theorem State.setRam_minPeriod (m : Memory) : (s.setRam m).minPeriod = s.minPeriod := rfl
@[simp] theorem State.setRam_minFreqLo (m : Memory) : (s.setRam m).minFreqLo = s.minFreqLo := rfl
@[simp] theorem State.setRam_minFreqHi (m : Memory) : (s.setRam m).minFreqHi = s.minFreqHi := rfl
@[simp] theorem State.setRam_globalMax (m : Memory) : (s.setRam m).globalMax = s.globalMax := rfl
@[simp] theorem State.setRam_bestValue (m : Memory) : (s.setRam m).bestValue = s.bestValue := rfl
@[simp] theorem State.setRam_bestLag (m : Memory) : (s.setRam m).bestLag = s.bestLag := rfl
@[simp] theorem State.setRam_lag (m : Memory) : (s.setRam m).lag = s.lag := rfl
@[simp] theorem State.setRam_startEdge (m : Memory) : (s.setRam m).startEdge = s.startEdge := rfl
@[simp] theorem State.setRam_nextEdge (m : Memory) : (s.setRam m).nextEdge = s.nextEdge := rfl
@[simp] theorem State.setRam_lagSampLo (m : Memory) : (s.setRam m).lagSampLo = s.lagSampLo := rfl
@[simp] theorem State.setRam_lagSampHi (m : Memory) : (s.setRam m).lagSampHi = s.lagSampHi := rfl
@[simp] theorem State.setRam_pitchLo (m : Memory) : (s.setRam m).pitchLo = s.pitchLo := rfl
@[simp] theorem State.setRam_pitchHi (m : Memory) : (s.setRam m).pitchHi = s.pitchHi := rfl
@[simp] theorem State.setRam_busy (m : Memory) : (s.setRam m).busy = s.busy := rfl
@[simp] theorem State.setRam_det (m : Memory) : (s.setRam m).det = s.det := rfl
@[simp] theorem State.setRam_pitchValid (m : Memory) : (s.setRam m).pitchValid = s.pitchValid := rfl
@[simp] theorem State.setRam_proto (m : Memory) : (s.setRam m).proto = s.proto := rfl
@[simp] theorem State.setRam_errCode (m : Memory) : (s.setRam m).errCode = s.errCode := rfl
@[simp] theorem State.setRam_lastOp (m : Memory) : (s.setRam m).lastOp = s.lastOp := rfl
@[simp] theorem State.setRam_resetHeld (m : Memory) : (s.setRam m).resetHeld = s.resetHeld := rfl
@[simp] theorem State.setRam_pend (m : Memory) : (s.setRam m).pend = s.pend := rfl
@[simp] theorem State.setRam_ram (m : Memory) : (s.setRam m).ram = m := rfl
@[simp] theorem State.setRam_inputs (m : Memory) : (s.setRam m).inputs = s.inputs := rfl
@[simp] theorem State.setRam_reads (m : Memory) : (s.setRam m).reads = s.reads := rfl
@[simp] theorem State.setRam_delay (m : Memory) : (s.setRam m).delay = s.delay := rfl
@[simp] theorem State.setRam_draws (m : Memory) : (s.setRam m).draws = s.draws := rfl

/-! setPitchValid -/

@[simp] theorem State.setPitchValid_maxBatch (b : Bool) : (s.setPitchValid b).maxBatch = s.maxBatch := rfl
@[simp] theorem State.setPitchValid_cfgBatch (b : Bool) : (s.setPitchValid b).cfgBatch = s.cfgBatch := rfl
@[simp] theorem State.setPitchValid_cfgRate (b : Bool) : (s.setPitchValid b).cfgRate = s.cfgRate := rfl
@[simp] theorem State.setPitchValid_cfgMaxf (b : Bool) : (s.setPitchValid b).cfgMaxf = s.cfgMaxf := rfl
@[simp] theorem State.setPitchValid_batch (b : Bool) : (s.setPitchValid b).batch = s.batch := rfl
@[simp] theorem State.setPitchValid_rate (b : Bool) : (s.setPitchValid b).rate = s.rate := rfl
@[simp] theorem State.setPitchValid_maxf (b : Bool) : (s.setPitchValid b).maxf = s.maxf := rfl
@[simp] theorem State.setPitchValid_minPeriod (b : Bool) : (s.setPitchValid b).minPeriod = s.minPeriod := rfl
@[simp] theorem State.setPitchValid_minFreqLo (b : Bool) : (s.setPitchValid b).minFreqLo = s.minFreqLo := rfl
@[simp] theorem State.setPitchValid_minFreqHi (b : Bool) : (s.setPitchValid b).minFreqHi = s.minFreqHi := rfl
@[simp] theorem State.setPitchValid_globalMax (b : Bool) : (s.setPitchValid b).globalMax = s.globalMax := rfl
@[simp] theorem State.setPitchValid_bestValue (b : Bool) : (s.setPitchValid b).bestValue = s.bestValue := rfl
@[simp] theorem State.setPitchValid_bestLag (b : Bool) : (s.setPitchValid b).bestLag = s.bestLag := rfl
@[simp] theorem State.setPitchValid_lag (b : Bool) : (s.setPitchValid b).lag = s.lag := rfl
@[simp] theorem State.setPitchValid_startEdge (b : Bool) : (s.setPitchValid b).startEdge = s.startEdge := rfl
@[simp] theorem State.setPitchValid_nextEdge (b : Bool) : (s.setPitchValid b).nextEdge = s.nextEdge := rfl
@[simp] theorem State.setPitchValid_lagSampLo (b : Bool) : (s.setPitchValid b).lagSampLo = s.lagSampLo := rfl
@[simp] theorem State.setPitchValid_lagSampHi (b : Bool) : (s.setPitchValid b).lagSampHi = s.lagSampHi := rfl
@[simp] theorem State.setPitchValid_pitchLo (b : Bool) : (s.setPitchValid b).pitchLo = s.pitchLo := rfl
@[simp] theorem State.setPitchValid_pitchHi (b : Bool) : (s.setPitchValid b).pitchHi = s.pitchHi := rfl
@[simp] theorem State.setPitchValid_busy (b : Bool) : (s.setPitchValid b).busy = s.busy := rfl
@[simp] theorem State.setPitchValid_det (b : Bool) : (s.setPitchValid b).det = s.det := rfl
@[simp] theorem State.setPitchValid_pitchValid (b : Bool) : (s.setPitchValid b).pitchValid = b := rfl
@[simp] theorem State.setPitchValid_proto (b : Bool) : (s.setPitchValid b).proto = s.proto := rfl
@[simp] theorem State.setPitchValid_errCode (b : Bool) : (s.setPitchValid b).errCode = s.errCode := rfl
@[simp] theorem State.setPitchValid_lastOp (b : Bool) : (s.setPitchValid b).lastOp = s.lastOp := rfl
@[simp] theorem State.setPitchValid_resetHeld (b : Bool) : (s.setPitchValid b).resetHeld = s.resetHeld := rfl
@[simp] theorem State.setPitchValid_pend (b : Bool) : (s.setPitchValid b).pend = s.pend := rfl
@[simp] theorem State.setPitchValid_ram (b : Bool) : (s.setPitchValid b).ram = s.ram := rfl
@[simp] theorem State.setPitchValid_inputs (b : Bool) : (s.setPitchValid b).inputs = s.inputs := rfl
@[simp] theorem State.setPitchValid_reads (b : Bool) : (s.setPitchValid b).reads = s.reads := rfl
@[simp] theorem State.setPitchValid_delay (b : Bool) : (s.setPitchValid b).delay = s.delay := rfl
@[simp] theorem State.setPitchValid_draws (b : Bool) : (s.setPitchValid b).draws = s.draws := rfl

/-! setProto -/

@[simp] theorem State.setProto_maxBatch (b : Bool) : (s.setProto b).maxBatch = s.maxBatch := rfl
@[simp] theorem State.setProto_cfgBatch (b : Bool) : (s.setProto b).cfgBatch = s.cfgBatch := rfl
@[simp] theorem State.setProto_cfgRate (b : Bool) : (s.setProto b).cfgRate = s.cfgRate := rfl
@[simp] theorem State.setProto_cfgMaxf (b : Bool) : (s.setProto b).cfgMaxf = s.cfgMaxf := rfl
@[simp] theorem State.setProto_batch (b : Bool) : (s.setProto b).batch = s.batch := rfl
@[simp] theorem State.setProto_rate (b : Bool) : (s.setProto b).rate = s.rate := rfl
@[simp] theorem State.setProto_maxf (b : Bool) : (s.setProto b).maxf = s.maxf := rfl
@[simp] theorem State.setProto_minPeriod (b : Bool) : (s.setProto b).minPeriod = s.minPeriod := rfl
@[simp] theorem State.setProto_minFreqLo (b : Bool) : (s.setProto b).minFreqLo = s.minFreqLo := rfl
@[simp] theorem State.setProto_minFreqHi (b : Bool) : (s.setProto b).minFreqHi = s.minFreqHi := rfl
@[simp] theorem State.setProto_globalMax (b : Bool) : (s.setProto b).globalMax = s.globalMax := rfl
@[simp] theorem State.setProto_bestValue (b : Bool) : (s.setProto b).bestValue = s.bestValue := rfl
@[simp] theorem State.setProto_bestLag (b : Bool) : (s.setProto b).bestLag = s.bestLag := rfl
@[simp] theorem State.setProto_lag (b : Bool) : (s.setProto b).lag = s.lag := rfl
@[simp] theorem State.setProto_startEdge (b : Bool) : (s.setProto b).startEdge = s.startEdge := rfl
@[simp] theorem State.setProto_nextEdge (b : Bool) : (s.setProto b).nextEdge = s.nextEdge := rfl
@[simp] theorem State.setProto_lagSampLo (b : Bool) : (s.setProto b).lagSampLo = s.lagSampLo := rfl
@[simp] theorem State.setProto_lagSampHi (b : Bool) : (s.setProto b).lagSampHi = s.lagSampHi := rfl
@[simp] theorem State.setProto_pitchLo (b : Bool) : (s.setProto b).pitchLo = s.pitchLo := rfl
@[simp] theorem State.setProto_pitchHi (b : Bool) : (s.setProto b).pitchHi = s.pitchHi := rfl
@[simp] theorem State.setProto_busy (b : Bool) : (s.setProto b).busy = s.busy := rfl
@[simp] theorem State.setProto_det (b : Bool) : (s.setProto b).det = s.det := rfl
@[simp] theorem State.setProto_pitchValid (b : Bool) : (s.setProto b).pitchValid = s.pitchValid := rfl
@[simp] theorem State.setProto_proto (b : Bool) : (s.setProto b).proto = b := rfl
@[simp] theorem State.setProto_errCode (b : Bool) : (s.setProto b).errCode = s.errCode := rfl
@[simp] theorem State.setProto_lastOp (b : Bool) : (s.setProto b).lastOp = s.lastOp := rfl
@[simp] theorem State.setProto_resetHeld (b : Bool) : (s.setProto b).resetHeld = s.resetHeld := rfl
@[simp] theorem State.setProto_pend (b : Bool) : (s.setProto b).pend = s.pend := rfl
@[simp] theorem State.setProto_ram (b : Bool) : (s.setProto b).ram = s.ram := rfl
@[simp] theorem State.setProto_inputs (b : Bool) : (s.setProto b).inputs = s.inputs := rfl
@[simp] theorem State.setProto_reads (b : Bool) : (s.setProto b).reads = s.reads := rfl
@[simp] theorem State.setProto_delay (b : Bool) : (s.setProto b).delay = s.delay := rfl
@[simp] theorem State.setProto_draws (b : Bool) : (s.setProto b).draws = s.draws := rfl

/-! adoptLength -/

@[simp] theorem State.adoptLength_maxBatch (n mp : Nat) (mf : F64) : (s.adoptLength n mp mf).maxBatch = s.maxBatch := rfl
@[simp] theorem State.adoptLength_cfgBatch (n mp : Nat) (mf : F64) : (s.adoptLength n mp mf).cfgBatch = s.cfgBatch := rfl
@[simp] theorem State.adoptLength_cfgRate (n mp : Nat) (mf : F64) : (s.adoptLength n mp mf).cfgRate = s.cfgRate := rfl
@[simp] theorem State.adoptLength_cfgMaxf (n mp : Nat) (mf : F64) : (s.adoptLength n mp mf).cfgMaxf = s.cfgMaxf := rfl
@[simp] theorem State.adoptLength_batch (n mp : Nat) (mf : F64) : (s.adoptLength n mp mf).batch = BitVec.ofNat 32 n := rfl
@[simp] theorem State.adoptLength_rate (n mp : Nat) (mf : F64) : (s.adoptLength n mp mf).rate = s.rate := rfl
@[simp] theorem State.adoptLength_maxf (n mp : Nat) (mf : F64) : (s.adoptLength n mp mf).maxf = s.maxf := rfl
@[simp] theorem State.adoptLength_minPeriod (n mp : Nat) (mf : F64) : (s.adoptLength n mp mf).minPeriod = BitVec.ofNat 32 mp := rfl
@[simp] theorem State.adoptLength_minFreqLo (n mp : Nat) (mf : F64) : (s.adoptLength n mp mf).minFreqLo = mf.bits.extractLsb' 0 32 := rfl
@[simp] theorem State.adoptLength_minFreqHi (n mp : Nat) (mf : F64) : (s.adoptLength n mp mf).minFreqHi = mf.bits.extractLsb' 32 32 := rfl
@[simp] theorem State.adoptLength_globalMax (n mp : Nat) (mf : F64) : (s.adoptLength n mp mf).globalMax = s.globalMax := rfl
@[simp] theorem State.adoptLength_bestValue (n mp : Nat) (mf : F64) : (s.adoptLength n mp mf).bestValue = s.bestValue := rfl
@[simp] theorem State.adoptLength_bestLag (n mp : Nat) (mf : F64) : (s.adoptLength n mp mf).bestLag = s.bestLag := rfl
@[simp] theorem State.adoptLength_lag (n mp : Nat) (mf : F64) : (s.adoptLength n mp mf).lag = s.lag := rfl
@[simp] theorem State.adoptLength_startEdge (n mp : Nat) (mf : F64) : (s.adoptLength n mp mf).startEdge = s.startEdge := rfl
@[simp] theorem State.adoptLength_nextEdge (n mp : Nat) (mf : F64) : (s.adoptLength n mp mf).nextEdge = s.nextEdge := rfl
@[simp] theorem State.adoptLength_lagSampLo (n mp : Nat) (mf : F64) : (s.adoptLength n mp mf).lagSampLo = s.lagSampLo := rfl
@[simp] theorem State.adoptLength_lagSampHi (n mp : Nat) (mf : F64) : (s.adoptLength n mp mf).lagSampHi = s.lagSampHi := rfl
@[simp] theorem State.adoptLength_pitchLo (n mp : Nat) (mf : F64) : (s.adoptLength n mp mf).pitchLo = s.pitchLo := rfl
@[simp] theorem State.adoptLength_pitchHi (n mp : Nat) (mf : F64) : (s.adoptLength n mp mf).pitchHi = s.pitchHi := rfl
@[simp] theorem State.adoptLength_busy (n mp : Nat) (mf : F64) : (s.adoptLength n mp mf).busy = s.busy := rfl
@[simp] theorem State.adoptLength_det (n mp : Nat) (mf : F64) : (s.adoptLength n mp mf).det = .ready := rfl
@[simp] theorem State.adoptLength_pitchValid (n mp : Nat) (mf : F64) : (s.adoptLength n mp mf).pitchValid = false := rfl
@[simp] theorem State.adoptLength_proto (n mp : Nat) (mf : F64) : (s.adoptLength n mp mf).proto = s.proto := rfl
@[simp] theorem State.adoptLength_errCode (n mp : Nat) (mf : F64) : (s.adoptLength n mp mf).errCode = s.errCode := rfl
@[simp] theorem State.adoptLength_lastOp (n mp : Nat) (mf : F64) : (s.adoptLength n mp mf).lastOp = s.lastOp := rfl
@[simp] theorem State.adoptLength_resetHeld (n mp : Nat) (mf : F64) : (s.adoptLength n mp mf).resetHeld = s.resetHeld := rfl
@[simp] theorem State.adoptLength_pend (n mp : Nat) (mf : F64) : (s.adoptLength n mp mf).pend = s.pend := rfl
@[simp] theorem State.adoptLength_ram (n mp : Nat) (mf : F64) : (s.adoptLength n mp mf).ram = s.ram := rfl
@[simp] theorem State.adoptLength_inputs (n mp : Nat) (mf : F64) : (s.adoptLength n mp mf).inputs = s.inputs := rfl
@[simp] theorem State.adoptLength_reads (n mp : Nat) (mf : F64) : (s.adoptLength n mp mf).reads = s.reads := rfl
@[simp] theorem State.adoptLength_delay (n mp : Nat) (mf : F64) : (s.adoptLength n mp mf).delay = s.delay := rfl
@[simp] theorem State.adoptLength_draws (n mp : Nat) (mf : F64) : (s.adoptLength n mp mf).draws = s.draws := rfl

/-! adoptConfig -/

@[simp] theorem State.adoptConfig_maxBatch (n r f mp : Nat) (mf : F64) : (s.adoptConfig n r f mp mf).maxBatch = s.maxBatch := rfl
@[simp] theorem State.adoptConfig_cfgBatch (n r f mp : Nat) (mf : F64) : (s.adoptConfig n r f mp mf).cfgBatch = s.cfgBatch := rfl
@[simp] theorem State.adoptConfig_cfgRate (n r f mp : Nat) (mf : F64) : (s.adoptConfig n r f mp mf).cfgRate = s.cfgRate := rfl
@[simp] theorem State.adoptConfig_cfgMaxf (n r f mp : Nat) (mf : F64) : (s.adoptConfig n r f mp mf).cfgMaxf = s.cfgMaxf := rfl
@[simp] theorem State.adoptConfig_batch (n r f mp : Nat) (mf : F64) : (s.adoptConfig n r f mp mf).batch = BitVec.ofNat 32 n := rfl
@[simp] theorem State.adoptConfig_rate (n r f mp : Nat) (mf : F64) : (s.adoptConfig n r f mp mf).rate = BitVec.ofNat 32 r := rfl
@[simp] theorem State.adoptConfig_maxf (n r f mp : Nat) (mf : F64) : (s.adoptConfig n r f mp mf).maxf = BitVec.ofNat 32 f := rfl
@[simp] theorem State.adoptConfig_minPeriod (n r f mp : Nat) (mf : F64) : (s.adoptConfig n r f mp mf).minPeriod = BitVec.ofNat 32 mp := rfl
@[simp] theorem State.adoptConfig_minFreqLo (n r f mp : Nat) (mf : F64) : (s.adoptConfig n r f mp mf).minFreqLo = mf.bits.extractLsb' 0 32 := rfl
@[simp] theorem State.adoptConfig_minFreqHi (n r f mp : Nat) (mf : F64) : (s.adoptConfig n r f mp mf).minFreqHi = mf.bits.extractLsb' 32 32 := rfl
@[simp] theorem State.adoptConfig_globalMax (n r f mp : Nat) (mf : F64) : (s.adoptConfig n r f mp mf).globalMax = s.globalMax := rfl
@[simp] theorem State.adoptConfig_bestValue (n r f mp : Nat) (mf : F64) : (s.adoptConfig n r f mp mf).bestValue = s.bestValue := rfl
@[simp] theorem State.adoptConfig_bestLag (n r f mp : Nat) (mf : F64) : (s.adoptConfig n r f mp mf).bestLag = s.bestLag := rfl
@[simp] theorem State.adoptConfig_lag (n r f mp : Nat) (mf : F64) : (s.adoptConfig n r f mp mf).lag = s.lag := rfl
@[simp] theorem State.adoptConfig_startEdge (n r f mp : Nat) (mf : F64) : (s.adoptConfig n r f mp mf).startEdge = s.startEdge := rfl
@[simp] theorem State.adoptConfig_nextEdge (n r f mp : Nat) (mf : F64) : (s.adoptConfig n r f mp mf).nextEdge = s.nextEdge := rfl
@[simp] theorem State.adoptConfig_lagSampLo (n r f mp : Nat) (mf : F64) : (s.adoptConfig n r f mp mf).lagSampLo = s.lagSampLo := rfl
@[simp] theorem State.adoptConfig_lagSampHi (n r f mp : Nat) (mf : F64) : (s.adoptConfig n r f mp mf).lagSampHi = s.lagSampHi := rfl
@[simp] theorem State.adoptConfig_pitchLo (n r f mp : Nat) (mf : F64) : (s.adoptConfig n r f mp mf).pitchLo = s.pitchLo := rfl
@[simp] theorem State.adoptConfig_pitchHi (n r f mp : Nat) (mf : F64) : (s.adoptConfig n r f mp mf).pitchHi = s.pitchHi := rfl
@[simp] theorem State.adoptConfig_busy (n r f mp : Nat) (mf : F64) : (s.adoptConfig n r f mp mf).busy = s.busy := rfl
@[simp] theorem State.adoptConfig_det (n r f mp : Nat) (mf : F64) : (s.adoptConfig n r f mp mf).det = .idle := rfl
@[simp] theorem State.adoptConfig_pitchValid (n r f mp : Nat) (mf : F64) : (s.adoptConfig n r f mp mf).pitchValid = false := rfl
@[simp] theorem State.adoptConfig_proto (n r f mp : Nat) (mf : F64) : (s.adoptConfig n r f mp mf).proto = s.proto := rfl
@[simp] theorem State.adoptConfig_errCode (n r f mp : Nat) (mf : F64) : (s.adoptConfig n r f mp mf).errCode = s.errCode := rfl
@[simp] theorem State.adoptConfig_lastOp (n r f mp : Nat) (mf : F64) : (s.adoptConfig n r f mp mf).lastOp = s.lastOp := rfl
@[simp] theorem State.adoptConfig_resetHeld (n r f mp : Nat) (mf : F64) : (s.adoptConfig n r f mp mf).resetHeld = s.resetHeld := rfl
@[simp] theorem State.adoptConfig_pend (n r f mp : Nat) (mf : F64) : (s.adoptConfig n r f mp mf).pend = s.pend := rfl
@[simp] theorem State.adoptConfig_ram (n r f mp : Nat) (mf : F64) : (s.adoptConfig n r f mp mf).ram = s.ram := rfl
@[simp] theorem State.adoptConfig_inputs (n r f mp : Nat) (mf : F64) : (s.adoptConfig n r f mp mf).inputs = s.inputs := rfl
@[simp] theorem State.adoptConfig_reads (n r f mp : Nat) (mf : F64) : (s.adoptConfig n r f mp mf).reads = s.reads := rfl
@[simp] theorem State.adoptConfig_delay (n r f mp : Nat) (mf : F64) : (s.adoptConfig n r f mp mf).delay = s.delay := rfl
@[simp] theorem State.adoptConfig_draws (n r f mp : Nat) (mf : F64) : (s.adoptConfig n r f mp mf).draws = s.draws := rfl

/-! setBest -/

@[simp] theorem State.setBest_maxBatch (g bv bl : Nat) : (s.setBest g bv bl).maxBatch = s.maxBatch := rfl
@[simp] theorem State.setBest_cfgBatch (g bv bl : Nat) : (s.setBest g bv bl).cfgBatch = s.cfgBatch := rfl
@[simp] theorem State.setBest_cfgRate (g bv bl : Nat) : (s.setBest g bv bl).cfgRate = s.cfgRate := rfl
@[simp] theorem State.setBest_cfgMaxf (g bv bl : Nat) : (s.setBest g bv bl).cfgMaxf = s.cfgMaxf := rfl
@[simp] theorem State.setBest_batch (g bv bl : Nat) : (s.setBest g bv bl).batch = s.batch := rfl
@[simp] theorem State.setBest_rate (g bv bl : Nat) : (s.setBest g bv bl).rate = s.rate := rfl
@[simp] theorem State.setBest_maxf (g bv bl : Nat) : (s.setBest g bv bl).maxf = s.maxf := rfl
@[simp] theorem State.setBest_minPeriod (g bv bl : Nat) : (s.setBest g bv bl).minPeriod = s.minPeriod := rfl
@[simp] theorem State.setBest_minFreqLo (g bv bl : Nat) : (s.setBest g bv bl).minFreqLo = s.minFreqLo := rfl
@[simp] theorem State.setBest_minFreqHi (g bv bl : Nat) : (s.setBest g bv bl).minFreqHi = s.minFreqHi := rfl
@[simp] theorem State.setBest_globalMax (g bv bl : Nat) : (s.setBest g bv bl).globalMax = BitVec.ofNat 32 g := rfl
@[simp] theorem State.setBest_bestValue (g bv bl : Nat) : (s.setBest g bv bl).bestValue = BitVec.ofNat 32 bv := rfl
@[simp] theorem State.setBest_bestLag (g bv bl : Nat) : (s.setBest g bv bl).bestLag = BitVec.ofNat 32 bl := rfl
@[simp] theorem State.setBest_lag (g bv bl : Nat) : (s.setBest g bv bl).lag = s.lag := rfl
@[simp] theorem State.setBest_startEdge (g bv bl : Nat) : (s.setBest g bv bl).startEdge = s.startEdge := rfl
@[simp] theorem State.setBest_nextEdge (g bv bl : Nat) : (s.setBest g bv bl).nextEdge = s.nextEdge := rfl
@[simp] theorem State.setBest_lagSampLo (g bv bl : Nat) : (s.setBest g bv bl).lagSampLo = s.lagSampLo := rfl
@[simp] theorem State.setBest_lagSampHi (g bv bl : Nat) : (s.setBest g bv bl).lagSampHi = s.lagSampHi := rfl
@[simp] theorem State.setBest_pitchLo (g bv bl : Nat) : (s.setBest g bv bl).pitchLo = s.pitchLo := rfl
@[simp] theorem State.setBest_pitchHi (g bv bl : Nat) : (s.setBest g bv bl).pitchHi = s.pitchHi := rfl
@[simp] theorem State.setBest_busy (g bv bl : Nat) : (s.setBest g bv bl).busy = s.busy := rfl
@[simp] theorem State.setBest_det (g bv bl : Nat) : (s.setBest g bv bl).det = s.det := rfl
@[simp] theorem State.setBest_pitchValid (g bv bl : Nat) : (s.setBest g bv bl).pitchValid = s.pitchValid := rfl
@[simp] theorem State.setBest_proto (g bv bl : Nat) : (s.setBest g bv bl).proto = s.proto := rfl
@[simp] theorem State.setBest_errCode (g bv bl : Nat) : (s.setBest g bv bl).errCode = s.errCode := rfl
@[simp] theorem State.setBest_lastOp (g bv bl : Nat) : (s.setBest g bv bl).lastOp = s.lastOp := rfl
@[simp] theorem State.setBest_resetHeld (g bv bl : Nat) : (s.setBest g bv bl).resetHeld = s.resetHeld := rfl
@[simp] theorem State.setBest_pend (g bv bl : Nat) : (s.setBest g bv bl).pend = s.pend := rfl
@[simp] theorem State.setBest_ram (g bv bl : Nat) : (s.setBest g bv bl).ram = s.ram := rfl
@[simp] theorem State.setBest_inputs (g bv bl : Nat) : (s.setBest g bv bl).inputs = s.inputs := rfl
@[simp] theorem State.setBest_reads (g bv bl : Nat) : (s.setBest g bv bl).reads = s.reads := rfl
@[simp] theorem State.setBest_delay (g bv bl : Nat) : (s.setBest g bv bl).delay = s.delay := rfl
@[simp] theorem State.setBest_draws (g bv bl : Nat) : (s.setBest g bv bl).draws = s.draws := rfl

/-! setLag -/

@[simp] theorem State.setLag_maxBatch (v : Word) : (s.setLag v).maxBatch = s.maxBatch := rfl
@[simp] theorem State.setLag_cfgBatch (v : Word) : (s.setLag v).cfgBatch = s.cfgBatch := rfl
@[simp] theorem State.setLag_cfgRate (v : Word) : (s.setLag v).cfgRate = s.cfgRate := rfl
@[simp] theorem State.setLag_cfgMaxf (v : Word) : (s.setLag v).cfgMaxf = s.cfgMaxf := rfl
@[simp] theorem State.setLag_batch (v : Word) : (s.setLag v).batch = s.batch := rfl
@[simp] theorem State.setLag_rate (v : Word) : (s.setLag v).rate = s.rate := rfl
@[simp] theorem State.setLag_maxf (v : Word) : (s.setLag v).maxf = s.maxf := rfl
@[simp] theorem State.setLag_minPeriod (v : Word) : (s.setLag v).minPeriod = s.minPeriod := rfl
@[simp] theorem State.setLag_minFreqLo (v : Word) : (s.setLag v).minFreqLo = s.minFreqLo := rfl
@[simp] theorem State.setLag_minFreqHi (v : Word) : (s.setLag v).minFreqHi = s.minFreqHi := rfl
@[simp] theorem State.setLag_globalMax (v : Word) : (s.setLag v).globalMax = s.globalMax := rfl
@[simp] theorem State.setLag_bestValue (v : Word) : (s.setLag v).bestValue = s.bestValue := rfl
@[simp] theorem State.setLag_bestLag (v : Word) : (s.setLag v).bestLag = s.bestLag := rfl
@[simp] theorem State.setLag_lag (v : Word) : (s.setLag v).lag = v := rfl
@[simp] theorem State.setLag_startEdge (v : Word) : (s.setLag v).startEdge = s.startEdge := rfl
@[simp] theorem State.setLag_nextEdge (v : Word) : (s.setLag v).nextEdge = s.nextEdge := rfl
@[simp] theorem State.setLag_lagSampLo (v : Word) : (s.setLag v).lagSampLo = s.lagSampLo := rfl
@[simp] theorem State.setLag_lagSampHi (v : Word) : (s.setLag v).lagSampHi = s.lagSampHi := rfl
@[simp] theorem State.setLag_pitchLo (v : Word) : (s.setLag v).pitchLo = s.pitchLo := rfl
@[simp] theorem State.setLag_pitchHi (v : Word) : (s.setLag v).pitchHi = s.pitchHi := rfl
@[simp] theorem State.setLag_busy (v : Word) : (s.setLag v).busy = s.busy := rfl
@[simp] theorem State.setLag_det (v : Word) : (s.setLag v).det = s.det := rfl
@[simp] theorem State.setLag_pitchValid (v : Word) : (s.setLag v).pitchValid = s.pitchValid := rfl
@[simp] theorem State.setLag_proto (v : Word) : (s.setLag v).proto = s.proto := rfl
@[simp] theorem State.setLag_errCode (v : Word) : (s.setLag v).errCode = s.errCode := rfl
@[simp] theorem State.setLag_lastOp (v : Word) : (s.setLag v).lastOp = s.lastOp := rfl
@[simp] theorem State.setLag_resetHeld (v : Word) : (s.setLag v).resetHeld = s.resetHeld := rfl
@[simp] theorem State.setLag_pend (v : Word) : (s.setLag v).pend = s.pend := rfl
@[simp] theorem State.setLag_ram (v : Word) : (s.setLag v).ram = s.ram := rfl
@[simp] theorem State.setLag_inputs (v : Word) : (s.setLag v).inputs = s.inputs := rfl
@[simp] theorem State.setLag_reads (v : Word) : (s.setLag v).reads = s.reads := rfl
@[simp] theorem State.setLag_delay (v : Word) : (s.setLag v).delay = s.delay := rfl
@[simp] theorem State.setLag_draws (v : Word) : (s.setLag v).draws = s.draws := rfl

/-! setStartEdge -/

@[simp] theorem State.setStartEdge_maxBatch (i : Nat) : (s.setStartEdge i).maxBatch = s.maxBatch := rfl
@[simp] theorem State.setStartEdge_cfgBatch (i : Nat) : (s.setStartEdge i).cfgBatch = s.cfgBatch := rfl
@[simp] theorem State.setStartEdge_cfgRate (i : Nat) : (s.setStartEdge i).cfgRate = s.cfgRate := rfl
@[simp] theorem State.setStartEdge_cfgMaxf (i : Nat) : (s.setStartEdge i).cfgMaxf = s.cfgMaxf := rfl
@[simp] theorem State.setStartEdge_batch (i : Nat) : (s.setStartEdge i).batch = s.batch := rfl
@[simp] theorem State.setStartEdge_rate (i : Nat) : (s.setStartEdge i).rate = s.rate := rfl
@[simp] theorem State.setStartEdge_maxf (i : Nat) : (s.setStartEdge i).maxf = s.maxf := rfl
@[simp] theorem State.setStartEdge_minPeriod (i : Nat) : (s.setStartEdge i).minPeriod = s.minPeriod := rfl
@[simp] theorem State.setStartEdge_minFreqLo (i : Nat) : (s.setStartEdge i).minFreqLo = s.minFreqLo := rfl
@[simp] theorem State.setStartEdge_minFreqHi (i : Nat) : (s.setStartEdge i).minFreqHi = s.minFreqHi := rfl
@[simp] theorem State.setStartEdge_globalMax (i : Nat) : (s.setStartEdge i).globalMax = s.globalMax := rfl
@[simp] theorem State.setStartEdge_bestValue (i : Nat) : (s.setStartEdge i).bestValue = s.bestValue := rfl
@[simp] theorem State.setStartEdge_bestLag (i : Nat) : (s.setStartEdge i).bestLag = s.bestLag := rfl
@[simp] theorem State.setStartEdge_lag (i : Nat) : (s.setStartEdge i).lag = s.lag := rfl
@[simp] theorem State.setStartEdge_startEdge (i : Nat) : (s.setStartEdge i).startEdge = BitVec.ofNat 32 i := rfl
@[simp] theorem State.setStartEdge_nextEdge (i : Nat) : (s.setStartEdge i).nextEdge = s.nextEdge := rfl
@[simp] theorem State.setStartEdge_lagSampLo (i : Nat) : (s.setStartEdge i).lagSampLo = s.lagSampLo := rfl
@[simp] theorem State.setStartEdge_lagSampHi (i : Nat) : (s.setStartEdge i).lagSampHi = s.lagSampHi := rfl
@[simp] theorem State.setStartEdge_pitchLo (i : Nat) : (s.setStartEdge i).pitchLo = s.pitchLo := rfl
@[simp] theorem State.setStartEdge_pitchHi (i : Nat) : (s.setStartEdge i).pitchHi = s.pitchHi := rfl
@[simp] theorem State.setStartEdge_busy (i : Nat) : (s.setStartEdge i).busy = s.busy := rfl
@[simp] theorem State.setStartEdge_det (i : Nat) : (s.setStartEdge i).det = s.det := rfl
@[simp] theorem State.setStartEdge_pitchValid (i : Nat) : (s.setStartEdge i).pitchValid = s.pitchValid := rfl
@[simp] theorem State.setStartEdge_proto (i : Nat) : (s.setStartEdge i).proto = s.proto := rfl
@[simp] theorem State.setStartEdge_errCode (i : Nat) : (s.setStartEdge i).errCode = s.errCode := rfl
@[simp] theorem State.setStartEdge_lastOp (i : Nat) : (s.setStartEdge i).lastOp = s.lastOp := rfl
@[simp] theorem State.setStartEdge_resetHeld (i : Nat) : (s.setStartEdge i).resetHeld = s.resetHeld := rfl
@[simp] theorem State.setStartEdge_pend (i : Nat) : (s.setStartEdge i).pend = s.pend := rfl
@[simp] theorem State.setStartEdge_ram (i : Nat) : (s.setStartEdge i).ram = s.ram := rfl
@[simp] theorem State.setStartEdge_inputs (i : Nat) : (s.setStartEdge i).inputs = s.inputs := rfl
@[simp] theorem State.setStartEdge_reads (i : Nat) : (s.setStartEdge i).reads = s.reads := rfl
@[simp] theorem State.setStartEdge_delay (i : Nat) : (s.setStartEdge i).delay = s.delay := rfl
@[simp] theorem State.setStartEdge_draws (i : Nat) : (s.setStartEdge i).draws = s.draws := rfl

/-! setNextEdge -/

@[simp] theorem State.setNextEdge_maxBatch (i : Nat) : (s.setNextEdge i).maxBatch = s.maxBatch := rfl
@[simp] theorem State.setNextEdge_cfgBatch (i : Nat) : (s.setNextEdge i).cfgBatch = s.cfgBatch := rfl
@[simp] theorem State.setNextEdge_cfgRate (i : Nat) : (s.setNextEdge i).cfgRate = s.cfgRate := rfl
@[simp] theorem State.setNextEdge_cfgMaxf (i : Nat) : (s.setNextEdge i).cfgMaxf = s.cfgMaxf := rfl
@[simp] theorem State.setNextEdge_batch (i : Nat) : (s.setNextEdge i).batch = s.batch := rfl
@[simp] theorem State.setNextEdge_rate (i : Nat) : (s.setNextEdge i).rate = s.rate := rfl
@[simp] theorem State.setNextEdge_maxf (i : Nat) : (s.setNextEdge i).maxf = s.maxf := rfl
@[simp] theorem State.setNextEdge_minPeriod (i : Nat) : (s.setNextEdge i).minPeriod = s.minPeriod := rfl
@[simp] theorem State.setNextEdge_minFreqLo (i : Nat) : (s.setNextEdge i).minFreqLo = s.minFreqLo := rfl
@[simp] theorem State.setNextEdge_minFreqHi (i : Nat) : (s.setNextEdge i).minFreqHi = s.minFreqHi := rfl
@[simp] theorem State.setNextEdge_globalMax (i : Nat) : (s.setNextEdge i).globalMax = s.globalMax := rfl
@[simp] theorem State.setNextEdge_bestValue (i : Nat) : (s.setNextEdge i).bestValue = s.bestValue := rfl
@[simp] theorem State.setNextEdge_bestLag (i : Nat) : (s.setNextEdge i).bestLag = s.bestLag := rfl
@[simp] theorem State.setNextEdge_lag (i : Nat) : (s.setNextEdge i).lag = s.lag := rfl
@[simp] theorem State.setNextEdge_startEdge (i : Nat) : (s.setNextEdge i).startEdge = s.startEdge := rfl
@[simp] theorem State.setNextEdge_nextEdge (i : Nat) : (s.setNextEdge i).nextEdge = BitVec.ofNat 32 i := rfl
@[simp] theorem State.setNextEdge_lagSampLo (i : Nat) : (s.setNextEdge i).lagSampLo = s.lagSampLo := rfl
@[simp] theorem State.setNextEdge_lagSampHi (i : Nat) : (s.setNextEdge i).lagSampHi = s.lagSampHi := rfl
@[simp] theorem State.setNextEdge_pitchLo (i : Nat) : (s.setNextEdge i).pitchLo = s.pitchLo := rfl
@[simp] theorem State.setNextEdge_pitchHi (i : Nat) : (s.setNextEdge i).pitchHi = s.pitchHi := rfl
@[simp] theorem State.setNextEdge_busy (i : Nat) : (s.setNextEdge i).busy = s.busy := rfl
@[simp] theorem State.setNextEdge_det (i : Nat) : (s.setNextEdge i).det = s.det := rfl
@[simp] theorem State.setNextEdge_pitchValid (i : Nat) : (s.setNextEdge i).pitchValid = s.pitchValid := rfl
@[simp] theorem State.setNextEdge_proto (i : Nat) : (s.setNextEdge i).proto = s.proto := rfl
@[simp] theorem State.setNextEdge_errCode (i : Nat) : (s.setNextEdge i).errCode = s.errCode := rfl
@[simp] theorem State.setNextEdge_lastOp (i : Nat) : (s.setNextEdge i).lastOp = s.lastOp := rfl
@[simp] theorem State.setNextEdge_resetHeld (i : Nat) : (s.setNextEdge i).resetHeld = s.resetHeld := rfl
@[simp] theorem State.setNextEdge_pend (i : Nat) : (s.setNextEdge i).pend = s.pend := rfl
@[simp] theorem State.setNextEdge_ram (i : Nat) : (s.setNextEdge i).ram = s.ram := rfl
@[simp] theorem State.setNextEdge_inputs (i : Nat) : (s.setNextEdge i).inputs = s.inputs := rfl
@[simp] theorem State.setNextEdge_reads (i : Nat) : (s.setNextEdge i).reads = s.reads := rfl
@[simp] theorem State.setNextEdge_delay (i : Nat) : (s.setNextEdge i).delay = s.delay := rfl
@[simp] theorem State.setNextEdge_draws (i : Nat) : (s.setNextEdge i).draws = s.draws := rfl

/-! setLagSamp -/

@[simp] theorem State.setLagSamp_maxBatch (x : F64) : (s.setLagSamp x).maxBatch = s.maxBatch := rfl
@[simp] theorem State.setLagSamp_cfgBatch (x : F64) : (s.setLagSamp x).cfgBatch = s.cfgBatch := rfl
@[simp] theorem State.setLagSamp_cfgRate (x : F64) : (s.setLagSamp x).cfgRate = s.cfgRate := rfl
@[simp] theorem State.setLagSamp_cfgMaxf (x : F64) : (s.setLagSamp x).cfgMaxf = s.cfgMaxf := rfl
@[simp] theorem State.setLagSamp_batch (x : F64) : (s.setLagSamp x).batch = s.batch := rfl
@[simp] theorem State.setLagSamp_rate (x : F64) : (s.setLagSamp x).rate = s.rate := rfl
@[simp] theorem State.setLagSamp_maxf (x : F64) : (s.setLagSamp x).maxf = s.maxf := rfl
@[simp] theorem State.setLagSamp_minPeriod (x : F64) : (s.setLagSamp x).minPeriod = s.minPeriod := rfl
@[simp] theorem State.setLagSamp_minFreqLo (x : F64) : (s.setLagSamp x).minFreqLo = s.minFreqLo := rfl
@[simp] theorem State.setLagSamp_minFreqHi (x : F64) : (s.setLagSamp x).minFreqHi = s.minFreqHi := rfl
@[simp] theorem State.setLagSamp_globalMax (x : F64) : (s.setLagSamp x).globalMax = s.globalMax := rfl
@[simp] theorem State.setLagSamp_bestValue (x : F64) : (s.setLagSamp x).bestValue = s.bestValue := rfl
@[simp] theorem State.setLagSamp_bestLag (x : F64) : (s.setLagSamp x).bestLag = s.bestLag := rfl
@[simp] theorem State.setLagSamp_lag (x : F64) : (s.setLagSamp x).lag = s.lag := rfl
@[simp] theorem State.setLagSamp_startEdge (x : F64) : (s.setLagSamp x).startEdge = s.startEdge := rfl
@[simp] theorem State.setLagSamp_nextEdge (x : F64) : (s.setLagSamp x).nextEdge = s.nextEdge := rfl
@[simp] theorem State.setLagSamp_lagSampLo (x : F64) : (s.setLagSamp x).lagSampLo = x.bits.extractLsb' 0 32 := rfl
@[simp] theorem State.setLagSamp_lagSampHi (x : F64) : (s.setLagSamp x).lagSampHi = x.bits.extractLsb' 32 32 := rfl
@[simp] theorem State.setLagSamp_pitchLo (x : F64) : (s.setLagSamp x).pitchLo = s.pitchLo := rfl
@[simp] theorem State.setLagSamp_pitchHi (x : F64) : (s.setLagSamp x).pitchHi = s.pitchHi := rfl
@[simp] theorem State.setLagSamp_busy (x : F64) : (s.setLagSamp x).busy = s.busy := rfl
@[simp] theorem State.setLagSamp_det (x : F64) : (s.setLagSamp x).det = s.det := rfl
@[simp] theorem State.setLagSamp_pitchValid (x : F64) : (s.setLagSamp x).pitchValid = s.pitchValid := rfl
@[simp] theorem State.setLagSamp_proto (x : F64) : (s.setLagSamp x).proto = s.proto := rfl
@[simp] theorem State.setLagSamp_errCode (x : F64) : (s.setLagSamp x).errCode = s.errCode := rfl
@[simp] theorem State.setLagSamp_lastOp (x : F64) : (s.setLagSamp x).lastOp = s.lastOp := rfl
@[simp] theorem State.setLagSamp_resetHeld (x : F64) : (s.setLagSamp x).resetHeld = s.resetHeld := rfl
@[simp] theorem State.setLagSamp_pend (x : F64) : (s.setLagSamp x).pend = s.pend := rfl
@[simp] theorem State.setLagSamp_ram (x : F64) : (s.setLagSamp x).ram = s.ram := rfl
@[simp] theorem State.setLagSamp_inputs (x : F64) : (s.setLagSamp x).inputs = s.inputs := rfl
@[simp] theorem State.setLagSamp_reads (x : F64) : (s.setLagSamp x).reads = s.reads := rfl
@[simp] theorem State.setLagSamp_delay (x : F64) : (s.setLagSamp x).delay = s.delay := rfl
@[simp] theorem State.setLagSamp_draws (x : F64) : (s.setLagSamp x).draws = s.draws := rfl

/-! setPitch -/

@[simp] theorem State.setPitch_maxBatch (x : F64) : (s.setPitch x).maxBatch = s.maxBatch := rfl
@[simp] theorem State.setPitch_cfgBatch (x : F64) : (s.setPitch x).cfgBatch = s.cfgBatch := rfl
@[simp] theorem State.setPitch_cfgRate (x : F64) : (s.setPitch x).cfgRate = s.cfgRate := rfl
@[simp] theorem State.setPitch_cfgMaxf (x : F64) : (s.setPitch x).cfgMaxf = s.cfgMaxf := rfl
@[simp] theorem State.setPitch_batch (x : F64) : (s.setPitch x).batch = s.batch := rfl
@[simp] theorem State.setPitch_rate (x : F64) : (s.setPitch x).rate = s.rate := rfl
@[simp] theorem State.setPitch_maxf (x : F64) : (s.setPitch x).maxf = s.maxf := rfl
@[simp] theorem State.setPitch_minPeriod (x : F64) : (s.setPitch x).minPeriod = s.minPeriod := rfl
@[simp] theorem State.setPitch_minFreqLo (x : F64) : (s.setPitch x).minFreqLo = s.minFreqLo := rfl
@[simp] theorem State.setPitch_minFreqHi (x : F64) : (s.setPitch x).minFreqHi = s.minFreqHi := rfl
@[simp] theorem State.setPitch_globalMax (x : F64) : (s.setPitch x).globalMax = s.globalMax := rfl
@[simp] theorem State.setPitch_bestValue (x : F64) : (s.setPitch x).bestValue = s.bestValue := rfl
@[simp] theorem State.setPitch_bestLag (x : F64) : (s.setPitch x).bestLag = s.bestLag := rfl
@[simp] theorem State.setPitch_lag (x : F64) : (s.setPitch x).lag = s.lag := rfl
@[simp] theorem State.setPitch_startEdge (x : F64) : (s.setPitch x).startEdge = s.startEdge := rfl
@[simp] theorem State.setPitch_nextEdge (x : F64) : (s.setPitch x).nextEdge = s.nextEdge := rfl
@[simp] theorem State.setPitch_lagSampLo (x : F64) : (s.setPitch x).lagSampLo = s.lagSampLo := rfl
@[simp] theorem State.setPitch_lagSampHi (x : F64) : (s.setPitch x).lagSampHi = s.lagSampHi := rfl
@[simp] theorem State.setPitch_pitchLo (x : F64) : (s.setPitch x).pitchLo = x.bits.extractLsb' 0 32 := rfl
@[simp] theorem State.setPitch_pitchHi (x : F64) : (s.setPitch x).pitchHi = x.bits.extractLsb' 32 32 := rfl
@[simp] theorem State.setPitch_busy (x : F64) : (s.setPitch x).busy = s.busy := rfl
@[simp] theorem State.setPitch_det (x : F64) : (s.setPitch x).det = s.det := rfl
@[simp] theorem State.setPitch_pitchValid (x : F64) : (s.setPitch x).pitchValid = s.pitchValid := rfl
@[simp] theorem State.setPitch_proto (x : F64) : (s.setPitch x).proto = s.proto := rfl
@[simp] theorem State.setPitch_errCode (x : F64) : (s.setPitch x).errCode = s.errCode := rfl
@[simp] theorem State.setPitch_lastOp (x : F64) : (s.setPitch x).lastOp = s.lastOp := rfl
@[simp] theorem State.setPitch_resetHeld (x : F64) : (s.setPitch x).resetHeld = s.resetHeld := rfl
@[simp] theorem State.setPitch_pend (x : F64) : (s.setPitch x).pend = s.pend := rfl
@[simp] theorem State.setPitch_ram (x : F64) : (s.setPitch x).ram = s.ram := rfl
@[simp] theorem State.setPitch_inputs (x : F64) : (s.setPitch x).inputs = s.inputs := rfl
@[simp] theorem State.setPitch_reads (x : F64) : (s.setPitch x).reads = s.reads := rfl
@[simp] theorem State.setPitch_delay (x : F64) : (s.setPitch x).delay = s.delay := rfl
@[simp] theorem State.setPitch_draws (x : F64) : (s.setPitch x).draws = s.draws := rfl

/-! retire -/

@[simp] theorem State.retire_maxBatch (op : Byte) (e : ErrCode) : (s.retire op e).maxBatch = s.maxBatch := rfl
@[simp] theorem State.retire_cfgBatch (op : Byte) (e : ErrCode) : (s.retire op e).cfgBatch = s.cfgBatch := rfl
@[simp] theorem State.retire_cfgRate (op : Byte) (e : ErrCode) : (s.retire op e).cfgRate = s.cfgRate := rfl
@[simp] theorem State.retire_cfgMaxf (op : Byte) (e : ErrCode) : (s.retire op e).cfgMaxf = s.cfgMaxf := rfl
@[simp] theorem State.retire_batch (op : Byte) (e : ErrCode) : (s.retire op e).batch = s.batch := rfl
@[simp] theorem State.retire_rate (op : Byte) (e : ErrCode) : (s.retire op e).rate = s.rate := rfl
@[simp] theorem State.retire_maxf (op : Byte) (e : ErrCode) : (s.retire op e).maxf = s.maxf := rfl
@[simp] theorem State.retire_minPeriod (op : Byte) (e : ErrCode) : (s.retire op e).minPeriod = s.minPeriod := rfl
@[simp] theorem State.retire_minFreqLo (op : Byte) (e : ErrCode) : (s.retire op e).minFreqLo = s.minFreqLo := rfl
@[simp] theorem State.retire_minFreqHi (op : Byte) (e : ErrCode) : (s.retire op e).minFreqHi = s.minFreqHi := rfl
@[simp] theorem State.retire_globalMax (op : Byte) (e : ErrCode) : (s.retire op e).globalMax = s.globalMax := rfl
@[simp] theorem State.retire_bestValue (op : Byte) (e : ErrCode) : (s.retire op e).bestValue = s.bestValue := rfl
@[simp] theorem State.retire_bestLag (op : Byte) (e : ErrCode) : (s.retire op e).bestLag = s.bestLag := rfl
@[simp] theorem State.retire_lag (op : Byte) (e : ErrCode) : (s.retire op e).lag = s.lag := rfl
@[simp] theorem State.retire_startEdge (op : Byte) (e : ErrCode) : (s.retire op e).startEdge = s.startEdge := rfl
@[simp] theorem State.retire_nextEdge (op : Byte) (e : ErrCode) : (s.retire op e).nextEdge = s.nextEdge := rfl
@[simp] theorem State.retire_lagSampLo (op : Byte) (e : ErrCode) : (s.retire op e).lagSampLo = s.lagSampLo := rfl
@[simp] theorem State.retire_lagSampHi (op : Byte) (e : ErrCode) : (s.retire op e).lagSampHi = s.lagSampHi := rfl
@[simp] theorem State.retire_pitchLo (op : Byte) (e : ErrCode) : (s.retire op e).pitchLo = s.pitchLo := rfl
@[simp] theorem State.retire_pitchHi (op : Byte) (e : ErrCode) : (s.retire op e).pitchHi = s.pitchHi := rfl
@[simp] theorem State.retire_busy (op : Byte) (e : ErrCode) : (s.retire op e).busy = false := rfl
@[simp] theorem State.retire_det (op : Byte) (e : ErrCode) : (s.retire op e).det = s.det := rfl
@[simp] theorem State.retire_pitchValid (op : Byte) (e : ErrCode) : (s.retire op e).pitchValid = s.pitchValid := rfl
@[simp] theorem State.retire_proto (op : Byte) (e : ErrCode) : (s.retire op e).proto = s.proto := rfl
@[simp] theorem State.retire_errCode (op : Byte) (e : ErrCode) : (s.retire op e).errCode = e := rfl
@[simp] theorem State.retire_lastOp (op : Byte) (e : ErrCode) : (s.retire op e).lastOp = op := rfl
@[simp] theorem State.retire_resetHeld (op : Byte) (e : ErrCode) : (s.retire op e).resetHeld = s.resetHeld := rfl
@[simp] theorem State.retire_pend (op : Byte) (e : ErrCode) : (s.retire op e).pend = s.pend := rfl
@[simp] theorem State.retire_ram (op : Byte) (e : ErrCode) : (s.retire op e).ram = s.ram := rfl
@[simp] theorem State.retire_inputs (op : Byte) (e : ErrCode) : (s.retire op e).inputs = s.inputs := rfl
@[simp] theorem State.retire_reads (op : Byte) (e : ErrCode) : (s.retire op e).reads = s.reads := rfl
@[simp] theorem State.retire_delay (op : Byte) (e : ErrCode) : (s.retire op e).delay = s.delay := rfl
@[simp] theorem State.retire_draws (op : Byte) (e : ErrCode) : (s.retire op e).draws = s.draws := rfl

/-! clearRegisters -/

@[simp] theorem State.clearRegisters_maxBatch : s.clearRegisters.maxBatch = s.maxBatch := rfl
@[simp] theorem State.clearRegisters_cfgBatch : s.clearRegisters.cfgBatch = 0#32 := rfl
@[simp] theorem State.clearRegisters_cfgRate : s.clearRegisters.cfgRate = 0#32 := rfl
@[simp] theorem State.clearRegisters_cfgMaxf : s.clearRegisters.cfgMaxf = 0#32 := rfl
@[simp] theorem State.clearRegisters_batch : s.clearRegisters.batch = 0#32 := rfl
@[simp] theorem State.clearRegisters_rate : s.clearRegisters.rate = 0#32 := rfl
@[simp] theorem State.clearRegisters_maxf : s.clearRegisters.maxf = 0#32 := rfl
@[simp] theorem State.clearRegisters_minPeriod : s.clearRegisters.minPeriod = 0#32 := rfl
@[simp] theorem State.clearRegisters_minFreqLo : s.clearRegisters.minFreqLo = 0#32 := rfl
@[simp] theorem State.clearRegisters_minFreqHi : s.clearRegisters.minFreqHi = 0#32 := rfl
@[simp] theorem State.clearRegisters_globalMax : s.clearRegisters.globalMax = 0#32 := rfl
@[simp] theorem State.clearRegisters_bestValue : s.clearRegisters.bestValue = 0#32 := rfl
@[simp] theorem State.clearRegisters_bestLag : s.clearRegisters.bestLag = 0#32 := rfl
@[simp] theorem State.clearRegisters_lag : s.clearRegisters.lag = 0#32 := rfl
@[simp] theorem State.clearRegisters_startEdge : s.clearRegisters.startEdge = 0#32 := rfl
@[simp] theorem State.clearRegisters_nextEdge : s.clearRegisters.nextEdge = 0#32 := rfl
@[simp] theorem State.clearRegisters_lagSampLo : s.clearRegisters.lagSampLo = 0#32 := rfl
@[simp] theorem State.clearRegisters_lagSampHi : s.clearRegisters.lagSampHi = 0#32 := rfl
@[simp] theorem State.clearRegisters_pitchLo : s.clearRegisters.pitchLo = 0#32 := rfl
@[simp] theorem State.clearRegisters_pitchHi : s.clearRegisters.pitchHi = 0#32 := rfl
@[simp] theorem State.clearRegisters_busy : s.clearRegisters.busy = false := rfl
@[simp] theorem State.clearRegisters_det : s.clearRegisters.det = .unconf := rfl
@[simp] theorem State.clearRegisters_pitchValid : s.clearRegisters.pitchValid = false := rfl
@[simp] theorem State.clearRegisters_proto : s.clearRegisters.proto = false := rfl
@[simp] theorem State.clearRegisters_errCode : s.clearRegisters.errCode = .ok := rfl
@[simp] theorem State.clearRegisters_lastOp : s.clearRegisters.lastOp = 0#8 := rfl
@[simp] theorem State.clearRegisters_resetHeld : s.clearRegisters.resetHeld = s.resetHeld := rfl
@[simp] theorem State.clearRegisters_pend : s.clearRegisters.pend = s.pend := rfl
@[simp] theorem State.clearRegisters_ram : s.clearRegisters.ram = s.ram := rfl
@[simp] theorem State.clearRegisters_inputs : s.clearRegisters.inputs = s.inputs := rfl
@[simp] theorem State.clearRegisters_reads : s.clearRegisters.reads = s.reads := rfl
@[simp] theorem State.clearRegisters_delay : s.clearRegisters.delay = s.delay := rfl
@[simp] theorem State.clearRegisters_draws : s.clearRegisters.draws = s.draws := rfl

/-! give -/

@[simp] theorem State.give_maxBatch (v : Word) : (s.give v).maxBatch = s.maxBatch := rfl
@[simp] theorem State.give_cfgBatch (v : Word) : (s.give v).cfgBatch = s.cfgBatch := rfl
@[simp] theorem State.give_cfgRate (v : Word) : (s.give v).cfgRate = s.cfgRate := rfl
@[simp] theorem State.give_cfgMaxf (v : Word) : (s.give v).cfgMaxf = s.cfgMaxf := rfl
@[simp] theorem State.give_batch (v : Word) : (s.give v).batch = s.batch := rfl
@[simp] theorem State.give_rate (v : Word) : (s.give v).rate = s.rate := rfl
@[simp] theorem State.give_maxf (v : Word) : (s.give v).maxf = s.maxf := rfl
@[simp] theorem State.give_minPeriod (v : Word) : (s.give v).minPeriod = s.minPeriod := rfl
@[simp] theorem State.give_minFreqLo (v : Word) : (s.give v).minFreqLo = s.minFreqLo := rfl
@[simp] theorem State.give_minFreqHi (v : Word) : (s.give v).minFreqHi = s.minFreqHi := rfl
@[simp] theorem State.give_globalMax (v : Word) : (s.give v).globalMax = s.globalMax := rfl
@[simp] theorem State.give_bestValue (v : Word) : (s.give v).bestValue = s.bestValue := rfl
@[simp] theorem State.give_bestLag (v : Word) : (s.give v).bestLag = s.bestLag := rfl
@[simp] theorem State.give_lag (v : Word) : (s.give v).lag = s.lag := rfl
@[simp] theorem State.give_startEdge (v : Word) : (s.give v).startEdge = s.startEdge := rfl
@[simp] theorem State.give_nextEdge (v : Word) : (s.give v).nextEdge = s.nextEdge := rfl
@[simp] theorem State.give_lagSampLo (v : Word) : (s.give v).lagSampLo = s.lagSampLo := rfl
@[simp] theorem State.give_lagSampHi (v : Word) : (s.give v).lagSampHi = s.lagSampHi := rfl
@[simp] theorem State.give_pitchLo (v : Word) : (s.give v).pitchLo = s.pitchLo := rfl
@[simp] theorem State.give_pitchHi (v : Word) : (s.give v).pitchHi = s.pitchHi := rfl
@[simp] theorem State.give_busy (v : Word) : (s.give v).busy = s.busy := rfl
@[simp] theorem State.give_det (v : Word) : (s.give v).det = s.det := rfl
@[simp] theorem State.give_pitchValid (v : Word) : (s.give v).pitchValid = s.pitchValid := rfl
@[simp] theorem State.give_proto (v : Word) : (s.give v).proto = s.proto := rfl
@[simp] theorem State.give_errCode (v : Word) : (s.give v).errCode = s.errCode := rfl
@[simp] theorem State.give_lastOp (v : Word) : (s.give v).lastOp = s.lastOp := rfl
@[simp] theorem State.give_resetHeld (v : Word) : (s.give v).resetHeld = s.resetHeld := rfl
@[simp] theorem State.give_pend (v : Word) : (s.give v).pend = s.pend := rfl
@[simp] theorem State.give_ram (v : Word) : (s.give v).ram = s.ram := rfl
@[simp] theorem State.give_inputs (v : Word) : (s.give v).inputs = s.inputs := rfl
@[simp] theorem State.give_reads (v : Word) : (s.give v).reads = v :: s.reads := rfl
@[simp] theorem State.give_delay (v : Word) : (s.give v).delay = s.delay := rfl
@[simp] theorem State.give_draws (v : Word) : (s.give v).draws = s.draws := rfl

/-! drawn -/

@[simp] theorem State.drawn_maxBatch : s.drawn.maxBatch = s.maxBatch := rfl
@[simp] theorem State.drawn_cfgBatch : s.drawn.cfgBatch = s.cfgBatch := rfl
@[simp] theorem State.drawn_cfgRate : s.drawn.cfgRate = s.cfgRate := rfl
@[simp] theorem State.drawn_cfgMaxf : s.drawn.cfgMaxf = s.cfgMaxf := rfl
@[simp] theorem State.drawn_batch : s.drawn.batch = s.batch := rfl
@[simp] theorem State.drawn_rate : s.drawn.rate = s.rate := rfl
@[simp] theorem State.drawn_maxf : s.drawn.maxf = s.maxf := rfl
@[simp] theorem State.drawn_minPeriod : s.drawn.minPeriod = s.minPeriod := rfl
@[simp] theorem State.drawn_minFreqLo : s.drawn.minFreqLo = s.minFreqLo := rfl
@[simp] theorem State.drawn_minFreqHi : s.drawn.minFreqHi = s.minFreqHi := rfl
@[simp] theorem State.drawn_globalMax : s.drawn.globalMax = s.globalMax := rfl
@[simp] theorem State.drawn_bestValue : s.drawn.bestValue = s.bestValue := rfl
@[simp] theorem State.drawn_bestLag : s.drawn.bestLag = s.bestLag := rfl
@[simp] theorem State.drawn_lag : s.drawn.lag = s.lag := rfl
@[simp] theorem State.drawn_startEdge : s.drawn.startEdge = s.startEdge := rfl
@[simp] theorem State.drawn_nextEdge : s.drawn.nextEdge = s.nextEdge := rfl
@[simp] theorem State.drawn_lagSampLo : s.drawn.lagSampLo = s.lagSampLo := rfl
@[simp] theorem State.drawn_lagSampHi : s.drawn.lagSampHi = s.lagSampHi := rfl
@[simp] theorem State.drawn_pitchLo : s.drawn.pitchLo = s.pitchLo := rfl
@[simp] theorem State.drawn_pitchHi : s.drawn.pitchHi = s.pitchHi := rfl
@[simp] theorem State.drawn_busy : s.drawn.busy = s.busy := rfl
@[simp] theorem State.drawn_det : s.drawn.det = s.det := rfl
@[simp] theorem State.drawn_pitchValid : s.drawn.pitchValid = s.pitchValid := rfl
@[simp] theorem State.drawn_proto : s.drawn.proto = s.proto := rfl
@[simp] theorem State.drawn_errCode : s.drawn.errCode = s.errCode := rfl
@[simp] theorem State.drawn_lastOp : s.drawn.lastOp = s.lastOp := rfl
@[simp] theorem State.drawn_resetHeld : s.drawn.resetHeld = s.resetHeld := rfl
@[simp] theorem State.drawn_pend : s.drawn.pend = s.pend := rfl
@[simp] theorem State.drawn_ram : s.drawn.ram = s.ram := rfl
@[simp] theorem State.drawn_inputs : s.drawn.inputs = s.inputs := rfl
@[simp] theorem State.drawn_reads : s.drawn.reads = s.reads := rfl
@[simp] theorem State.drawn_delay : s.drawn.delay = s.delay := rfl
@[simp] theorem State.drawn_draws : s.drawn.draws = s.draws + 1 := rfl

/-! issue -/

@[simp] theorem State.issue_maxBatch (v : Word) : (s.issue v).maxBatch = s.maxBatch := rfl
@[simp] theorem State.issue_cfgBatch (v : Word) : (s.issue v).cfgBatch = s.cfgBatch := rfl
@[simp] theorem State.issue_cfgRate (v : Word) : (s.issue v).cfgRate = s.cfgRate := rfl
@[simp] theorem State.issue_cfgMaxf (v : Word) : (s.issue v).cfgMaxf = s.cfgMaxf := rfl
@[simp] theorem State.issue_batch (v : Word) : (s.issue v).batch = s.batch := rfl
@[simp] theorem State.issue_rate (v : Word) : (s.issue v).rate = s.rate := rfl
@[simp] theorem State.issue_maxf (v : Word) : (s.issue v).maxf = s.maxf := rfl
@[simp] theorem State.issue_minPeriod (v : Word) : (s.issue v).minPeriod = s.minPeriod := rfl
@[simp] theorem State.issue_minFreqLo (v : Word) : (s.issue v).minFreqLo = s.minFreqLo := rfl
@[simp] theorem State.issue_minFreqHi (v : Word) : (s.issue v).minFreqHi = s.minFreqHi := rfl
@[simp] theorem State.issue_globalMax (v : Word) : (s.issue v).globalMax = s.globalMax := rfl
@[simp] theorem State.issue_bestValue (v : Word) : (s.issue v).bestValue = s.bestValue := rfl
@[simp] theorem State.issue_bestLag (v : Word) : (s.issue v).bestLag = s.bestLag := rfl
@[simp] theorem State.issue_lag (v : Word) : (s.issue v).lag = s.lag := rfl
@[simp] theorem State.issue_startEdge (v : Word) : (s.issue v).startEdge = s.startEdge := rfl
@[simp] theorem State.issue_nextEdge (v : Word) : (s.issue v).nextEdge = s.nextEdge := rfl
@[simp] theorem State.issue_lagSampLo (v : Word) : (s.issue v).lagSampLo = s.lagSampLo := rfl
@[simp] theorem State.issue_lagSampHi (v : Word) : (s.issue v).lagSampHi = s.lagSampHi := rfl
@[simp] theorem State.issue_pitchLo (v : Word) : (s.issue v).pitchLo = s.pitchLo := rfl
@[simp] theorem State.issue_pitchHi (v : Word) : (s.issue v).pitchHi = s.pitchHi := rfl
@[simp] theorem State.issue_busy (v : Word) : (s.issue v).busy = true := rfl
@[simp] theorem State.issue_det (v : Word) : (s.issue v).det = s.det := rfl
@[simp] theorem State.issue_pitchValid (v : Word) : (s.issue v).pitchValid = s.pitchValid := rfl
@[simp] theorem State.issue_proto (v : Word) : (s.issue v).proto = s.proto := rfl
@[simp] theorem State.issue_errCode (v : Word) : (s.issue v).errCode = s.errCode := rfl
@[simp] theorem State.issue_lastOp (v : Word) : (s.issue v).lastOp = s.lastOp := rfl
@[simp] theorem State.issue_resetHeld (v : Word) : (s.issue v).resetHeld = s.resetHeld := rfl
@[simp] theorem State.issue_pend (v : Word) : (s.issue v).pend = v := rfl
@[simp] theorem State.issue_ram (v : Word) : (s.issue v).ram = s.ram := rfl
@[simp] theorem State.issue_inputs (v : Word) : (s.issue v).inputs = s.inputs := rfl
@[simp] theorem State.issue_reads (v : Word) : (s.issue v).reads = s.reads := rfl
@[simp] theorem State.issue_delay (v : Word) : (s.issue v).delay = Config.completionDelay s.draws := rfl
@[simp] theorem State.issue_draws (v : Word) : (s.issue v).draws = s.draws + 1 := rfl

/-! withPending -/

@[simp] theorem State.withPending_maxBatch (w : Nat) : (s.withPending w).maxBatch = s.maxBatch := rfl
@[simp] theorem State.withPending_cfgBatch (w : Nat) : (s.withPending w).cfgBatch = s.cfgBatch := rfl
@[simp] theorem State.withPending_cfgRate (w : Nat) : (s.withPending w).cfgRate = s.cfgRate := rfl
@[simp] theorem State.withPending_cfgMaxf (w : Nat) : (s.withPending w).cfgMaxf = s.cfgMaxf := rfl
@[simp] theorem State.withPending_batch (w : Nat) : (s.withPending w).batch = s.batch := rfl
@[simp] theorem State.withPending_rate (w : Nat) : (s.withPending w).rate = s.rate := rfl
@[simp] theorem State.withPending_maxf (w : Nat) : (s.withPending w).maxf = s.maxf := rfl
@[simp] theorem State.withPending_minPeriod (w : Nat) : (s.withPending w).minPeriod = s.minPeriod := rfl
@[simp] theorem State.withPending_minFreqLo (w : Nat) : (s.withPending w).minFreqLo = s.minFreqLo := rfl
@[simp] theorem State.withPending_minFreqHi (w : Nat) : (s.withPending w).minFreqHi = s.minFreqHi := rfl
@[simp] theorem State.withPending_globalMax (w : Nat) : (s.withPending w).globalMax = s.globalMax := rfl
@[simp] theorem State.withPending_bestValue (w : Nat) : (s.withPending w).bestValue = s.bestValue := rfl
@[simp] theorem State.withPending_bestLag (w : Nat) : (s.withPending w).bestLag = s.bestLag := rfl
@[simp] theorem State.withPending_lag (w : Nat) : (s.withPending w).lag = s.lag := rfl
@[simp] theorem State.withPending_startEdge (w : Nat) : (s.withPending w).startEdge = s.startEdge := rfl
@[simp] theorem State.withPending_nextEdge (w : Nat) : (s.withPending w).nextEdge = s.nextEdge := rfl
@[simp] theorem State.withPending_lagSampLo (w : Nat) : (s.withPending w).lagSampLo = s.lagSampLo := rfl
@[simp] theorem State.withPending_lagSampHi (w : Nat) : (s.withPending w).lagSampHi = s.lagSampHi := rfl
@[simp] theorem State.withPending_pitchLo (w : Nat) : (s.withPending w).pitchLo = s.pitchLo := rfl
@[simp] theorem State.withPending_pitchHi (w : Nat) : (s.withPending w).pitchHi = s.pitchHi := rfl
@[simp] theorem State.withPending_busy (w : Nat) : (s.withPending w).busy = true := rfl
@[simp] theorem State.withPending_det (w : Nat) : (s.withPending w).det = s.det := rfl
@[simp] theorem State.withPending_pitchValid (w : Nat) : (s.withPending w).pitchValid = s.pitchValid := rfl
@[simp] theorem State.withPending_proto (w : Nat) : (s.withPending w).proto = s.proto := rfl
@[simp] theorem State.withPending_errCode (w : Nat) : (s.withPending w).errCode = s.errCode := rfl
@[simp] theorem State.withPending_lastOp (w : Nat) : (s.withPending w).lastOp = s.lastOp := rfl
@[simp] theorem State.withPending_resetHeld (w : Nat) : (s.withPending w).resetHeld = false := rfl
@[simp] theorem State.withPending_pend (w : Nat) : (s.withPending w).pend = BitVec.ofNat 32 w := rfl
@[simp] theorem State.withPending_ram (w : Nat) : (s.withPending w).ram = s.ram := rfl
@[simp] theorem State.withPending_inputs (w : Nat) : (s.withPending w).inputs = s.inputs := rfl
@[simp] theorem State.withPending_reads (w : Nat) : (s.withPending w).reads = s.reads := rfl
@[simp] theorem State.withPending_delay (w : Nat) : (s.withPending w).delay = 0 := rfl
@[simp] theorem State.withPending_draws (w : Nat) : (s.withPending w).draws = s.draws := rfl

/-! queue -/

@[simp] theorem State.queue_maxBatch (rest : List HostEvent) : (s.queue rest).maxBatch = s.maxBatch := rfl
@[simp] theorem State.queue_cfgBatch (rest : List HostEvent) : (s.queue rest).cfgBatch = s.cfgBatch := rfl
@[simp] theorem State.queue_cfgRate (rest : List HostEvent) : (s.queue rest).cfgRate = s.cfgRate := rfl
@[simp] theorem State.queue_cfgMaxf (rest : List HostEvent) : (s.queue rest).cfgMaxf = s.cfgMaxf := rfl
@[simp] theorem State.queue_batch (rest : List HostEvent) : (s.queue rest).batch = s.batch := rfl
@[simp] theorem State.queue_rate (rest : List HostEvent) : (s.queue rest).rate = s.rate := rfl
@[simp] theorem State.queue_maxf (rest : List HostEvent) : (s.queue rest).maxf = s.maxf := rfl
@[simp] theorem State.queue_minPeriod (rest : List HostEvent) : (s.queue rest).minPeriod = s.minPeriod := rfl
@[simp] theorem State.queue_minFreqLo (rest : List HostEvent) : (s.queue rest).minFreqLo = s.minFreqLo := rfl
@[simp] theorem State.queue_minFreqHi (rest : List HostEvent) : (s.queue rest).minFreqHi = s.minFreqHi := rfl
@[simp] theorem State.queue_globalMax (rest : List HostEvent) : (s.queue rest).globalMax = s.globalMax := rfl
@[simp] theorem State.queue_bestValue (rest : List HostEvent) : (s.queue rest).bestValue = s.bestValue := rfl
@[simp] theorem State.queue_bestLag (rest : List HostEvent) : (s.queue rest).bestLag = s.bestLag := rfl
@[simp] theorem State.queue_lag (rest : List HostEvent) : (s.queue rest).lag = s.lag := rfl
@[simp] theorem State.queue_startEdge (rest : List HostEvent) : (s.queue rest).startEdge = s.startEdge := rfl
@[simp] theorem State.queue_nextEdge (rest : List HostEvent) : (s.queue rest).nextEdge = s.nextEdge := rfl
@[simp] theorem State.queue_lagSampLo (rest : List HostEvent) : (s.queue rest).lagSampLo = s.lagSampLo := rfl
@[simp] theorem State.queue_lagSampHi (rest : List HostEvent) : (s.queue rest).lagSampHi = s.lagSampHi := rfl
@[simp] theorem State.queue_pitchLo (rest : List HostEvent) : (s.queue rest).pitchLo = s.pitchLo := rfl
@[simp] theorem State.queue_pitchHi (rest : List HostEvent) : (s.queue rest).pitchHi = s.pitchHi := rfl
@[simp] theorem State.queue_busy (rest : List HostEvent) : (s.queue rest).busy = s.busy := rfl
@[simp] theorem State.queue_det (rest : List HostEvent) : (s.queue rest).det = s.det := rfl
@[simp] theorem State.queue_pitchValid (rest : List HostEvent) : (s.queue rest).pitchValid = s.pitchValid := rfl
@[simp] theorem State.queue_proto (rest : List HostEvent) : (s.queue rest).proto = s.proto := rfl
@[simp] theorem State.queue_errCode (rest : List HostEvent) : (s.queue rest).errCode = s.errCode := rfl
@[simp] theorem State.queue_lastOp (rest : List HostEvent) : (s.queue rest).lastOp = s.lastOp := rfl
@[simp] theorem State.queue_resetHeld (rest : List HostEvent) : (s.queue rest).resetHeld = s.resetHeld := rfl
@[simp] theorem State.queue_pend (rest : List HostEvent) : (s.queue rest).pend = s.pend := rfl
@[simp] theorem State.queue_ram (rest : List HostEvent) : (s.queue rest).ram = s.ram := rfl
@[simp] theorem State.queue_inputs (rest : List HostEvent) : (s.queue rest).inputs = rest := rfl
@[simp] theorem State.queue_reads (rest : List HostEvent) : (s.queue rest).reads = s.reads := rfl
@[simp] theorem State.queue_delay (rest : List HostEvent) : (s.queue rest).delay = s.delay := rfl
@[simp] theorem State.queue_draws (rest : List HostEvent) : (s.queue rest).draws = s.draws := rfl

/-! tick -/

@[simp] theorem State.tick_maxBatch : s.tick.maxBatch = s.maxBatch := rfl
@[simp] theorem State.tick_cfgBatch : s.tick.cfgBatch = s.cfgBatch := rfl
@[simp] theorem State.tick_cfgRate : s.tick.cfgRate = s.cfgRate := rfl
@[simp] theorem State.tick_cfgMaxf : s.tick.cfgMaxf = s.cfgMaxf := rfl
@[simp] theorem State.tick_batch : s.tick.batch = s.batch := rfl
@[simp] theorem State.tick_rate : s.tick.rate = s.rate := rfl
@[simp] theorem State.tick_maxf : s.tick.maxf = s.maxf := rfl
@[simp] theorem State.tick_minPeriod : s.tick.minPeriod = s.minPeriod := rfl
@[simp] theorem State.tick_minFreqLo : s.tick.minFreqLo = s.minFreqLo := rfl
@[simp] theorem State.tick_minFreqHi : s.tick.minFreqHi = s.minFreqHi := rfl
@[simp] theorem State.tick_globalMax : s.tick.globalMax = s.globalMax := rfl
@[simp] theorem State.tick_bestValue : s.tick.bestValue = s.bestValue := rfl
@[simp] theorem State.tick_bestLag : s.tick.bestLag = s.bestLag := rfl
@[simp] theorem State.tick_lag : s.tick.lag = s.lag := rfl
@[simp] theorem State.tick_startEdge : s.tick.startEdge = s.startEdge := rfl
@[simp] theorem State.tick_nextEdge : s.tick.nextEdge = s.nextEdge := rfl
@[simp] theorem State.tick_lagSampLo : s.tick.lagSampLo = s.lagSampLo := rfl
@[simp] theorem State.tick_lagSampHi : s.tick.lagSampHi = s.lagSampHi := rfl
@[simp] theorem State.tick_pitchLo : s.tick.pitchLo = s.pitchLo := rfl
@[simp] theorem State.tick_pitchHi : s.tick.pitchHi = s.pitchHi := rfl
@[simp] theorem State.tick_busy : s.tick.busy = s.busy := rfl
@[simp] theorem State.tick_det : s.tick.det = s.det := rfl
@[simp] theorem State.tick_pitchValid : s.tick.pitchValid = s.pitchValid := rfl
@[simp] theorem State.tick_proto : s.tick.proto = s.proto := rfl
@[simp] theorem State.tick_errCode : s.tick.errCode = s.errCode := rfl
@[simp] theorem State.tick_lastOp : s.tick.lastOp = s.lastOp := rfl
@[simp] theorem State.tick_resetHeld : s.tick.resetHeld = s.resetHeld := rfl
@[simp] theorem State.tick_pend : s.tick.pend = s.pend := rfl
@[simp] theorem State.tick_ram : s.tick.ram = s.ram := rfl
@[simp] theorem State.tick_inputs : s.tick.inputs = s.inputs := rfl
@[simp] theorem State.tick_reads : s.tick.reads = s.reads := rfl
@[simp] theorem State.tick_delay : s.tick.delay = s.delay - 1 := rfl
@[simp] theorem State.tick_draws : s.tick.draws = s.draws := rfl

/-! releaseReset -/

@[simp] theorem releaseReset_maxBatch : (releaseReset s).maxBatch = s.maxBatch := rfl
@[simp] theorem releaseReset_cfgBatch : (releaseReset s).cfgBatch = s.cfgBatch := rfl
@[simp] theorem releaseReset_cfgRate : (releaseReset s).cfgRate = s.cfgRate := rfl
@[simp] theorem releaseReset_cfgMaxf : (releaseReset s).cfgMaxf = s.cfgMaxf := rfl
@[simp] theorem releaseReset_batch : (releaseReset s).batch = s.batch := rfl
@[simp] theorem releaseReset_rate : (releaseReset s).rate = s.rate := rfl
@[simp] theorem releaseReset_maxf : (releaseReset s).maxf = s.maxf := rfl
@[simp] theorem releaseReset_minPeriod : (releaseReset s).minPeriod = s.minPeriod := rfl
@[simp] theorem releaseReset_minFreqLo : (releaseReset s).minFreqLo = s.minFreqLo := rfl
@[simp] theorem releaseReset_minFreqHi : (releaseReset s).minFreqHi = s.minFreqHi := rfl
@[simp] theorem releaseReset_globalMax : (releaseReset s).globalMax = s.globalMax := rfl
@[simp] theorem releaseReset_bestValue : (releaseReset s).bestValue = s.bestValue := rfl
@[simp] theorem releaseReset_bestLag : (releaseReset s).bestLag = s.bestLag := rfl
@[simp] theorem releaseReset_lag : (releaseReset s).lag = s.lag := rfl
@[simp] theorem releaseReset_startEdge : (releaseReset s).startEdge = s.startEdge := rfl
@[simp] theorem releaseReset_nextEdge : (releaseReset s).nextEdge = s.nextEdge := rfl
@[simp] theorem releaseReset_lagSampLo : (releaseReset s).lagSampLo = s.lagSampLo := rfl
@[simp] theorem releaseReset_lagSampHi : (releaseReset s).lagSampHi = s.lagSampHi := rfl
@[simp] theorem releaseReset_pitchLo : (releaseReset s).pitchLo = s.pitchLo := rfl
@[simp] theorem releaseReset_pitchHi : (releaseReset s).pitchHi = s.pitchHi := rfl
@[simp] theorem releaseReset_busy : (releaseReset s).busy = s.busy := rfl
@[simp] theorem releaseReset_det : (releaseReset s).det = s.det := rfl
@[simp] theorem releaseReset_pitchValid : (releaseReset s).pitchValid = s.pitchValid := rfl
@[simp] theorem releaseReset_proto : (releaseReset s).proto = s.proto := rfl
@[simp] theorem releaseReset_errCode : (releaseReset s).errCode = s.errCode := rfl
@[simp] theorem releaseReset_lastOp : (releaseReset s).lastOp = s.lastOp := rfl
@[simp] theorem releaseReset_resetHeld : (releaseReset s).resetHeld = false := rfl
@[simp] theorem releaseReset_pend : (releaseReset s).pend = s.pend := rfl
@[simp] theorem releaseReset_ram : (releaseReset s).ram = s.ram := rfl
@[simp] theorem releaseReset_inputs : (releaseReset s).inputs = s.inputs := rfl
@[simp] theorem releaseReset_reads : (releaseReset s).reads = s.reads := rfl
@[simp] theorem releaseReset_delay : (releaseReset s).delay = s.delay := rfl
@[simp] theorem releaseReset_draws : (releaseReset s).draws = s.draws := rfl

end

end Sys2Proof.Machine
end

