-- ==== Sys2Proof/Laws/Ops.lean ====
section
/-! SUPPORT. How a command ends, said once: `finish`, `runCommand` and the sequencing of stages. -/

namespace Sys2Proof.Machine

@[simp] theorem finish_complete (op : Byte) (s : State) : finish op (.complete s) = s.retire op .ok := rfl

@[simp] theorem finish_raise (op : Byte) (e : ErrCode) (s : State) :
    finish op (.raise e s) = s.retire op e := rfl

@[simp] theorem Ending.andThen_complete (s : State) (f : State → Ending) :
    (Ending.complete s).andThen f = f s := rfl

@[simp] theorem Ending.andThen_raise (e : ErrCode) (s : State) (f : State → Ending) :
    (Ending.raise e s).andThen f = .raise e s := rfl

@[simp] theorem Ending.state_complete (s : State) : (Ending.complete s).state = s := rfl

@[simp] theorem Ending.state_raise (e : ErrCode) (s : State) : (Ending.raise e s).state = s := rfl

@[simp] theorem Ending.code_complete (s : State) : (Ending.complete s).code = .ok := rfl

@[simp] theorem Ending.code_raise (e : ErrCode) (s : State) : (Ending.raise e s).code = e := rfl

theorem runCommand_admitted (i : Instr) (body : State → Ending) (s : State)
    (h : s.det ∈ precondition i) : runCommand i body s = finish (opcode i) (body s) := if_pos h

theorem runCommand_notReady (i : Instr) (body : State → Ending) (s : State)
    (h : s.det ∉ precondition i) : runCommand i body s = s.retire (opcode i) .notReady := if_neg h

/-- What completing a command can do: in an admitted STATE, its body and the outcome; otherwise the
NotReady outcome alone (46_detector.md R203). -/
theorem runCommand_cases (i : Instr) (body : State → Ending) (s : State) :
    (s.det ∈ precondition i ∧ runCommand i body s = (body s).state.retire (opcode i) (body s).code) ∨
      (s.det ∉ precondition i ∧ runCommand i body s = s.retire (opcode i) .notReady) := by
  by_cases h : s.det ∈ precondition i
  · exact .inl ⟨h, runCommand_admitted i body s h⟩
  · exact .inr ⟨h, runCommand_notReady i body s h⟩

@[simp] theorem runCommand_busy (i : Instr) (body : State → Ending) (s : State) :
    (runCommand i body s).busy = false := by
  rcases runCommand_cases i body s with ⟨_, h⟩ | ⟨_, h⟩ <;> rw [h] <;> rfl

@[simp] theorem runCommand_lastOp (i : Instr) (body : State → Ending) (s : State) :
    (runCommand i body s).lastOp = opcode i := by
  rcases runCommand_cases i body s with ⟨_, h⟩ | ⟨_, h⟩ <;> rw [h] <;> rfl

/-- The body exec runs for each command: every meaning is one `runCommand` (46_detector.md R201). -/
def bodyOf : Instr → State → Ending
  | .nop => nopBody
  | .config => configBody
  | .supply len => supplyBody len
  | .run => runBody
  | .clear => clearBody
  | .sreset => sresetBody
  | .pack => packBody
  | .shift => shiftBody
  | .corr => corrBody
  | .harm => harmBody
  | .pitch => pitchBody

theorem exec_eq_runCommand (i : Instr) (s : State) : exec i s = .next (runCommand i (bodyOf i) s) := by
  cases i <;> rfl

/-- What exec can answer, said once: the next state that `runCommand` makes of the command's body. -/
theorem exec_next_iff (i : Instr) (s t : State) :
    exec i s = .next t ↔ t = runCommand i (bodyOf i) s := by
  rw [exec_eq_runCommand]
  constructor
  · intro h; cases h; rfl
  · rintro rfl; rfl

end Sys2Proof.Machine
end

