-- ==== Sys2Proof/Laws/Configure.lean ====
section
/-! SUPPORT. What the configuration check can answer, and what the two commands make of it. -/

namespace Sys2Proof.Machine

/-- The five endings of `Validate`, said once (40_config.md R110 to R115). The last failing check cannot
be reached (R119); it stays a case here. -/
theorem validate_cases (cap n r f : Nat) :
    ((n ≤ 1 ∨ n % 2 ≠ 0 ∨ n % 8 ≠ 0 ∨ n > cap) ∧ validate cap n r f = .error .invalidBatchSize) ∨
    (1 < n ∧ n % 8 = 0 ∧ n ≤ cap ∧
      ((r ≤ 1 ∧ validate cap n r f = .error .invalidSampleRate) ∨
       (1 < r ∧ f * (n / 2) ≤ r ∧ validate cap n r f = .error .invalidFrequencyRange) ∨
       (1 < r ∧ r < f * (n / 2) ∧ n ≤ r / f ∧ validate cap n r f = .error .invalidFrequencyRange) ∨
       (1 < r ∧ r < f * (n / 2) ∧ r / f < n ∧ validate cap n r f = .ok (r / f, minFrequency n r)))) := by
  unfold validate
  by_cases h1 : n ≤ 1 ∨ n % 2 ≠ 0 ∨ n % 8 ≠ 0 ∨ n > cap
  · exact .inl ⟨h1, if_pos h1⟩
  · refine .inr ⟨by omega, by omega, by omega, ?_⟩
    rw [if_neg h1]
    by_cases h2 : r ≤ 1
    · exact .inl ⟨h2, if_pos h2⟩
    · rw [if_neg h2]
      by_cases h3 : f * (n / 2) ≤ r
      · exact .inr (.inl ⟨by omega, h3, if_pos h3⟩)
      · rw [if_neg h3]
        by_cases h4 : r / f ≥ n
        · exact .inr (.inr (.inl ⟨by omega, by omega, h4, if_pos h4⟩))
        · exact .inr (.inr (.inr ⟨by omega, by omega, by omega, if_neg h4⟩))

/-- What CONFIG's pseudocode can do (40_config.md R116). -/
theorem configBody_cases (s : State) :
    (∃ e, validate s.maxBatch.toNat s.cfgBatch.toNat s.cfgRate.toNat s.cfgMaxf.toNat = .error e ∧
        configBody s = .raise e s) ∨
      (∃ mp mf, validate s.maxBatch.toNat s.cfgBatch.toNat s.cfgRate.toNat s.cfgMaxf.toNat = .ok (mp, mf) ∧
        configBody s =
          .complete (s.adoptConfig s.cfgBatch.toNat s.cfgRate.toNat s.cfgMaxf.toNat mp mf)) := by
  unfold configBody
  cases h : validate s.maxBatch.toNat s.cfgBatch.toNat s.cfgRate.toNat s.cfgMaxf.toNat with
  | error e => exact .inl ⟨e, rfl, rfl⟩
  | ok p => exact .inr ⟨p.1, p.2, rfl, rfl⟩

/-- What SUPPLY's pseudocode can do (46_detector.md R204). -/
theorem supplyBody_cases (len : Nat) (s : State) :
    (∃ e, validate s.maxBatch.toNat len s.rate.toNat s.maxf.toNat = .error e ∧
        supplyBody len s = .raise e s) ∨
      (∃ mp mf, validate s.maxBatch.toNat len s.rate.toNat s.maxf.toNat = .ok (mp, mf) ∧
        supplyBody len s = .complete (s.adoptLength len mp mf)) := by
  unfold supplyBody
  cases h : validate s.maxBatch.toNat len s.rate.toNat s.maxf.toNat with
  | error e => exact .inl ⟨e, rfl, rfl⟩
  | ok p => exact .inr ⟨p.1, p.2, rfl, rfl⟩

end Sys2Proof.Machine
end

