-- ==== Sys2Proof/Laws/Decode.lean ====
section
/-! SUPPORT. The fields of a command word, and what decoding can answer. -/

namespace Sys2Proof

@[simp] theorem opcField_append (imm : BitVec 24) (opc : Byte) : opcField (imm ++ opc) = opc := by
  apply BitVec.eq_of_getLsbD_eq
  intro i hi
  have h : (imm ++ opc).getLsbD i = opc.getLsbD i := by rw [BitVec.getLsbD_append]; simp [hi]
  simpa [opcField, hi] using h

@[simp] theorem immField_append (imm : BitVec 24) (opc : Byte) : immField (imm ++ opc) = imm := by
  apply BitVec.eq_of_getLsbD_eq
  intro i hi
  have h : (imm ++ opc).getLsbD (8 + i) = imm.getLsbD i := by rw [BitVec.getLsbD_append]; simp
  simpa [immField, hi] using h

/-- A word is its two fields. -/
theorem fields_append (w : Word) : immField w ++ opcField w = w := by
  apply BitVec.eq_of_getLsbD_eq
  intro i hi
  simp only [opcField, immField, BitVec.getLsbD_append, BitVec.getLsbD_extractLsb']
  by_cases h : i < 8
  · simp [h]
  · simp [h, show 8 + (i - 8) = i by omega, show i - 8 < 24 by omega]

@[simp] theorem opcField_encode (i : Instr) : opcField (encode i) = opcode i := opcField_append _ _

@[simp] theorem immField_encode (i : Instr) : immField (encode i) = immediate i := immField_append _ _

/-- What decoding can answer, said once: SUPPLY with its length, a plain command whose opcode is the
OPC field and whose IMM is 0, or one of the two errors. -/
theorem decode_cases (w : Word) :
    (opcField w = 0x02#8 ∧ decode w = .ok (.supply (immField w).toNat)) ∨
    (∃ i ∈ plainCommands, opcode i = opcField w ∧ immField w = 0#24 ∧ decode w = .ok i) ∨
    (opcField w ≠ 0x02#8 ∧ (∀ i ∈ plainCommands, opcode i ≠ opcField w) ∧
      decode w = .error (.reservedOpcode (opcField w))) ∨
    (opcField w ≠ 0x02#8 ∧ immField w ≠ 0#24 ∧
      decode w = .error (.nonzeroImmediate (opcField w) (immField w))) := by
  unfold decode
  split
  · rename_i h; exact .inl ⟨h, rfl⟩
  · rename_i h
    split
    · rename_i hf
      exact .inr (.inr (.inl ⟨h, by simpa using hf, rfl⟩))
    · rename_i i hf
      have hi := List.mem_of_find?_eq_some hf
      have ho : opcode i = opcField w := by simpa using List.find?_some hf
      split
      · rename_i h0; exact .inr (.inl ⟨i, hi, ho, h0, rfl⟩)
      · rename_i h0; exact .inr (.inr (.inr ⟨h, h0, rfl⟩))

/-- A decoded command carries the word's opcode. -/
theorem opcode_of_decode (w : Word) (i : Instr) (h : decode w = .ok i) : opcode i = opcField w := by
  rcases decode_cases w with ⟨ho, hd⟩ | ⟨j, _, ho, _, hd⟩ | ⟨_, _, hd⟩ | ⟨_, _, hd⟩ <;> rw [hd] at h
  · cases h; exact ho.symm
  · cases h; exact ho
  · cases h
  · cases h

end Sys2Proof
end

