-- ==== Sys2Proof/Laws/Harmonic.lean ====
section
/-! SUPPORT. The searches of the harmonic analyzer: largest value, first smallest value, first accepted
division. -/

namespace Sys2Proof.Machine

theorem le_curveMax (curve : Nat → Nat) (n i : Nat) (h : i < n) : curve i ≤ curveMax curve n := by
  induction n with
  | zero => omega
  | succ n ih =>
    simp only [curveMax]
    by_cases hi : i = n
    · subst hi; exact le_max_right _ _
    · exact le_trans (ih (by omega)) (le_max_left _ _)

theorem curveMax_attained (curve : Nat → Nat) (n : Nat) (h : 0 < n) :
    ∃ i, i < n ∧ curve i = curveMax curve n := by
  induction n with
  | zero => omega
  | succ n ih =>
    simp only [curveMax]
    by_cases hn : n = 0
    · subst hn; exact ⟨0, by omega, by simp [curveMax]⟩
    · obtain ⟨i, hi, he⟩ := ih (by omega)
      rcases le_total (curveMax curve n) (curve n) with hle | hle
      · exact ⟨n, by omega, by rw [max_eq_right hle]⟩
      · exact ⟨i, by omega, by rw [max_eq_left hle, he]⟩

/-- The first smallest value (44_harmonic.md R162): in range, no value smaller, every earlier one
larger. -/
theorem argMin_spec (curve : Nat → Nat) (lo n : Nat) (h : 0 < n) :
    (lo ≤ argMin curve lo n ∧ argMin curve lo n < lo + n) ∧
      (∀ i, lo ≤ i → i < lo + n → curve (argMin curve lo n) ≤ curve i) ∧
      (∀ i, lo ≤ i → i < argMin curve lo n → curve (argMin curve lo n) < curve i) := by
  induction n with
  | zero => omega
  | succ n ih =>
    by_cases hn : n = 0
    · subst hn
      have e : argMin curve lo 1 = lo := by simp [argMin, smallerAt]
      rw [e]
      refine ⟨by omega, fun i h1 h2 => ?_, fun i h1 h2 => by omega⟩
      rw [show i = lo by omega]
    · obtain ⟨⟨h1, h2⟩, h3, h4⟩ := ih (by omega)
      simp only [argMin, smallerAt]
      split
      · rename_i hlt
        refine ⟨by omega, fun i hi hi' => ?_, fun i hi hi' => lt_of_lt_of_le hlt (h3 i hi hi')⟩
        by_cases he : i = lo + n
        · rw [he]
        · exact le_of_lt (lt_of_lt_of_le hlt (h3 i hi (by omega)))
      · rename_i hge
        refine ⟨by omega, fun i hi hi' => ?_, h4⟩
        by_cases he : i = lo + n
        · rw [he]; omega
        · exact h3 i hi (by omega)

/-- A division is accepted exactly when its every index passes (44_harmonic.md R165). -/
theorem divisionPasses_iff (curve : Nat → Nat) (g bl d : Nat) :
    divisionPasses curve g bl d = true ↔
      ∀ k, 1 ≤ k → k ≤ d - 1 → 20 * curve (k * bl / d) ≤ 3 * g := by
  simp only [divisionPasses, List.all_eq_true, List.mem_range, underThreshold, decide_eq_true_eq]
  constructor
  · intro h k h1 h2
    have := h (k - 1) (by omega)
    rwa [show k - 1 + 1 = k by omega] at this
  · intro h j hj
    exact h (j + 1) (by omega) (by omega)

/-- The search from the top: the answer is accepted and nothing above it is (44_harmonic.md R165). -/
theorem acceptedDivision_spec (curve : Nat → Nat) (g bl n d : Nat)
    (h : acceptedDivision curve g bl n = some d) :
    (1 ≤ d ∧ d ≤ n) ∧ divisionPasses curve g bl d = true ∧
      ∀ d', d < d' → d' ≤ n → divisionPasses curve g bl d' = false := by
  induction n with
  | zero => simp [acceptedDivision] at h
  | succ n ih =>
    simp only [acceptedDivision] at h
    split at h
    · rename_i hp
      cases h
      exact ⟨by omega, hp, fun d' h1 h2 => by omega⟩
    · rename_i hp
      obtain ⟨h1, h2, h3⟩ := ih h
      refine ⟨by omega, h2, fun d' hd hd' => ?_⟩
      by_cases he : d' = n + 1
      · rw [he]; simpa using hp
      · exact h3 d' hd (by omega)

/-- The search always accepts a division: at the latest d = 1 (44_harmonic.md R167). -/
theorem acceptedDivision_isSome (curve : Nat → Nat) (g bl n : Nat) (h : 1 ≤ n) :
    ∃ d, acceptedDivision curve g bl n = some d := by
  induction n with
  | zero => omega
  | succ n ih =>
    simp only [acceptedDivision]
    split
    · exact ⟨_, rfl⟩
    · rename_i hp
      by_cases hn : n = 0
      · subst hn; exact absurd rfl hp
      · exact ih (by omega)

/-- What HARM's body can do, said once: the three results, then DegenerateLag when MINPERIOD = 0, and
otherwise LAG where a division was accepted (44_harmonic.md R160). -/
theorem harmBody_cases (s : State) (h : HarmResult)
    (hh : h = analyzeCurve (curveAt s) (activeN2 s) s.minPeriod.toNat) :
    (s.minPeriod.toNat = 0 ∧
        harmBody s = .raise .degenerateLag (s.setBest h.globalMax h.bestValue h.bestLag)) ∨
      (s.minPeriod.toNat ≠ 0 ∧
        harmBody s = .complete ((s.setBest h.globalMax h.bestValue h.bestLag).setCorrected h.corrected)) := by
  subst hh
  by_cases h0 : s.minPeriod.toNat = 0
  · exact .inl ⟨h0, by simp [harmBody, h0]⟩
  · exact .inr ⟨h0, by simp [harmBody, h0]⟩

end Sys2Proof.Machine
end

