-- ==== Sys2Proof/Laws/Memory.lean ====
section
/-! SUPPORT. What the RAM operations do: reading after writing, and the canonical form kept. -/

namespace Sys2Proof.Machine

@[simp] theorem Memory.written?_nil (a : Nat) : Memory.written? [] a = none := rfl

theorem Memory.written?_cons (b : Nat) (v : Byte) (rest : Memory) (a : Nat) :
    Memory.written? ((b, v) :: rest) a = if a = b then some v else Memory.written? rest a := rfl

/-- Storing a byte changes that byte and no other. -/
theorem Memory.written?_set (m : Memory) (a x : Nat) (v : Byte) :
    Memory.written? (Memory.set m a v) x = if x = a then some v else Memory.written? m x := by
  induction m with
  | nil => rfl
  | cons c rest ih =>
    obtain ⟨b, w⟩ := c
    unfold Memory.set
    split
    · simp [Memory.written?_cons]
    · split
      · rename_i h; subst h
        simp only [Memory.written?_cons]; split <;> rfl
      · simp only [Memory.written?_cons, ih]
        by_cases h : x = b
        · subst h; simp_all; omega
        · simp [h]

/-- Reading a byte after a store: the stored byte at its offset, the old one elsewhere. -/
theorem Memory.read_set (m : Memory) (a x : Nat) (v : Byte) :
    Memory.read (Memory.set m a v) x = if x = a then v else Memory.read m x := by
  unfold Memory.read
  rw [Memory.written?_set]
  split <;> rfl

/-- Reading a byte of a written run: the byte given, or, outside the run, the old one. -/
theorem Memory.read_writeBytes (vs : List Byte) (m : Memory) (a x : Nat) :
    Memory.read (Memory.writeBytes m a vs) x =
      if h : a ≤ x ∧ x - a < vs.length then vs[x - a] else Memory.read m x := by
  induction vs generalizing m a with
  | nil => simp [Memory.writeBytes]
  | cons v vs ih =>
    rw [Memory.writeBytes, ih, Memory.read_set]
    by_cases h1 : a + 1 ≤ x ∧ x - (a + 1) < vs.length
    · have h2 : a ≤ x ∧ x - a < (v :: vs).length := by simp only [List.length_cons]; omega
      have h3 : x - a = (x - (a + 1)) + 1 := by omega
      rw [dif_pos h1, dif_pos h2]
      simp only [h3, List.getElem_cons_succ]
    · rw [dif_neg h1]
      by_cases h2 : x = a
      · subst h2; simp
      · have h3 : ¬(a ≤ x ∧ x - a < (v :: vs).length) := by simp only [List.length_cons]; omega
        rw [if_neg h2, dif_neg h3]

theorem Memory.read_writeBytes_outside (vs : List Byte) (m : Memory) (a x : Nat)
    (h : x < a ∨ a + vs.length ≤ x) : Memory.read (Memory.writeBytes m a vs) x = Memory.read m x := by
  rw [Memory.read_writeBytes, dif_neg (by omega)]

theorem Memory.read_writeBytes_inside (vs : List Byte) (m : Memory) (a k : Nat) (h : k < vs.length) :
    Memory.read (Memory.writeBytes m a vs) (a + k) = vs[k] := by
  rw [Memory.read_writeBytes, dif_pos (by omega)]
  simp

/-- The words of two memories agree where their bytes do. -/
theorem Memory.readWord_congr (m n : Memory) (a : Nat)
    (h : ∀ q, q < 4 → Memory.read m (a + q) = Memory.read n (a + q)) :
    Memory.readWord m a = Memory.readWord n a := by
  have h0 := h 0 (by omega)
  simp only [Nat.add_zero] at h0
  simp only [Memory.readWord, h0, h 1 (by omega), h 2 (by omega), h 3 (by omega)]

/-- The four bytes of a word give it back. -/
theorem wordBytes_append (v : Word) :
    v.extractLsb' 24 8 ++ v.extractLsb' 16 8 ++ v.extractLsb' 8 8 ++ v.extractLsb' 0 8 = v := by
  apply BitVec.eq_of_getLsbD_eq
  intro i hi
  simp only [BitVec.getLsbD_append, BitVec.getLsbD_extractLsb']
  by_cases h1 : i < 8
  · simp [h1]
  · by_cases h2 : i - 8 < 8
    · simp [h1, h2, show 8 + (i - 8) = i by omega]
    · by_cases h3 : i - 8 - 8 < 8
      · simp [h1, h2, h3, show 16 + (i - 8 - 8) = i by omega]
      · simp [h1, h2, h3, show 24 + (i - 8 - 8 - 8) = i by omega, show i - 8 - 8 - 8 < 8 by omega]

@[simp] theorem wordBytes_length (v : Word) : (wordBytes v).length = 4 := rfl

/-- A word is read back as it was written. -/
theorem Memory.readWord_writeWord (m : Memory) (a : Nat) (v : Word) :
    Memory.readWord (Memory.writeWord m a v) a = v := by
  have hb : ∀ q (h : q < 4), Memory.read (Memory.writeWord m a v) (a + q) =
      (wordBytes v)[q]'(by simpa using h) :=
    fun q h => Memory.read_writeBytes_inside (wordBytes v) m a q (by simpa using h)
  have h0 := hb 0 (by omega)
  simp only [Nat.add_zero] at h0
  simp only [Memory.readWord, h0, hb 1 (by omega), hb 2 (by omega), hb 3 (by omega)]
  exact wordBytes_append v

/-- Writing a word leaves every byte outside it alone. -/
theorem Memory.read_writeWord_outside (m : Memory) (a x : Nat) (v : Word) (h : x < a ∨ a + 4 ≤ x) :
    Memory.read (Memory.writeWord m a v) x = Memory.read m x :=
  Memory.read_writeBytes_outside (wordBytes v) m a x (by simpa using h)

@[simp] theorem Memory.readBytes_length (m : Memory) (a len : Nat) :
    (Memory.readBytes m a len).length = len := by simp [Memory.readBytes]

@[simp] theorem Memory.readBytes_getElem (m : Memory) (a len k : Nat)
    (h : k < (Memory.readBytes m a len).length) :
    (Memory.readBytes m a len)[k] = Memory.read m (a + k) := by simp [Memory.readBytes]

theorem Memory.risingFrom_mono (m : Memory) (lo hi : Nat) (hle : lo ≤ hi)
    (h : Memory.risingFrom hi m = true) : Memory.risingFrom lo m = true := by
  cases m with
  | nil => rfl
  | cons c rest =>
    simp only [Memory.risingFrom, Bool.and_eq_true, decide_eq_true_eq] at h ⊢
    exact ⟨by omega, h.2⟩

theorem Memory.risingFrom_set (m : Memory) (lo a : Nat) (v : Byte) (hlo : lo ≤ a)
    (h : Memory.risingFrom lo m = true) : Memory.risingFrom lo (Memory.set m a v) = true := by
  induction m generalizing lo with
  | nil => simp [Memory.set, Memory.risingFrom, hlo]
  | cons c rest ih =>
    obtain ⟨b, w⟩ := c
    simp only [Memory.risingFrom, Bool.and_eq_true, decide_eq_true_eq] at h
    unfold Memory.set
    split
    · simp only [Memory.risingFrom, Bool.and_eq_true, decide_eq_true_eq]
      exact ⟨hlo, by omega, h.2⟩
    · split
      · rename_i he; subst he
        simp only [Memory.risingFrom, Bool.and_eq_true, decide_eq_true_eq]
        exact ⟨h.1, h.2⟩
      · simp only [Memory.risingFrom, Bool.and_eq_true, decide_eq_true_eq]
        exact ⟨h.1, ih (b + 1) (by omega) h.2⟩

/-- Storing a byte keeps the canonical form. -/
theorem Memory.wf_set (m : Memory) (a : Nat) (v : Byte) (h : Memory.wf m = true) :
    Memory.wf (Memory.set m a v) = true := Memory.risingFrom_set m 0 a v (Nat.zero_le a) h

/-- Storing a run of bytes keeps the canonical form. -/
theorem Memory.wf_writeBytes (vs : List Byte) (m : Memory) (a : Nat) (h : Memory.wf m = true) :
    Memory.wf (Memory.writeBytes m a vs) = true := by
  induction vs generalizing m a with
  | nil => exact h
  | cons v vs ih => exact ih _ _ (Memory.wf_set m a v h)

/-- Storing a word keeps the canonical form. -/
theorem Memory.wf_writeWord (m : Memory) (a : Nat) (v : Word) (h : Memory.wf m = true) :
    Memory.wf (Memory.writeWord m a v) = true := Memory.wf_writeBytes (wordBytes v) m a h

/-- The memory right after reset is in canonical form. -/
theorem Memory.wf_reset : Memory.wf State.reset.ram = true := rfl

/-- A property of offsets that every listed entry has is kept by a store at an offset that has it. -/
theorem Memory.forall_set (P : Nat → Prop) (m : Memory) (a : Nat) (v : Byte) (ha : P a)
    (h : ∀ c ∈ m, P c.1) : ∀ c ∈ Memory.set m a v, P c.1 := by
  induction m with
  | nil => simpa [Memory.set] using ha
  | cons c rest ih =>
    obtain ⟨b, w⟩ := c
    have hb : P b := h (b, w) (by simp)
    have hr : ∀ c ∈ rest, P c.1 := fun c hc => h c (by simp [hc])
    unfold Memory.set
    split
    · intro c hc
      rcases List.mem_cons.1 hc with rfl | hc
      · exact ha
      · exact h c hc
    · split
      · intro c hc
        rcases List.mem_cons.1 hc with rfl | hc
        · exact ha
        · exact hr c hc
      · intro c hc
        rcases List.mem_cons.1 hc with rfl | hc
        · exact hb
        · exact ih hr c hc

theorem Memory.forall_writeBytes (P : Nat → Prop) (vs : List Byte) (m : Memory) (a : Nat)
    (ha : ∀ k, k < vs.length → P (a + k)) (h : ∀ c ∈ m, P c.1) :
    ∀ c ∈ Memory.writeBytes m a vs, P c.1 := by
  induction vs generalizing m a with
  | nil => exact h
  | cons v vs ih =>
    refine ih _ _ (fun k hk => ?_) (Memory.forall_set P m a v (ha 0 (by simp)) h)
    have := ha (k + 1) (by simp; omega)
    rwa [show a + 1 + k = a + (k + 1) by omega]

end Sys2Proof.Machine
end

