-- ==== Sys2Proof/Laws/HostPort.lean ====
section
/-! SUPPORT. What a port transaction and the reset input can do. -/

namespace Sys2Proof.Machine

/-- The word a transaction acts on (20_memory.md R67). -/
theorem wordOffset_eq (off : Offset) : wordOffset off = off.toNat / 4 * 4 := by
  unfold wordOffset; omega

/-- What a read can do: hand over a word, drawing it where the pending command writes that state. -/
theorem portRead_cases (s : State) (off : Offset) :
    ((s.busy && pendingWrites s (wordOffset off)) = true ∧
        portRead s off = (s.give (Config.unspecifiedRead s.draws)).drawn) ∨
      ((s.busy && pendingWrites s (wordOffset off)) = false ∧
        portRead s off = s.give (currentWord s (wordOffset off))) := by
  unfold portRead
  cases h : s.busy && pendingWrites s (wordOffset off)
  · exact .inr ⟨rfl, by simp⟩
  · exact .inl ⟨rfl, by simp⟩

/-- What a register write can do: issue a command, store into one of the four RW registers, or nothing
(10_state.md R23). -/
theorem writeReg_cases (s : State) (v : Word) (r : Reg) :
    (r = .cmd ∧ writeReg s v r = s.issue v) ∨ (r = .cfgBatch ∧ writeReg s v r = { s with cfgBatch := v }) ∨
      (r = .cfgRate ∧ writeReg s v r = { s with cfgRate := v }) ∨
      (r = .cfgMaxf ∧ writeReg s v r = { s with cfgMaxf := v }) ∨
      (r = .lag ∧ writeReg s v r = s.setLag v) ∨ writeReg s v r = s := by
  cases r <;> simp [writeReg]

/-- What a write can do: during BUSY set PROTO; otherwise write a register, which it cannot while reset is
asserted, a RAM word, or nothing (20_memory.md R63 to R66, 70_reset_and_hazards.md R260 and R270). -/
theorem portWrite_cases (s : State) (off : Offset) (v : Word) :
    (s.busy = true ∧ portWrite s off v = s.setProto true) ∨
      (s.busy = false ∧
        ((s.resetHeld = false ∧
            ∃ r, Reg.at? (wordOffset off) = some r ∧ portWrite s off v = writeReg s v r) ∨
          (regionOf s.maxBatch.toNat (wordOffset off) ∈ [Region.sample, .packed, .curve] ∧
            portWrite s off v = s.setRam (Memory.writeWord s.ram (wordOffset off) v)) ∨
          portWrite s off v = s)) := by
  unfold portWrite
  cases hb : s.busy with
  | true => exact .inl ⟨rfl, by simp⟩
  | false =>
    refine .inr ⟨rfl, ?_⟩
    simp only [Bool.false_eq_true, if_false]
    unfold writeCurrent
    cases hr : regionOf s.maxBatch.toNat (wordOffset off) with
    | registers =>
      cases hh : s.resetHeld with
      | true => exact .inr (.inr (by simp))
      | false =>
        cases ha : Reg.at? (wordOffset off) with
        | none => exact .inr (.inr (by simp))
        | some r => exact .inl ⟨rfl, r, rfl, by simp⟩
    | sample => exact .inr (.inl ⟨by simp, rfl⟩)
    | packed => exact .inr (.inl ⟨by simp, rfl⟩)
    | curve => exact .inr (.inl ⟨by simp, rfl⟩)
    | shift => exact .inr (.inr rfl)
    | reserved => exact .inr (.inr rfl)

theorem abandonSpans_cons (draw : Nat) (m : Memory) (p : Nat × Nat) (ps : List (Nat × Nat)) :
    abandonSpans draw m (p :: ps) =
      abandonSpans draw (Memory.writeBytes m p.1
        ((List.range p.2).map (fun k => Config.abandonedByte draw (p.1 + k)))) ps := rfl

/-- The bytes after a reset during BUSY: free values inside the spans, the old ones outside
(70_reset_and_hazards.md R263). -/
theorem read_abandonSpans (draw : Nat) (spans : List (Nat × Nat)) (m : Memory) (a : Nat) :
    Memory.read (abandonSpans draw m spans) a =
      if inSpans spans a = true then Config.abandonedByte draw a else Memory.read m a := by
  induction spans generalizing m with
  | nil => rfl
  | cons p ps ih =>
    rw [abandonSpans_cons, ih, Memory.read_writeBytes]
    by_cases h1 : inSpans ps a = true
    · have h2 : inSpans (p :: ps) a = true := by
        simp only [inSpans, List.any_cons, Bool.or_eq_true] at h1 ⊢; exact .inr h1
      rw [if_pos h1, if_pos h2]
    · rw [if_neg h1]
      by_cases h3 : p.1 ≤ a ∧ a < p.1 + p.2
      · have h2 : inSpans (p :: ps) a = true := by simp [inSpans, h3.1, h3.2]
        rw [if_pos h2, dif_pos (by simp; omega)]
        simp [show p.1 + (a - p.1) = a by omega]
      · have h2 : inSpans (p :: ps) a ≠ true := by
          intro h
          simp only [inSpans, List.any_cons, Bool.or_eq_true, Bool.and_eq_true, decide_eq_true_eq] at h
          rcases h with h | h
          · exact h3 h
          · exact h1 h
        rw [if_neg h2, dif_neg (by simp; omega)]

theorem wf_abandonSpans (draw : Nat) (spans : List (Nat × Nat)) (m : Memory) (h : Memory.wf m = true) :
    Memory.wf (abandonSpans draw m spans) = true := by
  induction spans generalizing m with
  | nil => exact h
  | cons p ps ih => exact ih _ (Memory.wf_writeBytes _ _ _ h)

theorem forall_abandonSpans (P : Nat → Prop) (draw : Nat) (spans : List (Nat × Nat)) (m : Memory)
    (hP : ∀ p ∈ spans, ∀ k, k < p.2 → P (p.1 + k)) (h : ∀ c ∈ m, P c.1) :
    ∀ c ∈ abandonSpans draw m spans, P c.1 := by
  induction spans generalizing m with
  | nil => exact h
  | cons p ps ih =>
    rw [abandonSpans_cons]
    refine ih _ (fun q hq => hP q (by simp [hq])) ?_
    exact Memory.forall_writeBytes P _ _ _ (fun k hk => hP p (by simp) k (by simpa using hk)) h

/-- What asserting the reset input can do: all registers at their reset values, PEND and the delay 0, and
RAM kept, or with the pending command's bytes free (70_reset_and_hazards.md R260 and R263). -/
theorem assertReset_cases (s : State) :
    (s.busy = false ∧
        assertReset s = { s.clearRegisters with resetHeld := true, pend := 0#32, delay := 0 }) ∨
      (s.busy = true ∧
        assertReset s = { s.clearRegisters with
          resetHeld := true
          ram := abandonSpans s.draws s.ram (pendingSpans s)
          pend := 0#32
          delay := 0
          draws := s.draws + 1 }) := by
  unfold assertReset
  cases h : s.busy
  · exact .inl ⟨rfl, by simp⟩
  · exact .inr ⟨rfl, by simp⟩

end Sys2Proof.Machine
end

