-- ==== Sys2Proof/Laws/PerInstr.lean ====
section
/-! SUPPORT. One lemma per command: its word lies in its row of spec/opcode_table.json, that is, under
the row's mask it is the row's match, and it carries the command's operand. -/

namespace Sys2Proof.Laws

/-- The mask of a command's row in spec/opcode_table.json. -/
def rowMask : Instr → Word
  | .supply _ => 0x000000FF#32
  | .nop | .config | .run | .clear | .sreset => 0xFFFFFFFF#32
  | .pack | .shift | .corr | .harm | .pitch => 0xFFFFFFFF#32

/-- The match of a command's row in spec/opcode_table.json. -/
def rowMatch : Instr → Word
  | .nop => 0x00000000#32
  | .config => 0x00000001#32
  | .supply _ => 0x00000002#32
  | .run => 0x00000003#32
  | .clear => 0x00000004#32
  | .sreset => 0x00000005#32
  | .pack => 0x00000010#32
  | .shift => 0x00000011#32
  | .corr => 0x00000012#32
  | .harm => 0x00000013#32
  | .pitch => 0x00000014#32

/-- The operand a command's word carries above its opcode (30_encoding.md R92). -/
def operand : Instr → Nat
  | .supply len => len
  | .nop | .config | .run | .clear | .sreset | .pack | .shift | .corr | .harm | .pitch => 0

def TableWord.Statement (i : Instr) : Prop :=
  i.wf = true → encode i &&& rowMask i = rowMatch i ∧ (encode i).toNat / 256 = operand i

theorem TableWord.nop : TableWord.Statement .nop := fun _ => by decide
theorem TableWord.config : TableWord.Statement .config := fun _ => by decide
theorem TableWord.run : TableWord.Statement .run := fun _ => by decide
theorem TableWord.clear : TableWord.Statement .clear := fun _ => by decide
theorem TableWord.sreset : TableWord.Statement .sreset := fun _ => by decide
theorem TableWord.pack : TableWord.Statement .pack := fun _ => by decide
theorem TableWord.shift : TableWord.Statement .shift := fun _ => by decide
theorem TableWord.corr : TableWord.Statement .corr := fun _ => by decide
theorem TableWord.harm : TableWord.Statement .harm := fun _ => by decide
theorem TableWord.pitch : TableWord.Statement .pitch := fun _ => by decide

/-- The number a word of two fields is. -/
theorem append_toNat (imm : BitVec 24) (opc : Byte) :
    (imm ++ opc).toNat = imm.toNat * 256 + opc.toNat := by
  rw [BitVec.toNat_append, Nat.shiftLeft_eq, ← Nat.shiftLeft_eq, ← Nat.shiftLeft_add_eq_or_of_lt opc.isLt,
    Nat.shiftLeft_eq]

theorem TableWord.supply (len : Nat) : TableWord.Statement (.supply len) := by
  intro h
  have hlen : len < 2 ^ 24 := by simpa [Instr.wf] using h
  have ht : (encode (.supply len)).toNat = len * 256 + 2 := by
    have := append_toNat (BitVec.ofNat 24 len) (0x02#8)
    rw [BitVec.toNat_ofNat, Nat.mod_eq_of_lt hlen] at this
    exact this
  refine ⟨?_, by rw [ht]; simp only [operand]; omega⟩
  apply BitVec.eq_of_toNat_eq
  rw [BitVec.toNat_and, ht]
  have hm : (rowMask (.supply len)).toNat = 2 ^ 8 - 1 := rfl
  rw [hm, Nat.and_two_pow_sub_one_eq_mod]
  show (len * 256 + 2) % 2 ^ 8 = 2
  omega

end Sys2Proof.Laws
end

