-- ==== Sys2Proof/Laws/Pitch.lean ====
section
/-! SUPPORT. The refiner's scans and its four endings. -/

namespace Sys2Proof.Machine

/-- The scan answers the least crossing in its range (45_pitch.md R182 and R184). -/
theorem firstCrossing_eq_some (sample : Nat → Word) (lo n j : Nat) :
    firstCrossing sample lo n = some j ↔
      (lo ≤ j ∧ j < n) ∧ crossing sample j = true ∧ ∀ k, lo ≤ k → k < j → crossing sample k = false := by
  unfold firstCrossing
  constructor
  · intro h
    have hm := List.mem_of_find?_eq_some h
    rw [List.mem_range'_1] at hm
    refine ⟨by omega, List.find?_some h, fun k h1 h2 => ?_⟩
    obtain ⟨_, as, bs, he, hn⟩ := List.find?_eq_some_iff_append.1 h
    have hk : k ∈ List.range' lo (n - lo) := by rw [List.mem_range'_1]; omega
    rw [he, List.mem_append, List.mem_cons] at hk
    rcases hk with hk | rfl | hk
    · simpa using hn k hk
    · omega
    · exfalso
      have hp : (List.range' lo (n - lo)).Pairwise (· < ·) := List.pairwise_lt_range'
      rw [he, List.pairwise_append, List.pairwise_cons] at hp
      have := hp.2.1.1 k hk
      omega
  · rintro ⟨⟨h1, h2⟩, h3, h4⟩
    cases hf : (List.range' lo (n - lo)).find? (crossing sample) with
    | none =>
      rw [List.find?_eq_none] at hf
      exact absurd h3 (hf j (by rw [List.mem_range'_1]; omega))
    | some x =>
      have hx := List.find?_some hf
      have hm := List.mem_of_find?_eq_some hf
      rw [List.mem_range'_1] at hm
      rcases Nat.lt_trichotomy x j with hlt | heq | hgt
      · rw [h4 x (by omega) hlt] at hx; cases hx
      · rw [heq]
      · exfalso
        obtain ⟨_, as, bs, he, hn⟩ := List.find?_eq_some_iff_append.1 hf
        have hj : j ∈ List.range' lo (n - lo) := by rw [List.mem_range'_1]; omega
        have hp : (List.range' lo (n - lo)).Pairwise (· < ·) := List.pairwise_lt_range'
        rw [he, List.pairwise_append, List.pairwise_cons] at hp
        rw [he, List.mem_append, List.mem_cons] at hj
        rcases hj with hj | hj | hj
        · have := hn j hj
          rw [h3] at this
          exact absurd this (by decide)
        · omega
        · have := hp.2.1.1 j hj
          omega

/-- The scan finds nothing exactly when its range holds no crossing. -/
theorem firstCrossing_eq_none (sample : Nat → Word) (lo n : Nat) :
    firstCrossing sample lo n = none ↔ ∀ k, lo ≤ k → k < n → crossing sample k = false := by
  unfold firstCrossing
  rw [List.find?_eq_none]
  constructor
  · intro h k h1 h2
    simpa using h k (by rw [List.mem_range'_1]; omega)
  · intro h k hk
    rw [List.mem_range'_1] at hk
    simp [h k (by omega) (by omega)]

/-- What the refiner can answer, said once (45_pitch.md R180). -/
theorem refinePitch_cases (sample : Nat → Word) (n lag rate : Nat) :
    (firstCrossing sample 1 n = none ∧ refinePitch sample n lag rate = .noStart) ∨
    (∃ se, firstCrossing sample 1 n = some se ∧ firstCrossing sample (scanStart lag) n = none ∧
      refinePitch sample n lag rate = .noNext se) ∨
    (∃ se ne, firstCrossing sample 1 n = some se ∧ firstCrossing sample (scanStart lag) n = some ne ∧
      F64.lt (F64.fin false 0) (lagSamples sample se ne) = false ∧
      refinePitch sample n lag rate = .degenerate se ne (lagSamples sample se ne)) ∨
    (∃ se ne, firstCrossing sample 1 n = some se ∧ firstCrossing sample (scanStart lag) n = some ne ∧
      F64.lt (F64.fin false 0) (lagSamples sample se ne) = true ∧
      refinePitch sample n lag rate = .found se ne (lagSamples sample se ne)
        (F64.div (F64.ofNat rate) (lagSamples sample se ne))) := by
  unfold refinePitch
  cases h1 : firstCrossing sample 1 n with
  | none => exact .inl ⟨rfl, rfl⟩
  | some se =>
    cases h2 : firstCrossing sample (scanStart lag) n with
    | none => exact .inr (.inl ⟨se, rfl, rfl, rfl⟩)
    | some ne =>
      cases h3 : F64.lt (F64.fin false 0) (lagSamples sample se ne) with
      | false => exact .inr (.inr (.inl ⟨se, ne, rfl, rfl, h3, by simp [h3]⟩))
      | true => exact .inr (.inr (.inr ⟨se, ne, rfl, rfl, h3, by simp [h3]⟩))

/-- The state each ending of the refiner leaves (45_pitch.md R180). -/
@[simp] theorem storePitch_noStart (s : State) :
    s.storePitch .noStart = .raise .noPositiveSample (s.setPitchValid false) := rfl

@[simp] theorem storePitch_noNext (s : State) (se : Nat) :
    s.storePitch (.noNext se) = .raise .noPositiveSample ((s.setStartEdge se).setPitchValid false) := rfl

@[simp] theorem storePitch_degenerate (s : State) (se ne : Nat) (ls : F64) :
    s.storePitch (.degenerate se ne ls) =
      .raise .degenerateLag ((((s.setStartEdge se).setNextEdge ne).setLagSamp ls).setPitchValid false) := rfl

@[simp] theorem storePitch_found (s : State) (se ne : Nat) (ls p : F64) :
    s.storePitch (.found se ne ls p) =
      .complete (((((s.setStartEdge se).setNextEdge ne).setLagSamp ls).setPitch p).setPitchValid true) := rfl

/-- The HI and the LO word of a binary64 pattern give it back (10_state.md R33, R37 and R38). -/
theorem hiLo_append (x : Bits64) : x.extractLsb' 32 32 ++ x.extractLsb' 0 32 = x := by
  apply BitVec.eq_of_getLsbD_eq
  intro i hi
  simp only [BitVec.getLsbD_append, BitVec.getLsbD_extractLsb']
  by_cases h : i < 32
  · simp [h]
  · simp [h, show 32 + (i - 32) = i by omega, show i - 32 < 32 by omega]

end Sys2Proof.Machine
end

