-- ==== Sys2Proof/Laws/Stages.lean ====
section
/-! SUPPORT. The bitstream stages: lengths, elements, and what their stores leave in RAM. -/

namespace Sys2Proof.Machine

@[simp] theorem packSigns_length (sample : Nat → Word) (b : Nat) : (packSigns sample b).length = b := by
  simp [packSigns]

@[simp] theorem packSigns_getElem (sample : Nat → Word) (b k : Nat) (h : k < (packSigns sample b).length) :
    (packSigns sample b)[k] = packByte sample k := by simp [packSigns]

theorem arrayBitShift_length (xs : List Byte) (d : Nat) :
    (arrayBitShift xs d).length = xs.length - d / 8 := by
  simp only [arrayBitShift, List.length_zipWith, List.length_append, List.length_tail, List.length_drop,
    List.length_singleton]
  omega

/-- A view has the length of its stream (42_shiftcache.md R141). -/
theorem arrayBitShift_view_length (xs : List Byte) (v : Nat) (h : v < 8) :
    (arrayBitShift xs v).length = xs.length := by rw [arrayBitShift_length]; omega

@[simp] theorem correlate_length (packed : List Byte) (view : Nat → List Byte) (n2 : Nat) :
    (correlate packed view n2).length = n2 := by simp [correlate]

theorem curveBytes_nil : curveBytes [] = [] := rfl

theorem curveBytes_cons (v : Nat) (vs : List Nat) :
    curveBytes (v :: vs) = wordBytes (BitVec.ofNat 32 v) ++ curveBytes vs := rfl

@[simp] theorem curveBytes_length (vs : List Nat) : (curveBytes vs).length = 4 * vs.length := by
  induction vs with
  | nil => rfl
  | cons v vs ih => rw [curveBytes_cons, List.length_append, ih, wordBytes_length, List.length_cons]; omega

theorem Memory.writeBytes_append (xs ys : List Byte) (m : Memory) (a : Nat) :
    Memory.writeBytes m a (xs ++ ys) =
      Memory.writeBytes (Memory.writeBytes m a xs) (a + xs.length) ys := by
  induction xs generalizing m a with
  | nil => rfl
  | cons x xs ih =>
    simp only [List.cons_append, Memory.writeBytes, ih, List.length_cons]
    congr 1; omega

/-- The entry of a written curve is the value given, cut to 32 bits (20_memory.md R63). -/
theorem readWord_curveBytes (vs : List Nat) (m : Memory) (a i : Nat) (h : i < vs.length) :
    Memory.readWord (Memory.writeBytes m a (curveBytes vs)) (a + 4 * i) = BitVec.ofNat 32 vs[i] := by
  induction vs generalizing m a i with
  | nil => simp at h
  | cons v vs ih =>
    rw [curveBytes_cons, Memory.writeBytes_append, wordBytes_length]
    cases i with
    | zero =>
      rw [Memory.readWord_congr _ (Memory.writeWord m a (BitVec.ofNat 32 v))]
      · exact Memory.readWord_writeWord _ _ _
      · intro q hq
        rw [Memory.read_writeBytes_outside _ _ _ _ (.inl (by omega))]
        rfl
    | succ i =>
      have := ih (Memory.writeBytes m a (wordBytes (BitVec.ofNat 32 v))) (a + 4) i (by simpa using h)
      rw [show a + 4 * (i + 1) = a + 4 + 4 * i by omega]
      simpa using this

theorem writeViews_zero (m : Memory) (packed : List Byte) : writeViews m packed 0 = m := rfl

theorem writeViews_succ (m : Memory) (packed : List Byte) (n : Nat) :
    writeViews m packed (n + 1) =
      Memory.writeBytes (writeViews m packed n) (viewBase n) (arrayBitShift packed n) := by
  simp [writeViews, List.range_succ]

/-- A byte outside the first `n` views is not touched by storing them. -/
theorem read_writeViews_outside (m : Memory) (packed : List Byte) (n a : Nat) (hn : n ≤ 8)
    (h : ∀ v, v < n → a < viewBase v ∨ viewBase v + packed.length ≤ a) :
    Memory.read (writeViews m packed n) a = Memory.read m a := by
  induction n with
  | zero => rfl
  | succ n ih =>
    rw [writeViews_succ, Memory.read_writeBytes_outside, ih (by omega) fun v hv => h v (by omega)]
    rw [arrayBitShift_view_length _ _ (by omega)]
    exact h n (by omega)

/-- A byte of a stored view (42_shiftcache.md R141), where the views do not overlap. -/
theorem read_writeViews_inside (m : Memory) (packed : List Byte) (n v k : Nat) (hn : n ≤ 8)
    (hlen : packed.length ≤ 0x2000) (hv : v < n) (hk : k < (arrayBitShift packed v).length) :
    Memory.read (writeViews m packed n) (viewBase v + k) = (arrayBitShift packed v)[k] := by
  induction n with
  | zero => omega
  | succ n ih =>
    rw [writeViews_succ]
    by_cases h : v = n
    · subst h; exact Memory.read_writeBytes_inside _ _ _ _ hk
    · have hk' := hk
      rw [arrayBitShift_view_length _ _ (by omega)] at hk'
      rw [Memory.read_writeBytes_outside, ih (by omega) (by omega)]
      left; unfold viewBase; omega

theorem wf_writeViews (m : Memory) (packed : List Byte) (n : Nat) (h : Memory.wf m = true) :
    Memory.wf (writeViews m packed n) = true := by
  induction n with
  | zero => exact h
  | succ n ih => rw [writeViews_succ]; exact Memory.wf_writeBytes _ _ _ ih

theorem forall_writeViews (P : Nat → Prop) (m : Memory) (packed : List Byte) (n : Nat) (hn : n ≤ 8)
    (hP : ∀ v k, v < n → k < packed.length → P (viewBase v + k)) (h : ∀ c ∈ m, P c.1) :
    ∀ c ∈ writeViews m packed n, P c.1 := by
  induction n with
  | zero => exact h
  | succ n ih =>
    rw [writeViews_succ]
    refine Memory.forall_writeBytes P _ _ _ (fun k hk => ?_) (ih (by omega) fun v k hv => hP v k (by omega))
    rw [arrayBitShift_view_length _ _ (by omega)] at hk
    exact hP n k (by omega) hk

/-- A body that cannot fail ends with `complete`, RAM its one change (41_bitpacker.md R131,
42_shiftcache.md R141, 43_correlation.md R151). -/
theorem packBody_eq (s : State) :
    packBody s =
      .complete (s.setRam (Memory.writeBytes s.ram packedBase (packSigns (sampleAt s) (activeB s)))) := rfl

theorem shiftBody_eq (s : State) :
    shiftBody s = .complete (s.setRam (writeViews s.ram (packedBytes s (activeB s)) 8)) := rfl

theorem corrBody_eq (s : State) :
    corrBody s =
      .complete (s.setRam (Memory.writeBytes s.ram curveBase
        (curveBytes (correlate (packedBytes s (activeB s)) (viewBytes s (activeB s)) (activeN2 s))))) := rfl

/-- RUN up to the curve cannot fail; it leaves PITCH_VALID = 0 and RAM as the three stages leave it
(46_detector.md R207). -/
theorem runToCurve_eq (s : State) : ∃ m : Memory, runToCurve s = .complete ((s.setPitchValid false).setRam m) :=
  ⟨_, rfl⟩

end Sys2Proof.Machine
end

