-- ==== Sys2Proof/Laws/Step.lean ====
section
/-! SUPPORT. What a step can do, said once: a completion, a host event, or nothing. -/

namespace Sys2Proof.Machine

/-- A step that completes is the completion of PEND (46_detector.md R201). -/
theorem step_completesNow (s : State) (h : CompletesNow s) : step s = completion s := by
  obtain ⟨hb, h⟩ := h
  unfold step advance
  rw [hb]
  rcases h with h | h
  · rw [h]
  · rw [h]; cases s.inputs <;> rfl

/-- A step in which the host moves is that event, with the delay run down during BUSY. -/
theorem step_hostMoves (s : State) (e : HostEvent) (rest : List HostEvent) (h : HostMoves s e rest) :
    step s = .next (hostTurn (if s.busy then s.tick else s) e rest) := by
  obtain ⟨hi, h⟩ := h
  unfold step advance
  cases hb : s.busy with
  | false => rw [hi]; rfl
  | true =>
    have hd : s.delay ≠ 0 := by
      rcases h with h | h
      · rw [hb] at h; cases h
      · exact h
    obtain ⟨d, hd⟩ := Nat.exists_eq_succ_of_ne_zero hd
    rw [hi, hd]
    rfl

/-- With nothing pending and no event, nothing changes (log entry 3). -/
theorem step_idle (s : State) (hb : s.busy = false) (hi : s.inputs = []) : step s = .next s := by
  unfold step advance
  rw [hb, hi]

/-- The three cases of a step. -/
theorem step_cases (s : State) :
    CompletesNow s ∨ (∃ e rest, HostMoves s e rest) ∨ (s.busy = false ∧ s.inputs = []) := by
  cases hb : s.busy with
  | false =>
    cases hi : s.inputs with
    | nil => exact .inr (.inr ⟨rfl, rfl⟩)
    | cons e rest => exact .inr (.inl ⟨e, rest, hi, .inl hb⟩)
  | true =>
    cases hi : s.inputs with
    | nil => exact .inl ⟨hb, .inl hi⟩
    | cons e rest =>
      by_cases hd : s.delay = 0
      · exact .inl ⟨hb, .inr hd⟩
      · exact .inr (.inl ⟨e, rest, hi, .inr hd⟩)

/-- What a completion can do: run the decoded command, or report an illegal word
(46_detector.md R203). -/
theorem completion_cases (s : State) :
    (∃ i, decode s.pend = .ok i ∧ completion s = .next (runCommand i (bodyOf i) s)) ∨
      ((∃ e, decode s.pend = .error e) ∧
        completion s = .next (s.retire (opcField s.pend) .illegalCommand)) := by
  unfold completion
  cases h : decode s.pend with
  | ok i => exact .inl ⟨i, rfl, exec_eq_runCommand i s⟩
  | error e => exact .inr ⟨⟨e, rfl⟩, rfl⟩

end Sys2Proof.Machine
end

