-- ==== Sys2Proof/Laws/Windows.lean ====
section
/-! SUPPORT. The windows of the address map hold the entries the commands and transactions touch, for
every legal capacity (20_memory.md R62). -/

namespace Sys2Proof.Machine

/-- What a legal capacity is (00_scope.md R8). -/
theorem legalMaxBatch_iff (n : Nat) :
    Config.legalMaxBatch n = true ↔ 32 ≤ n ∧ n ≤ 65536 ∧ n % 32 = 0 := by
  simp [Config.legalMaxBatch, and_assoc]

theorem regionOf_registers (cap a : Nat) (h : a < 0x1000) : regionOf cap a = .registers := by
  simp [regionOf, h]

theorem regionOf_sample (cap i q : Nat) (hi : i < cap) (hq : q < 4) :
    regionOf cap (sampleOffset i + q) = .sample := by
  unfold regionOf sampleOffset sampleBase
  rw [if_neg (by omega), if_pos (by omega)]

theorem regionOf_packed (cap k : Nat) (hc : cap ≤ 65536) (hk : k < cap / 8) :
    regionOf cap (packedBase + k) = .packed := by
  unfold regionOf sampleBase packedBase
  rw [if_neg (by omega), if_neg (by omega), if_pos (by omega)]

theorem regionOf_shift (cap v k : Nat) (hc : cap ≤ 65536) (hv : v < 8) (hk : k < cap / 8) :
    regionOf cap (viewBase v + k) = .shift := by
  unfold regionOf sampleBase packedBase viewBase
  rw [if_neg (by omega), if_neg (by omega), if_neg (by omega), if_pos (by omega)]

theorem regionOf_curve (cap i q : Nat) (hc : cap ≤ 65536) (hi : i < cap / 2) (hq : q < 4) :
    regionOf cap (curveOffset i + q) = .curve := by
  unfold regionOf sampleBase packedBase viewBase curveOffset curveBase
  rw [if_neg (by omega), if_neg (by omega), if_neg (by omega), if_neg (by omega), if_pos (by omega)]

/-- The four bytes of an aligned word lie in one region, for a legal capacity. -/
theorem regionOf_word (cap a q : Nat) (hc : cap % 32 = 0) (ha : a % 4 = 0) (hq : q < 4) :
    regionOf cap (a + q) = regionOf cap a := by
  unfold regionOf sampleBase packedBase viewBase curveBase
  simp only [show (a + q < 0x1000) = (a < 0x1000) by simp; omega,
    show (0x40000 ≤ a + q ∧ a + q < 0x40000 + 4 * cap) = (0x40000 ≤ a ∧ a < 0x40000 + 4 * cap) by simp; omega,
    show (0x80000 ≤ a + q ∧ a + q < 0x80000 + cap / 8) = (0x80000 ≤ a ∧ a < 0x80000 + cap / 8) by simp; omega,
    show (0x90000 + 0x2000 * 0 ≤ a + q ∧ a + q < 0x90000 + 0x2000 * 8 ∧
        (a + q - (0x90000 + 0x2000 * 0)) % 0x2000 < cap / 8) =
      (0x90000 + 0x2000 * 0 ≤ a ∧ a < 0x90000 + 0x2000 * 8 ∧
        (a - (0x90000 + 0x2000 * 0)) % 0x2000 < cap / 8) by simp; omega,
    show (0xA0000 ≤ a + q ∧ a + q < 0xA0000 + 4 * (cap / 2)) =
      (0xA0000 ≤ a ∧ a < 0xA0000 + 4 * (cap / 2)) by simp; omega]

theorem inWindow_of_region (cap a : Nat) (h : regionOf cap a ∈ [Region.sample, .packed, .shift, .curve]) :
    inWindow cap a = true := by
  unfold inWindow
  cases hr : regionOf cap a <;> rw [hr] at h <;> simp_all

/-- The samples of a state depend on its RAM alone. -/
theorem sampleAt_congr (s t : State) (h : t.ram = s.ram) : sampleAt t = sampleAt s := by
  funext i; simp [sampleAt, h]

theorem curveAt_congr (s t : State) (h : t.ram = s.ram) : curveAt t = curveAt s := by
  funext i; simp [curveAt, h]

/-- What PITCH finds depends on RAM, BATCH, LAG and RATE alone (45_pitch.md R180). -/
theorem pitchOf_congr (s t : State) (hm : t.ram = s.ram) (hb : t.batch = s.batch) (hl : t.lag = s.lag)
    (hr : t.rate = s.rate) : pitchOf t = pitchOf s := by
  simp only [pitchOf, activeN, sampleAt_congr s t hm, hb, hl, hr]

end Sys2Proof.Machine
end

