-- ==== Sys2Proof/Tests/Slice0.lean ====
section
/-! SUPPORT. Small tests whose expected values stand in spec/ (30_encoding.md R94, 95_test_vectors.md), and
for every obligation with hypotheses a witness: states and operands that meet them, at the boundaries of
its clauses. -/

open Sys2Proof Sys2Proof.Machine

namespace Sys2Proof.Tests

/-! ## Helpers -/

/-- The next state of an outcome. -/
def next? : Host.Outcome State Fault Refusal → Option State
  | .next s => some s
  | .fault _ => none
  | .refused _ => none

/-- A fact about the next state of a command. -/
def after (i : Instr) (s : State) (p : State → Bool) : Bool :=
  match next? (exec i s) with
  | some t => p t
  | none => false

/-- A fact about the state one step later. -/
def stepped (s : State) (p : State → Bool) : Bool :=
  match next? (step s) with
  | some t => p t
  | none => false

/-- RAM with a run of 32-bit entries from a port offset. -/
def words (m : Memory) (a : Nat) (ws : List Word) : Memory := Memory.writeBytes m a (ws.flatMap wordBytes)

/-- A READY block of capacity 4096 with `samples`, a rate, a search start and a lag. -/
def loaded (samples : List Word) (rate mp lag : Nat) : State :=
  { State.powerOn 4096#32 with
    batch := BitVec.ofNat 32 samples.length
    rate := BitVec.ofNat 32 rate
    maxf := 1#32
    minPeriod := BitVec.ofNat 32 mp
    lag := BitVec.ofNat 32 lag
    det := .ready
    ram := words [] 0x40000 samples }

/-- A staged configuration, as CONFIG reads it. -/
def staged (cap n r f : Nat) : State :=
  { State.powerOn (BitVec.ofNat 32 cap) with
    cfgBatch := BitVec.ofNat 32 n, cfgRate := BitVec.ofNat 32 r, cfgMaxf := BitVec.ofNat 32 f }

/-- -1.0 and 1.0, four times. -/
def alternating : List Word :=
  [0xBF800000#32, 0x3F800000#32, 0xBF800000#32, 0x3F800000#32,
    0xBF800000#32, 0x3F800000#32, 0xBF800000#32, 0x3F800000#32]

/-- The state most witnesses use: capacity 32, configured with n = 8, r = 3, f = 1 (minPeriod 3,
minFrequency 0.75), READY, LAG 3, samples -1 and 1 in turn. -/
def ready : State :=
  { loaded alternating 3 3 3 with
    maxBatch := 32#32, minFreqHi := 0x3FE80000#32, minFreqLo := 0#32, pitchValid := false }

/-- The same, IDLE. -/
def idle : State := { ready with det := .idle }

/-- READY with n = 8, r = 2, f = 3, so that MINPERIOD = 0 (minFrequency 0.5). -/
def zeroPeriod : State :=
  { ready with rate := 2#32, maxf := 3#32, minPeriod := 0#32, minFreqHi := 0x3FE00000#32 }

/-- IDLE with the configuration (3072, 44100, 10000). -/
def configured : State :=
  { State.reset with det := .idle, batch := 3072#32, rate := 44100#32, maxf := 10000#32 }

/-- A pending word, its completion the next step. -/
def pending (s : State) (w : Word) : State := { s with pend := w, busy := true }

/-- A pending word, the host still to move. -/
def waiting (s : State) (w : Word) (e : HostEvent) : State :=
  { s with pend := w, busy := true, delay := 1, inputs := [e] }

/-- The host about to move, nothing pending. -/
def asked (s : State) (e : HostEvent) : State := { s with inputs := [e] }

/-! ## Well-formedness: the one check, refused and met (30_encoding.md R92) -/

theorem test_wf_refuses_long_supply : (Instr.supply 16777216).wf = false := by decide
theorem test_wf_accepts_longest_supply : (Instr.supply 16777215).wf = true := by decide

/-! ## Decoding: the words of 30_encoding.md R94 -/

theorem test_decode_nop : decode 0x00000000#32 = .ok .nop := by decide
theorem test_decode_config : decode 0x00000001#32 = .ok .config := by decide
theorem test_decode_supply : decode 0x000C0002#32 = .ok (.supply 3072) := by decide
theorem test_decode_run : decode 0x00000003#32 = .ok .run := by decide
theorem test_decode_clear : decode 0x00000004#32 = .ok .clear := by decide
theorem test_decode_sreset : decode 0x00000005#32 = .ok .sreset := by decide
theorem test_decode_pack : decode 0x00000010#32 = .ok .pack := by decide
theorem test_decode_shift : decode 0x00000011#32 = .ok .shift := by decide
theorem test_decode_corr : decode 0x00000012#32 = .ok .corr := by decide
theorem test_decode_harm : decode 0x00000013#32 = .ok .harm := by decide
theorem test_decode_pitch : decode 0x00000014#32 = .ok .pitch := by decide
theorem test_decode_longest_supply : decode 0xFFFFFF02#32 = .ok (.supply 16777215) := by decide
theorem test_decode_refuses_run_with_immediate :
    decode 0x00000103#32 = .error (.nonzeroImmediate 0x03#8 1#24) := by decide
theorem test_decode_refuses_reserved :
    decode 0x000000FF#32 = .error (.reservedOpcode 0xFF#8) ∧
      decode 0x00000006#32 = .error (.reservedOpcode 0x06#8) ∧
      decode 0x0000000F#32 = .error (.reservedOpcode 0x0F#8) ∧
      decode 0x00000015#32 = .error (.reservedOpcode 0x15#8) := by decide
theorem test_encode_supply : encode (.supply 64) = 0x00004002#32 ∧ encode (.supply 100) = 0x00006402#32 := by
  decide
theorem test_table_word : decodeTableWord 32 0x00002002 = some (.supply 32) := by decide

/-! ## Commands, on vectors of 95_test_vectors.md -/

/-- 95_test_vectors.md 2.7: NOP after an error leaves STATUS 0. -/
theorem test_nop_clears_the_code :
    after .nop { State.reset with errCode := .notReady, lastOp := 3#8 } (fun t => statusWord t == 0#32) := by
  decide +kernel

/-- 95_test_vectors.md 2.1: (3072, 44100, 10000) and 2.7's STATUS. -/
theorem test_config_accepts :
    after .config (staged 4096 3072 44100 10000) (fun t =>
      statusWord t == 0x00010002#32 && t.minPeriod == 4#32 && t.minFreqHi == 0x403CB600#32 &&
        t.minFreqLo == 0#32) := by decide +kernel

/-- 95_test_vectors.md 2.1: the first failing check, for six triples. -/
theorem test_config_rejects :
    ([(3, 1, 0), (4104, 44100, 10000), (3072, 1, 10000), (3072, 44100, 28), (16, 16, 2), (8, 2, 0)].map
      (fun p => (next? (exec .config (staged 4096 p.1 p.2.1 p.2.2))).map (fun t => t.errCode.code.toNat))) =
      [some 1, some 1, some 2, some 3, some 3, some 3] := by decide +kernel

/-- 95_test_vectors.md 2.1: SUPPLY 4096, SUPPLY 100 and the row (8, 44100, 10000), from (3072, 44100, 10000)
in IDLE. The SUPPLY 64 vector there contradicts 40_config.md R113 (log entry 21). -/
theorem test_supply :
    after (.supply 4096) configured (fun t =>
        statusWord t == 0x00020004#32 && t.batch == 4096#32 && t.minFreqHi == 0x40358880#32) ∧
      after (.supply 8) configured (fun t => statusWord t == 0x00020302#32 && t.batch == 3072#32) ∧
      after (.supply 100) configured (fun t => statusWord t == 0x00020102#32) := by decide +kernel

/-- 95_test_vectors.md 2.7: RUN at reset. -/
theorem test_run_not_ready : after .run State.reset (fun t => statusWord t == 0x00030600#32) := by
  decide +kernel

/-- RUN on -1, 1 in turn (n = 8, MINPERIOD 3): by hand from 44_harmonic.md R165 and 45_pitch.md R180, LAG = 3,
edges 1 and 3, lagSamples 2.0, pitch 3 / 2 = 1.5 (0x3FF8000000000000). -/
theorem test_run_refines :
    after .run ready (fun t =>
      statusWord t == 0x0003000C#32 && packedAt t 0 == 0x55#8 && t.lag == 3#32 && t.startEdge == 1#32 &&
        t.nextEdge == 3#32 && t.lagSampHi == 0x40000000#32 && t.pitchHi == 0x3FF80000#32) := by
  decide +kernel

/-- 95_test_vectors.md 2.7: CLEAR after a write during BUSY. -/
theorem test_clear :
    after .clear { idle with proto := true, lastOp := 1#8 } (fun t => statusWord t == 0x00040002#32) := by
  decide +kernel

/-- 95_test_vectors.md 2.7: SRESET. -/
theorem test_sreset :
    after .sreset { ready with proto := true, cfgBatch := 8#32, errCode := .notReady } (fun t =>
      statusWord t == 0x00050000#32 && t.cfgBatch == 0#32 && t.lag == 0#32 && t.ram == ready.ram) := by
  decide +kernel

/-- 95_test_vectors.md 2.2, both rows of patterns. -/
theorem test_pack :
    after .pack (loaded [0x3F800000#32, 0xBF800000#32, 0x00000000#32, 0x80000000#32, 0x7FC00000#32,
        0x80000001#32, 0x7F800000#32, 0xFF800000#32] 3 3 0) (fun t => packedAt t 0 == 0xBA#8) ∧
      after .pack (loaded [0xFFC00000#32, 0x7F800001#32, 0xFF800001#32, 0x80000000#32, 0x00000001#32,
        0x80800000#32, 0xFF7FFFFF#32, 0x7F7FFFFF#32] 3 3 0) (fun t => packedAt t 0 == 0xF9#8) := by
  decide +kernel

/-- 95_test_vectors.md 2.3: 12 34 56, and the shift by 12. -/
theorem test_shift :
    after .shift { idle with batch := 24#32, ram := Memory.writeBytes [] 0x80000 [0x12#8, 0x34#8, 0x56#8] }
        (fun t => viewBytes t 3 1 == [0x24#8, 0x68#8, 0xAC#8] && viewBytes t 3 7 == [0x1A#8, 0x2B#8, 0x00#8]) ∧
      arrayBitShift [0x12#8, 0x34#8, 0x56#8] 12 = [0x45#8, 0x60#8] := by decide +kernel

/-- 95_test_vectors.md 2.4: N = 8, PACKED = B5 after SHIFT. -/
theorem test_corr :
    after .shift { idle with ram := [(0x80000, 0xB5#8)] } (fun s =>
      after .corr s (fun t => (List.range 4).map (curveAt t) == [0, 7, 3, 4])) := by decide +kernel

/-- 95_test_vectors.md 2.5: rows 1 and 3, N = 64. -/
theorem test_harm :
    let s (c : Word) : State :=
      { loaded [] 3 4 0 with
        batch := 64#32
        ram := words [] 0xA0000 (List.replicate 10 40#32 ++ [c] ++ List.replicate 9 40#32 ++ [2#32] ++
          List.replicate 11 40#32) }
    after .harm (s 5#32) (fun t =>
        t.globalMax == 40#32 && t.bestValue == 2#32 && t.bestLag == 20#32 && t.lag == 10#32) ∧
      after .harm (s 7#32) (fun t => t.bestLag == 20#32 && t.lag == 20#32) := by decide +kernel

/-- 95_test_vectors.md 2.6: [-1, 1] with LAG 3, RATE 8000. -/
theorem test_pitch :
    after .pitch (loaded (alternating ++ alternating) 8000 3 3) (fun t =>
      statusWord t == 0x0014000C#32 && t.startEdge == 1#32 && t.nextEdge == 3#32 &&
        t.lagSampHi == 0x40000000#32 && t.pitchHi == 0x40AF4000#32 && t.pitchLo == 0#32) := by
  decide +kernel

/-- 95_test_vectors.md 2.6: -infinity before the start edge, LAG 9: DegenerateLag, LAGSAMP a NaN. -/
theorem test_pitch_nan :
    after .pitch (loaded ([0xFF800000#32] ++ List.replicate 7 0x3F800000#32 ++ [0xBF800000#32] ++
        List.replicate 7 0x3F800000#32) 8000 3 9) (fun t =>
      statusWord t == 0x00140504#32 && t.nextEdge == 9#32) := by decide +kernel

/-- 70_reset_and_hazards.md R260: while reset is asserted a write to a register, CMD included, has no effect. -/
theorem test_write_while_reset_is_held :
    stepped (asked { State.reset with resetHeld := true } (.wr 0x0000C#20 1#32)) (fun t =>
        !t.busy && t.resetHeld && statusWord t == 0#32) ∧
      stepped (asked { State.reset with resetHeld := true } (.wr 0x00020#20 8#32)) (fun t => t.cfgBatch == 0#32) := by
  decide +kernel

/-- 95_test_vectors.md 2.7: an illegal word. -/
theorem test_illegal : stepped (pending State.reset 0x000000FF#32) (fun t => statusWord t == 0x00FF0700#32) := by
  decide +kernel

/-! ## The host port -/

/-- 95_test_vectors.md P7: a write during BUSY sets PROTO and nothing else. -/
theorem test_write_during_busy :
    stepped (waiting idle 1#32 (.wr 0x020#20 8#32)) (fun t => t.proto && t.busy && t.cfgBatch == idle.cfgBatch) := by
  decide +kernel

/-- 95_test_vectors.md P4: a PACKED word is stored lowest byte first. -/
theorem test_packed_window :
    stepped (asked idle (.wr 0x80000#20 0xFCC00FFC#32)) (fun t =>
      packedAt t 0 == 0xFC#8 && packedAt t 1 == 0x0F#8 && packedAt t 3 == 0xFC#8) := by decide +kernel

/-- The interface's probe: the word placed is the one the next step runs (46_detector.md R201). -/
theorem test_withFetchWord :
    stepped (State.reset.withFetchWord 32 0x00000005) (fun t => statusWord t == 0x00050000#32) := by
  decide +kernel

/-! ## Witnesses: the hypotheses of each obligation are met -/

/-- What Inv asks of a configured state without a valid pitch and with reset released. -/
def invCheck (s : State) : Bool :=
  Config.legalMaxBatch s.maxBatch.toNat && Memory.wf s.ram &&
    s.ram.all (fun c => inWindow s.maxBatch.toNat c.1) && s.det != .unconf && !s.pitchValid && !s.resetHeld &&
    decide (s.batch.toNat % 8 = 0 ∧ 8 ≤ s.batch.toNat ∧ s.batch.toNat ≤ s.maxBatch.toNat ∧ 2 ≤ s.rate.toNat ∧
      1 ≤ s.maxf.toNat ∧ s.minPeriod.toNat = s.rate.toNat / s.maxf.toNat ∧
      s.minPeriod.toNat < s.batch.toNat / 2 ∧
      s.minFreqHi ++ s.minFreqLo = (F64.div (F64.ofNat s.rate.toNat) (F64.ofNat (s.batch.toNat / 2))).bits)

theorem inv_of_check (s : State) (h : invCheck s = true) : Inv s := by
  simp only [invCheck, Bool.and_eq_true, decide_eq_true_eq, bne_iff_ne, Bool.not_eq_true', List.all_eq_true] at h
  obtain ⟨⟨⟨⟨⟨⟨h1, h2⟩, h3⟩, h4⟩, h5⟩, h6⟩, c1, c2, c3, c4, c5, c6, c7, c8⟩ := h
  exact ⟨h1, h2, h3, fun _ => ⟨c1, c2, c3, c4, c5, c6, c7, c8⟩, fun h => absurd h h4,
    (fun h => by rw [h5] at h; cases h), (fun h => by rw [h6] at h; cases h)⟩

theorem waiting_moves (s : State) (w : Word) (e : HostEvent) :
    (waiting s w e).busy = true ∧ HostMoves (waiting s w e) e [] := by simp [waiting, HostMoves]

theorem asked_moves (s : State) (e : HostEvent) (h : s.busy = false) :
    (asked s e).busy = false ∧ HostMoves (asked s e) e [] := by simp [asked, HostMoves, h]

theorem witness_inv : Inv ready := inv_of_check _ (by decide +kernel)

theorem witness_inv_idle : Inv idle := inv_of_check _ (by decide +kernel)

theorem witness_inv_zero_period : Inv zeroPeriod ∧ zeroPeriod.det ≠ .unconf ∧ zeroPeriod.minPeriod.toNat = 0 :=
  ⟨inv_of_check _ (by decide +kernel), by decide, by decide⟩

/-- StepRunsTheDecodedCommand, CompletionRetiresTheCommand: both ways a completion comes. -/
theorem witness_completion :
    CompletesNow (pending ready 0x14#32) ∧
      CompletesNow { pending ready 0x14#32 with inputs := [.poll] } ∧
      decode (pending ready 0x14#32).pend = .ok .pitch ∧ decode (BitVec.ofNat 32 0x14) = .ok .pitch := by
  refine ⟨⟨rfl, .inl rfl⟩, ⟨rfl, .inr rfl⟩, by decide, by decide⟩

/-- DecodeAndEncodeAreInverse. -/
theorem witness_decode_encode :
    (Instr.supply 0).wf = true ∧ (Instr.supply 16777215).wf = true ∧ decode 0xFFFFFF02#32 = .ok (.supply 16777215) := by
  decide

/-- IllegalWordCompletesWithCodeSeven: the bounds of both reserved ranges, and the least immediate. -/
theorem witness_illegal :
    (∀ w, CompletesNow (pending ready w)) ∧
      [0x00000006#32, 0x0000000F#32, 0x00000015#32, 0x000000FF#32, 0x00000100#32, 0x00000114#32].all
        (fun w => decide (w.toNat % 256 ∉ [0, 1, 2, 3, 4, 5, 16, 17, 18, 19, 20] ∨
          (w.toNat % 256 ≠ 2 ∧ w.toNat / 256 ≠ 0))) = true :=
  ⟨fun _ => ⟨rfl, .inl rfl⟩, by decide⟩

/-- NotReadyWritesOnlyTheOutcome. -/
theorem witness_not_ready : State.reset.det = .unconf ∧ idle.det ≠ .ready ∧ State.reset.det ≠ .ready := by decide

/-- IssueStoresTheWordAndSetsBusy: the lowest and the highest offset of CMD's word. -/
theorem witness_issue :
    (∀ off v, (asked ready (.wr off v)).busy = false ∧ (asked ready (.wr off v)).resetHeld = false ∧
        (asked ready (.wr off v)).inputs = .wr off v :: []) ∧
      (0x0000C#20).toNat / 4 * 4 = 0x00C ∧ (0x0000F#20).toNat / 4 * 4 = 0x00C :=
  ⟨fun _ _ => ⟨rfl, rfl, rfl⟩, by decide⟩

/-- WriteDuringBusyOnlySetsProto, SoftResetClearsRegistersAndKeepsRam, ShiftWindowIsReadOnly: a write while a
command is pending. -/
theorem witness_write_during_busy :
    (waiting ready 0x14#32 (.wr 0x0000C#20 (encode .sreset))).busy = true ∧
      HostMoves (waiting ready 0x14#32 (.wr 0x0000C#20 (encode .sreset))) (.wr 0x0000C#20 (encode .sreset)) [] ∧
      HostMoves (waiting ready 0x14#32 (.wr 0x9E000#20 1#32)) (.wr 0x9E000#20 1#32) [] := by
  exact ⟨rfl, (waiting_moves _ _ _).2, (waiting_moves _ _ _).2⟩

/-- BusyReturnsToZero; EveryStateHasANextStep's clause. -/
theorem witness_busy_and_idle :
    (waiting ready 0x03#32 .poll).busy = true ∧ ready.busy = false ∧ ready.inputs = [] := by decide

/-- ClearIsTheWayToClearProto: all three ways to lose PROTO. -/
theorem witness_clear :
    stepped { pending idle 0x04#32 with proto := true } (fun t => !t.proto) ∧
      stepped { pending idle 0x05#32 with proto := true } (fun t => !t.proto) ∧
      stepped { asked idle .assertReset with proto := true } (fun t => !t.proto) := by decide +kernel

/-- ResetInputKeepsRam: the assertion, a held reset with a read of the last register or a write to the last
word of the register block next, and the release. -/
theorem witness_reset_idle :
    (∀ e, (asked ready e).busy = false ∧ (asked ready e).resetHeld = false ∧ (asked ready e).inputs = e :: []) ∧
      (∀ e ∈ [HostEvent.rd 0x0006F#20, .wr 0x00FFF#20 1#32],
        ∃ t, Host.Core.run Sys2Proof.core 1 { ready with inputs := [.assertReset, e] } = .next t ∧
          t.resetHeld = true ∧ t.inputs = e :: []) ∧
      (0x0006F#20).toNat / 4 * 4 = Reg.pitchHi.offset ∧ (0x00FFF#20).toNat < 0x1000 :=
  ⟨fun _ => ⟨rfl, rfl, rfl⟩, fun _ _ => ⟨_, rfl, rfl, rfl⟩, by decide⟩

/-- ResetDuringBusyAbandonsTheCommand: PACK pending with n = 8, so PACKED[0] is of its row and PACKED[1] is
not; and the other three events. -/
theorem witness_reset_during_busy :
    (∀ e ∈ [HostEvent.assertReset, .releaseReset, .rd 0#20, .wr 0#20 0#32, .poll],
      (waiting ready 0x10#32 e).busy = true ∧ HostMoves (waiting ready 0x10#32 e) e []) ∧
    (decode 0x10#32 = .ok .pack ∧ ready.det ∈ precondition .pack ∧ RowByte ready.batch.toNat 0x80000 .pack) ∧
    ¬RowByte ready.batch.toNat 0x80001 .pack := by
  refine ⟨fun e _ => waiting_moves _ _ e, ⟨by decide, by decide, ?_⟩, ?_⟩ <;>
    simp [RowByte, ready, loaded, alternating]

/-- IdentityRegistersAreConstant, ReadDuringBusy: reads during BUSY at the registers' offsets. -/
theorem witness_read_during_busy :
    (∀ off, Inv (waiting ready 0x14#32 (.rd off)) ∧ (waiting ready 0x14#32 (.rd off)).busy = true ∧
        HostMoves (waiting ready 0x14#32 (.rd off)) (.rd off) []) ∧
      [(0x00000#20, 0x000), (0x00007#20, 0x004), (0x0000B#20, 0x008), (0x00058#20, 0x058), (0x00030#20, 0x030),
        (0x00013#20, 0x010)].all (fun p => decide (p.1.toNat / 4 * 4 = p.2)) = true := by
  refine ⟨fun off => ⟨?_, waiting_moves _ _ _⟩, by decide⟩
  have h : Inv ready := witness_inv
  obtain ⟨a, b, c, d, e, f, g⟩ := h
  exact ⟨a, b, c, fun hd => ⟨(d hd).1, (d hd).2, (d hd).3, (d hd).4, (d hd).5, (d hd).6, (d hd).7, (d hd).8⟩,
    (fun hd => nomatch hd), (fun hp => nomatch hp), (fun hh => nomatch hh)⟩

/-- ReadDuringBusy: PITCH pending (it succeeds) writes PITCH_HI and not BATCH; CORR pending with n = 8 writes
CURVE[3] and not CURVE[4]. -/
theorem witness_completion_writes :
    CompletionWrites (pending ready 0x14#32) 0x06C ∧ ¬CompletionWrites (pending ready 0x14#32) 0x030 ∧
      CompletionWrites (pending ready 0x12#32) 0xA000C ∧ ¬CompletionWrites (pending ready 0x12#32) 0xA0010 := by
  refine ⟨⟨.pitch, _, by decide, by decide, rfl, .inl (.inl ⟨by decide +kernel, by decide⟩)⟩, ?_,
    ⟨.corr, _, by decide, by decide, rfl, .inr ⟨3, by decide, ?_⟩⟩, ?_⟩
  · rintro ⟨i, t, hd, _, _, h⟩
    have hi : decode 0x14#32 = .ok .pitch := by decide
    cases hi.symm.trans hd
    rcases h with h | ⟨_, _, h⟩
    · simp [RowWord, PitchWord] at h
    · exact h
  · simp [RowByte, pending, ready, loaded, alternating]
  · rintro ⟨i, t, hd, _, _, h⟩
    have hi : decode 0x12#32 = .ok .corr := by decide
    cases hi.symm.trans hd
    rcases h with h | ⟨q, _, h⟩
    · exact h
    · simp [RowByte, pending, ready, loaded, alternating] at h

/-- RegisterReadsFollowTheMap, RegisterWritesFollowTheMap (reset released: `witness_issue`): every clause's
offset, the last reserved word and the last register among them. -/
theorem witness_register_access :
    (asked ready (.rd 0x0006F#20)).busy = false ∧ (asked ready (.rd 0x0006F#20)).inputs = .rd 0x0006F#20 :: [] ∧
      (0x0006F#20).toNat / 4 * 4 = 0x06C ∧
      (asked ready (.wr 0x00054#20 1#32)).inputs = .wr 0x00054#20 1#32 :: [] ∧
      (0x00020#20).toNat / 4 * 4 = 0x020 ∧ (0x00024#20).toNat / 4 * 4 = 0x024 ∧
      (0x00028#20).toNat / 4 * 4 = 0x028 ∧ (0x00054#20).toNat / 4 * 4 = 0x054 ∧
      [0x00000#20, 0x00010#20, 0x0002C#20, 0x00FFF#20].all (fun off =>
        decide (off.toNat / 4 * 4 < 0x1000 ∧ off.toNat / 4 * 4 ∉ [0x00C, 0x020, 0x024, 0x028, 0x054])) = true := by
  refine ⟨rfl, rfl, by decide, rfl, by decide⟩

/-- SampleAndCurveWindows, PackedWindowIsLittleEndian, ShiftWindowIsReadOnly: the last entry of each window, for
capacity 32. -/
theorem witness_windows :
    Config.legalMaxBatch ready.maxBatch.toNat = true ∧ ready.busy = false ∧
      (31 < ready.maxBatch.toNat ∧ (0x4007C#20).toNat = 0x40000 + 4 * 31) ∧
      (15 < ready.maxBatch.toNat / 2 ∧ (0xA003C#20).toNat = 0xA0000 + 4 * 15) ∧
      (0 < ready.maxBatch.toNat / 32 ∧ (0x80000#20).toNat = 0x80000 + 4 * 0) ∧
      ((0x9E000#20).toNat = 0x90000 + 0x2000 * 7 + 4 * 0) ∧
      (∀ e ∈ [HostEvent.rd 0x4007C#20, .wr 0xA003C#20 5#32], (asked ready e).inputs = e :: []) := by
  refine ⟨by decide, by decide, by decide, by decide, by decide, by decide, fun _ _ => rfl⟩

/-- ReservedOffsetsReadZero: the words next to each window of capacity 32, and the ends of the space. -/
theorem witness_reserved :
    Inv (asked ready (.rd 0xFFFFC#20)) ∧
      (∀ a ∈ [0x014, 0x070, 0xFFC, 0x1000, 0x3FFFC, 0x40080, 0x80004, 0x90004, 0x9FFFC, 0xA0040, 0xFFFFC],
        ReservedOffset 32 a) ∧
      HostMoves (asked ready (.rd 0xFFFFC#20)) (.rd 0xFFFFC#20) [] ∧
      HostMoves (waiting ready 0x14#32 (.wr 0x00014#20 1#32)) (.wr 0x00014#20 1#32) [] := by
  refine ⟨inv_of_check _ (by decide +kernel), ?_, (asked_moves _ _ rfl).2, (waiting_moves _ _ _).2⟩
  unfold ReservedOffset
  decide +kernel

/-- AddressLowBitsAreIgnored. -/
theorem witness_low_bits : (ready.busy = false ∨ ready.delay ≠ 0) ∧
    (pending ready 3#32).delay = 0 ∧ (waiting ready 3#32 .poll).delay ≠ 0 := by decide

/-- PollReadsStatusUntilNotBusy. -/
theorem witness_poll :
    (HostMoves (waiting ready 3#32 .poll) .poll [] ∧ (waiting ready 3#32 .poll).busy = true) ∧
      (HostMoves (asked ready .poll) .poll [] ∧ (asked ready .poll).busy = false) := by
  exact ⟨(waiting_moves _ _ _).symm, (asked_moves _ _ rfl).symm⟩

/-- ExecPerformsTheCommand. -/
theorem witness_exec :
    (Instr.supply 8).wf = true ∧ ready.busy = false ∧ ready.resetHeld = false ∧
      { ready with inputs := execEvents (.supply 8) }.inputs = execEvents (.supply 8) ++ [] := by decide

/-- ConfigAdoptsTheStagedValues: the smallest batch, at the least accepted maximum frequency. -/
theorem witness_config_adopts :
    1 < (staged 32 8 2 1).cfgBatch.toNat ∧ (staged 32 8 2 1).cfgBatch.toNat % 8 = 0 ∧
      (staged 32 8 2 1).cfgBatch.toNat ≤ (staged 32 8 2 1).maxBatch.toNat ∧ 1 < (staged 32 8 2 1).cfgRate.toNat ∧
      (staged 32 8 2 1).cfgRate.toNat <
        (staged 32 8 2 1).cfgMaxf.toNat * ((staged 32 8 2 1).cfgBatch.toNat / 2) := by decide

/-- ConfigRejectsInOrder: each way the batch check fails, the rate check, and equality in the range check. -/
theorem witness_config_rejects :
    (staged 32 1 3 1).cfgBatch.toNat ≤ 1 ∧ (staged 32 3 3 1).cfgBatch.toNat % 2 ≠ 0 ∧
      (staged 32 12 3 1).cfgBatch.toNat % 8 ≠ 0 ∧
      (staged 32 40 3 1).maxBatch.toNat < (staged 32 40 3 1).cfgBatch.toNat ∧
      (1 < (staged 32 8 1 1).cfgBatch.toNat ∧ (staged 32 8 1 1).cfgBatch.toNat % 8 = 0 ∧
        (staged 32 8 1 1).cfgBatch.toNat ≤ (staged 32 8 1 1).maxBatch.toNat ∧
        (staged 32 8 1 1).cfgRate.toNat ≤ 1) ∧
      (1 < (staged 32 8 4 1).cfgRate.toNat ∧
        (staged 32 8 4 1).cfgMaxf.toNat * ((staged 32 8 4 1).cfgBatch.toNat / 2) ≤
          (staged 32 8 4 1).cfgRate.toNat) := by decide

/-- AcceptedMinPeriodIsBelowHalfTheBatch: the largest and the least minPeriod for n = 8. -/
theorem witness_validate :
    (∃ mf, validate 32 8 3 1 = .ok (3, mf)) ∧ (∃ mf, validate 32 8 2 3 = .ok (0, mf)) := ⟨⟨_, rfl⟩, ⟨_, rfl⟩⟩

/-- SupplyCommitsTheLength: its four clauses, from IDLE with r = 3 and f = 1 (Inv: `witness_inv_idle`). -/
theorem witness_supply :
    idle.det ≠ .unconf ∧
      (1 < 32 ∧ 32 % 8 = 0 ∧ 32 ≤ idle.maxBatch.toNat ∧ idle.rate.toNat < idle.maxf.toNat * (32 / 2)) ∧
      idle.maxBatch.toNat < 40 ∧ (∃ t, exec (.supply 32) idle = .next t) := by
  refine ⟨by decide, by decide, by decide, ⟨_, rfl⟩⟩

/-- SupplyCommitsTheLength, the range clause: n = 16 configured, r = 7, f = 1, length 8 then too short. -/
theorem witness_supply_range :
    Inv { idle with batch := 16#32, rate := 7#32, minPeriod := 7#32, minFreqHi := 0x3FEC0000#32 } ∧
      1 < 8 ∧ 8 % 8 = 0 ∧ 8 ≤ idle.maxBatch.toNat ∧ 1 * (8 / 2) ≤ 7 := by
  exact ⟨inv_of_check _ (by decide +kernel), by decide⟩

/-- SignBitIsZeroForNegativeNumbers: the bounds of the range and their neighbours (41_bitpacker.md R130). -/
theorem witness_sign_bit :
    signBit 0x80000001#32 = 0#8 ∧ signBit 0xFF800000#32 = 0#8 ∧ signBit 0x80000000#32 = 1#8 ∧
      signBit 0xFF800001#32 = 1#8 ∧ signBit 0x7FFFFFFF#32 = 1#8 := by decide

/-- PackStoresTheSignBits, RunIsTheStageSequence; ShiftBuildsTheAdvancedStreams and CorrSumsThePopcounts; the Harm
statements (Inv: `witness_inv`). -/
theorem witness_stages :
    ready.det = .ready ∧ idle.det ≠ .unconf ∧ ready.det ≠ .unconf ∧ 1 ≤ ready.minPeriod.toNat ∧
      0 < ready.batch.toNat / 8 := by decide

/-- HarmStaysInsideTheCurve. -/
theorem witness_harm_next : ∃ t, exec .harm ready = .next t := ⟨_, rfl⟩

/-- READY with PACKED and the views of its stream in place. -/
def shifted : State :=
  { idle with ram := writeViews (Memory.writeBytes idle.ram 0x80000 [0x55#8]) [0x55#8] 8 }

/-- CorrClosedForm: the views are those of the present PACKED. -/
theorem witness_views :
    (Inv shifted ∧ shifted.det ≠ .unconf) ∧
      ∀ v k i, v < 8 → k < shifted.batch.toNat / 8 → i < 8 →
        (shiftAt shifted v k).getLsbD (7 - i) =
          (decide (8 * k + i + v < shifted.batch.toNat) && streamBit (packedAt shifted) (8 * k + i + v)) := by
  constructor
  · exact ⟨inv_of_check _ (by decide +kernel), by decide⟩
  · have h : ∀ v, v < 8 → ∀ i, i < 8 → (shiftAt shifted v 0).getLsbD (7 - i) =
        (decide (8 * 0 + i + v < shifted.batch.toNat) && streamBit (packedAt shifted) (8 * 0 + i + v)) := by
      decide +kernel
    intro v k i hv hk hi
    have hk0 : k < 1 := hk
    rw [show k = 0 by omega]
    exact h v hv i hi

/-- ThresholdAgreesWithBinary64: the largest values, and a pair at equality. -/
theorem witness_threshold : 0xFFFFFFFF < 2 ^ 32 ∧ 3 < 2 ^ 32 ∧ 20 * 3 = 3 * 20 := by decide

/-- RoundingIsToNearestEven: a quotient above the largest value, and a tie, 2^53 + 1 units. -/
theorem witness_rounding :
    0 < 1 ∧ (2 ^ 54 - 1) * 2 ^ 2045 * 1 ≤ 2 * 2 ^ 2098 ∧
      2 * (2 ^ 53 + 1) < (2 ^ 54 - 1) * 2 ^ 2045 * 1 ∧
      roundUnits false (2 ^ 53 + 1) 1 = .fin false (2 ^ 53) ∧ 2 ^ 53 - 1 < 2 ^ 53 ∧
      (0xFF7FFFFF#32).toNat / 2 ^ 23 % 256 ≠ 255 := by decide +kernel

/-- Binary64LayoutHoldsTheValue: zero, the largest subnormal, the least normal and the largest value. -/
theorem witness_representable :
    Representable 0 ∧ Representable (2 ^ 52 - 1) ∧ Representable (2 ^ 52) ∧
      Representable ((2 ^ 53 - 1) * 2 ^ 2045) := by
  exact ⟨⟨by decide +kernel, 0, 0, by decide +kernel, by decide +kernel⟩,
    ⟨by decide +kernel, 2 ^ 52 - 1, 0, by decide +kernel, by decide +kernel⟩,
    ⟨by decide +kernel, 1, 52, by decide +kernel, by decide +kernel⟩,
    ⟨by decide +kernel, 2 ^ 53 - 1, 2045, by decide +kernel, by decide +kernel⟩⟩

/-- InterpolationStaysInTheUnitInterval: a crossing from a negative number, from +0, from -0 and from
-infinity. -/
theorem witness_crossing :
    CrossAt ready 1 ∧ CrossAt (loaded [0x00000000#32, 0x00000001#32] 3 3 3) 1 ∧
      CrossAt (loaded [0x80000000#32, 0x7F800000#32] 3 3 3) 1 ∧
      CrossAt (loaded [0xFF800000#32, 0x3F800000#32] 3 3 3) 1 ∧
      sampleAt (loaded [0xFF800000#32, 0x3F800000#32] 3 3 3) 0 = 0xFF800000#32 := by
  unfold CrossAt
  decide +kernel

/-- The edges of the samples -1, 1, … from 1 and from 2 on. -/
theorem ready_edges :
    FirstEdge ready 1 1 ∧ FirstEdge ready 2 3 := by
  have h2 : ¬CrossAt ready 2 := by unfold CrossAt; decide +kernel
  refine ⟨⟨by decide, by decide, ?_, fun k h1 h3 => by omega⟩, ⟨by decide, by decide, ?_, fun k h1 h3 => ?_⟩⟩
  · unfold CrossAt; decide +kernel
  · unfold CrossAt; decide +kernel
  · rw [show k = 2 by omega]; exact h2

/-- PitchRefinesBetweenTheEdges, LagSamplesIsDegenerateInTwoCases: LAG 3 starts the second scan at 2. -/
theorem witness_pitch :
    ready.det = .ready ∧ ready.batch.toNat ≤ 65536 ∧ FirstEdge ready 1 1 ∧ SecondStart ready 2 ∧ FirstEdge ready 2 3 ∧
      F64.lt (F64.fin false 0) (F64.add (F64.ofNat (3 - 1)) (F64.sub
        (F64.div (F64.neg (F64.ofF32 (sampleAt ready (3 - 1))))
          (F64.sub (F64.ofF32 (sampleAt ready 3)) (F64.ofF32 (sampleAt ready (3 - 1)))))
        (F64.div (F64.neg (F64.ofF32 (sampleAt ready (1 - 1))))
          (F64.sub (F64.ofF32 (sampleAt ready 1)) (F64.ofF32 (sampleAt ready (1 - 1))))))) = true := by
  refine ⟨by decide, by decide, ready_edges.1, .inl (by decide), ready_edges.2, by decide +kernel⟩

/-- A constant buffer, and one crossing only (N = 8, LAG 4). -/
def flat : State := loaded (List.replicate 8 0x3F800000#32) 3 3 4

/-- One crossing, at 1. -/
def single : State := loaded (0xBF800000#32 :: List.replicate 7 0x3F800000#32) 3 3 4

/-- PitchFailuresKeepThePitch, LagSamplesIsDegenerateInTwoCases: no start edge; no next edge; equal edges with LAG 1;
an edge after -infinity. -/
theorem witness_pitch_failures :
    (flat.det = .ready ∧ NoEdge flat 1) ∧
      (FirstEdge single 1 1 ∧ SecondStart single 3 ∧ NoEdge single 3) ∧
      (SecondStart { ready with lag := 1#32 } 1 ∧ FirstEdge { ready with lag := 1#32 } 1 1 ∧
        F64.lt (F64.fin false 0) (lagSamples (sampleAt { ready with lag := 1#32 }) 1 1) = false) ∧
      (FirstEdge (loaded [0xFF800000#32, 0x3F800000#32] 3 3 1) 1 1 ∧
        SecondStart (loaded [0xFF800000#32, 0x3F800000#32] 3 3 1) 1 ∧
        sampleAt (loaded [0xFF800000#32, 0x3F800000#32] 3 3 1) (1 - 1) = 0xFF800000#32) := by
  have hf : ∀ k, k < 8 → 1 ≤ k → ¬CrossAt flat k := by unfold CrossAt; decide +kernel
  have hs : ∀ k, k < 8 → 3 ≤ k → ¬CrossAt single k := by unfold CrossAt; decide +kernel
  refine ⟨⟨by decide, fun k h1 h2 => hf k h2 h1⟩,
    ⟨⟨by decide, by decide, by unfold CrossAt; decide +kernel, fun k h1 h3 => by omega⟩, .inl (by decide),
      fun k h1 h2 => hs k h2 h1⟩,
    ⟨.inr (by decide), ⟨by decide, by decide, by unfold CrossAt; decide +kernel, fun k h1 h3 => by omega⟩,
      by decide +kernel⟩,
    ⟨⟨by decide, by decide, by unfold CrossAt; decide +kernel, fun k h1 h3 => by omega⟩, .inr (by decide),
      by decide +kernel⟩⟩

/-- PitchIsFiniteAndAtMostTheRate, PitchIsIdempotent (Inv: `witness_inv`). -/
theorem witness_pitch_ok : ∃ t, exec .pitch ready = .next t ∧ t.errCode = .ok :=
  ⟨_, rfl, by decide +kernel⟩

/-- RunIsTheStageSequence's two clauses: HARM succeeds, or fails on MINPERIOD = 0. -/
theorem witness_run_stages :
    (after .pack ready fun s1 => after .shift s1 fun s2 => after .corr s2 fun s3 =>
      after .harm s3 fun s4 => s4.errCode == .ok) ∧
    (after .pack zeroPeriod fun s1 => after .shift s1 fun s2 => after .corr s2 fun s3 =>
      after .harm s3 fun s4 => s4.errCode == .degenerateLag) := by decide +kernel

/-- RunComputesThePipeline (Inv: `witness_inv`): the lag is 3, the edges 1 and 3. -/
theorem witness_run :
    ready.det = .ready ∧ 1 ≤ ready.minPeriod.toNat ∧
      (analyzeCurve (correlateLag (packSigns (sampleAt ready) (ready.batch.toNat / 8))
        (arrayBitShift (packSigns (sampleAt ready) (ready.batch.toNat / 8))))
        (ready.batch.toNat / 2) ready.minPeriod.toNat).corrected = some 3 ∧
      ∃ ls p, refinePitch (sampleAt ready) ready.batch.toNat 3 ready.rate.toNat = .found 1 3 ls p := by
  refine ⟨by decide, by decide, by decide +kernel, .fin false (2 ^ 1075), .fin false (3 * 2 ^ 1073), by decide +kernel⟩

/-- RunIsIdempotent, CommandsWriteOnlyTheirRow, StateMachineFollowsTheTable, OutcomeCodesByCommand,
ErrorsLeaveTheBlockUsable and EveryStepKeepsTheInvariant (Inv: `witness_inv`). -/
theorem witness_next :
    Inv (pending ready 0x03#32) ∧ (∃ t, exec .run ready = .next t) ∧
      (∃ t, exec (.supply 40) ready = .next t ∧ t.errCode ≠ .ok) ∧
      (∃ t, step (pending ready 0x03#32) = .next t) ∧ (decode 0x06#32).toOption = none ∧
      (∃ t, exec .harm zeroPeriod = .next t ∧ t.errCode = .degenerateLag) ∧
      (∃ t, exec .run idle = .next t ∧ t.errCode = .notReady) := by
  refine ⟨inv_of_check _ (by decide +kernel), ⟨_, rfl⟩, ⟨_, rfl, by decide +kernel⟩, ⟨_, rfl⟩, by decide, ⟨_, rfl, by decide +kernel⟩,
    ⟨_, rfl, by decide +kernel⟩⟩

/-- InvariantHoldsAfterReset: the bounds of the capacity. -/
theorem witness_capacity :
    Config.legalMaxBatch (32#32).toNat = true ∧ Config.legalMaxBatch (65536#32).toNat = true ∧
      Config.legalMaxBatch (65568#32).toNat = false ∧ Config.legalMaxBatch (0#32).toNat = false := by decide

end Sys2Proof.Tests
end

/-! PROOFS. The identity registers (10_state.md R24 and R25): what no command writes, what a read of the
first registers returns during BUSY, and the capacity as a constant of every step. -/

namespace Sys2Proof.Machine

/-! ## MAX_BATCH is kept by every body, host event and step -/

@[simp] theorem State.setCorrected_maxBatch (s : State) (l : Option Nat) :
    (s.setCorrected l).maxBatch = s.maxBatch := by
  cases l <;> rfl

/-- Stages that each keep MAX_BATCH keep it in sequence, whether or not the first one raises. -/
theorem Ending.andThen_maxBatch (r : Ending) (next : State → Ending)
    (hnext : ∀ t, (next t).state.maxBatch = t.maxBatch) :
    (r.andThen next).state.maxBatch = r.state.maxBatch := by
  cases r with
  | complete s => exact hnext s
  | raise e s => rfl

theorem configBody_maxBatch (s : State) : (configBody s).state.maxBatch = s.maxBatch := by
  rcases configBody_cases s with ⟨e, _, h⟩ | ⟨mp, mf, _, h⟩ <;> simp [h]

theorem supplyBody_maxBatch (len : Nat) (s : State) :
    (supplyBody len s).state.maxBatch = s.maxBatch := by
  rcases supplyBody_cases len s with ⟨e, _, h⟩ | ⟨mp, mf, _, h⟩ <;> simp [h]

theorem harmBody_maxBatch (s : State) : (harmBody s).state.maxBatch = s.maxBatch := by
  rcases harmBody_cases s _ rfl with ⟨_, h⟩ | ⟨_, h⟩ <;> simp [h]

theorem pitchBody_maxBatch (s : State) : (pitchBody s).state.maxBatch = s.maxBatch := by
  unfold pitchBody
  cases pitchOf s <;> simp

theorem runBody_maxBatch (s : State) : (runBody s).state.maxBatch = s.maxBatch := by
  obtain ⟨m, hm⟩ := runToCurve_eq s
  calc (runBody s).state.maxBatch
      = ((runToCurve s).andThen harmBody).state.maxBatch :=
        Ending.andThen_maxBatch _ _ pitchBody_maxBatch
    _ = (runToCurve s).state.maxBatch := Ending.andThen_maxBatch _ _ harmBody_maxBatch
    _ = s.maxBatch := by simp [hm]

theorem bodyOf_maxBatch (i : Instr) (s : State) : (bodyOf i s).state.maxBatch = s.maxBatch := by
  cases i with
  | nop | clear | sreset | pack | shift | corr => rfl
  | config => exact configBody_maxBatch s
  | supply len => exact supplyBody_maxBatch len s
  | run => exact runBody_maxBatch s
  | harm => exact harmBody_maxBatch s
  | pitch => exact pitchBody_maxBatch s

theorem runCommand_bodyOf_maxBatch (i : Instr) (s : State) :
    (runCommand i (bodyOf i) s).maxBatch = s.maxBatch := by
  rcases runCommand_cases i (bodyOf i) s with ⟨_, h⟩ | ⟨_, h⟩ <;> simp [h, bodyOf_maxBatch]

theorem completion_maxBatch (s t : State) (h : completion s = .next t) : t.maxBatch = s.maxBatch := by
  rcases completion_cases s with ⟨i, _, hc⟩ | ⟨_, hc⟩
  · cases hc.symm.trans h
    exact runCommand_bodyOf_maxBatch i s
  · cases hc.symm.trans h
    rfl

@[simp] theorem portRead_maxBatch (s : State) (off : Offset) : (portRead s off).maxBatch = s.maxBatch := by
  rcases portRead_cases s off with ⟨_, h⟩ | ⟨_, h⟩ <;> simp [h]

@[simp] theorem writeReg_maxBatch (s : State) (v : Word) (r : Reg) :
    (writeReg s v r).maxBatch = s.maxBatch := by
  cases r <;> rfl

@[simp] theorem portWrite_maxBatch (s : State) (off : Offset) (v : Word) :
    (portWrite s off v).maxBatch = s.maxBatch := by
  rcases portWrite_cases s off v with ⟨_, h⟩ | ⟨_, ⟨_, r, _, h⟩ | ⟨_, h⟩ | h⟩ <;> simp [h]

@[simp] theorem pollStatus_maxBatch (s : State) (rest : List HostEvent) :
    (pollStatus s rest).maxBatch = s.maxBatch := by
  unfold pollStatus
  split <;> rfl

@[simp] theorem assertReset_maxBatch (s : State) : (assertReset s).maxBatch = s.maxBatch := by
  rcases assertReset_cases s with ⟨_, h⟩ | ⟨_, h⟩ <;> simp [h]

theorem hostTurn_maxBatch (s : State) (e : HostEvent) (rest : List HostEvent) :
    (hostTurn s e rest).maxBatch = s.maxBatch := by
  cases e <;> simp [hostTurn]

/-- The capacity is a parameter: no step changes it (10_state.md R25). -/
theorem step_maxBatch (s t : State) (h : step s = .next t) : t.maxBatch = s.maxBatch := by
  rcases step_cases s with hc | ⟨e, rest, hm⟩ | ⟨hb, hi⟩
  · exact completion_maxBatch s t ((step_completesNow s hc).symm.trans h)
  · cases (step_hostMoves s e rest hm).symm.trans h
    rw [hostTurn_maxBatch]
    split <;> rfl
  · cases (step_idle s hb hi).symm.trans h
    rfl

/-! ## What a completion can write: registers from CFG_BATCH on, RAM from PACKED on -/

theorem harmRegs_subset (s : State) : harmRegs s ⊆ sresetRegs := by
  unfold harmRegs
  split <;> decide

theorem pitchRegs_subset (p : PitchResult) : pitchRegs p ⊆ sresetRegs := by
  cases p <;> simp [pitchRegs, sresetRegs]

theorem runRegs_subset (s : State) : runRegs s ⊆ sresetRegs := by
  refine List.append_subset.2 ⟨harmRegs_subset s, ?_⟩
  split
  · exact pitchRegs_subset _
  · exact List.nil_subset _

/-- SRESET's row of 10_state.md R47 is the widest. -/
theorem writtenRegs_subset (s : State) (i : Instr) : writtenRegs s i ⊆ sresetRegs := by
  cases i with
  | nop | clear | pack | shift | corr => exact List.nil_subset _
  | config => simp only [writtenRegs]; split <;> decide
  | supply len => simp only [writtenRegs]; split <;> decide
  | sreset => exact List.Subset.refl _
  | harm => exact harmRegs_subset s
  | pitch => exact pitchRegs_subset _
  | run => exact runRegs_subset s

/-- No command writes ID, VERSION, CAPS or CMD, and STATUS is in no row (10_state.md R47). -/
theorem le_offset_of_mem_writtenRegs (s : State) (i : Instr) (r : Reg) (h : r ∈ writtenRegs s i) :
    0x020 ≤ r.offset := by
  have hall : ∀ q ∈ sresetRegs, 0x020 ≤ q.offset := by decide
  exact hall r (writtenRegs_subset s i h)

/-- The RAM a command writes lies in PACKED, SHIFT and CURVE (10_state.md R47). -/
theorem le_of_mem_writtenSpans (s : State) (i : Instr) (p : Nat × Nat) (h : p ∈ writtenSpans s i) :
    packedBase ≤ p.1 := by
  have hpack : ∀ q ∈ packSpans s, packedBase ≤ q.1 := by simp [packSpans]
  have hshift : ∀ q ∈ shiftSpans s, packedBase ≤ q.1 := by
    intro q hq
    obtain ⟨v, _, rfl⟩ := List.mem_map.1 hq
    simp only [packedBase, viewBase]
    omega
  have hcorr : ∀ q ∈ corrSpans s, packedBase ≤ q.1 := by simp [corrSpans, packedBase, curveBase]
  cases i with
  | nop | config | supply len | clear | sreset | harm | pitch => cases h
  | pack => exact hpack p h
  | shift => exact hshift p h
  | corr => exact hcorr p h
  | run =>
    simp only [writtenSpans, List.mem_append] at h
    rcases h with (h | h) | h
    · exact hpack p h
    · exact hshift p h
    · exact hcorr p h

theorem le_of_inSpans_writtenSpans (s : State) (i : Instr) (a : Nat)
    (h : inSpans (writtenSpans s i) a = true) : packedBase ≤ a := by
  obtain ⟨p, hp, hin⟩ := List.any_eq_true.1 h
  have hlo := le_of_mem_writtenSpans s i p hp
  simp only [Bool.and_eq_true, decide_eq_true_eq] at hin
  omega

/-- A word below CFG_BATCH is never one the pending command writes, so a read of it during BUSY has its
current value (20_memory.md R72). -/
theorem pendingWrites_eq_false (s : State) (a : Nat) (ha : a < 0x020) : pendingWrites s a = false := by
  unfold pendingWrites
  cases pendingCommand? s with
  | none => rfl
  | some i =>
    have hregs : ∀ r ∈ writtenRegs s i, ¬(r.offset == a) = true := by
      intro r hr he
      have := le_offset_of_mem_writtenRegs s i r hr
      have : r.offset = a := by simpa using he
      omega
    have hspans : ∀ q ∈ List.range 4, ¬inSpans (writtenSpans s i) (a + q) = true := by
      intro q hq hin
      have hq4 : q < 4 := List.mem_range.1 hq
      have hlo : 0x80000 ≤ a + q := le_of_inSpans_writtenSpans s i _ hin
      omega
    exact Bool.or_eq_false_iff.2 ⟨List.any_eq_false.2 hregs, List.any_eq_false.2 hspans⟩

/-! ## Register reads -/

@[simp] theorem Reg.at?_offset (r : Reg) : Reg.at? r.offset = some r := by
  cases r <;> rfl

theorem Reg.offset_lt (r : Reg) : r.offset < 0x1000 := by
  cases r <;> decide

/-- The current word at a register's offset is the register (10_state.md R22). -/
theorem currentWord_offset (s : State) (r : Reg) : currentWord s r.offset = readReg s r := by
  simp [currentWord, regionOf_registers _ _ r.offset_lt]

/-- BUSY or not, a read of a register below CFG_BATCH returns the register and draws nothing. -/
theorem portRead_low_register (s : State) (off : Offset) (r : Reg) (hlow : r.offset < 0x020)
    (hoff : off.toNat / 4 * 4 = r.offset) : portRead s off = s.give (readReg s r) := by
  have hw : wordOffset off = r.offset := (wordOffset_eq off).trans hoff
  rcases portRead_cases s off with ⟨hp, _⟩ | ⟨_, h⟩
  · rw [hw, pendingWrites_eq_false s _ hlow, Bool.and_false] at hp
    cases hp
  · rw [h, hw, currentWord_offset]

/-- Taking the host's event from the queue, with the delay run down during BUSY, is `afterEvent`. -/
theorem queue_eq_afterEvent (s : State) (rest : List HostEvent) :
    (if s.busy then s.tick else s).queue rest = s.afterEvent rest := by
  cases h : s.busy <;> simp [State.afterEvent, State.queue, State.tick, h]

@[simp] theorem readReg_afterEvent (s : State) (rest : List HostEvent) (r : Reg) :
    readReg (s.afterEvent rest) r = readReg s r := by
  cases r <;> rfl

theorem step_read (s : State) (off : Offset) (rest : List HostEvent) (h : HostMoves s (.rd off) rest) :
    step s = .next (portRead (s.afterEvent rest) off) := by
  rw [step_hostMoves s _ rest h, ← queue_eq_afterEvent]
  rfl

/-- A host read of a register below CFG_BATCH, BUSY or not, answers the register and changes nothing
else. -/
theorem step_read_low_register (s : State) (off : Offset) (rest : List HostEvent) (r : Reg)
    (h : HostMoves s (.rd off) rest) (hlow : r.offset < 0x020) (hoff : off.toNat / 4 * 4 = r.offset) :
    step s = .next { s.afterEvent rest with reads := readReg s r :: s.reads } := by
  rw [step_read s off rest h, portRead_low_register _ off r hlow hoff, readReg_afterEvent]
  rfl

/-- Settles O17: ID, VERSION and CAPS lie below everything a pending command can write, and no body, host
event or reset touches the capacity. -/
theorem identityRegistersAreConstant : Obligations.IdentityRegistersAreConstant := by
  refine ⟨fun s off rest p hmove hp hoff => ?_, step_maxBatch⟩
  simp only [List.mem_cons, List.not_mem_nil, or_false] at hp
  rcases hp with rfl | rfl | rfl
  · exact step_read_low_register s off rest .id hmove (by decide) hoff
  · exact step_read_low_register s off rest .version hmove (by decide) hoff
  · exact step_read_low_register s off rest .caps hmove (by decide) hoff

end Sys2Proof.Machine


/-! PROOFS. The address map (20_memory.md R64 to R67): what a host read and a host write do at a word of
the PACKED window, of the SHIFT window, and at a reserved place, BUSY or not. -/

namespace Sys2Proof.Machine

/-! ## Host reads and writes as steps -/

theorem hostMoves_of_idle (s : State) (e : HostEvent) (rest : List HostEvent) (hb : s.busy = false)
    (hi : s.inputs = e :: rest) : HostMoves s e rest := ⟨hi, .inl hb⟩

/-- With nothing pending there is no delay to run down. -/
theorem afterEvent_of_idle (s : State) (rest : List HostEvent) (hb : s.busy = false) :
    s.afterEvent rest = { s with inputs := rest } := by
  simp [State.afterEvent, hb]

/-- The current words depend on the registers and RAM, not on what the host does next. -/
@[simp] theorem currentWord_afterEvent (s : State) (rest : List HostEvent) (a : Nat) :
    currentWord (s.afterEvent rest) a = currentWord s a := rfl

theorem step_write (s : State) (off : Offset) (v : Word) (rest : List HostEvent)
    (h : HostMoves s (.wr off v) rest) : step s = .next (portWrite (s.afterEvent rest) off v) := by
  rw [step_hostMoves s _ rest h, ← queue_eq_afterEvent]
  rfl

/-- A read that is not of state the pending command writes returns the current word and changes nothing
else (20_memory.md R70 and R72). -/
theorem step_read_current (s : State) (off : Offset) (rest : List HostEvent)
    (h : HostMoves s (.rd off) rest)
    (hp : (s.busy && pendingWrites (s.afterEvent rest) (wordOffset off)) = false) :
    step s = .next { s.afterEvent rest with reads := currentWord s (wordOffset off) :: s.reads } := by
  rw [step_read s off rest h]
  rcases portRead_cases (s.afterEvent rest) off with ⟨hw, _⟩ | ⟨_, hr⟩
  · cases hp.symm.trans hw
  · rw [hr, currentWord_afterEvent]
    rfl

theorem step_read_idle (s : State) (off : Offset) (rest : List HostEvent) (hb : s.busy = false)
    (hi : s.inputs = .rd off :: rest) :
    step s = .next { s with inputs := rest, reads := currentWord s (wordOffset off) :: s.reads } := by
  rw [step_read_current s off rest (hostMoves_of_idle s _ rest hb hi) (by simp [hb]),
    afterEvent_of_idle s rest hb]

theorem step_write_idle (s : State) (off : Offset) (v : Word) (rest : List HostEvent)
    (hb : s.busy = false) (hi : s.inputs = .wr off v :: rest) :
    step s = .next (writeCurrent { s with inputs := rest } (wordOffset off) v) := by
  rw [step_write s off v rest (hostMoves_of_idle s _ rest hb hi), afterEvent_of_idle s rest hb]
  simp [portWrite, hb]

/-- A write during BUSY sets PROTO, wherever it goes (70_reset_and_hazards.md R270). -/
theorem step_write_busy (s : State) (off : Offset) (v : Word) (rest : List HostEvent)
    (hb : s.busy = true) (h : HostMoves s (.wr off v) rest) :
    step s = .next { s.afterEvent rest with proto := true } := by
  rw [step_write s off v rest h]
  have hb' : (s.afterEvent rest).busy = true := hb
  simp [portWrite, hb', State.setProto]

/-! ## Words of the RAM windows -/

/-- The region of a word of the PACKED window. -/
theorem regionOf_packedWord (cap m : Nat) (hc : Config.legalMaxBatch cap = true) (hm : m < cap / 32) :
    regionOf cap (packedBase + 4 * m) = .packed := by
  obtain ⟨_, hmax, _⟩ := (legalMaxBatch_iff cap).1 hc
  exact regionOf_packed cap (4 * m) hmax (by omega)

/-- The region of a word of one view in the SHIFT window. -/
theorem regionOf_shiftWord (cap view m : Nat) (hc : Config.legalMaxBatch cap = true) (hv : view < 8)
    (hm : m < cap / 32) : regionOf cap (viewBase view + 4 * m) = .shift := by
  obtain ⟨_, hmax, _⟩ := (legalMaxBatch_iff cap).1 hc
  exact regionOf_shift cap view (4 * m) hmax hv (by omega)

/-- Inside a RAM window the current word is the word in RAM (20_memory.md R63 to R65). -/
theorem currentWord_of_inWindow (s : State) (a : Nat) (h : inWindow s.maxBatch.toNat a = true) :
    currentWord s a = Memory.readWord s.ram a := by
  unfold inWindow at h
  unfold currentWord
  cases hr : regionOf s.maxBatch.toNat a with
  | registers | reserved => simp [hr] at h
  | sample | packed | shift | curve => rfl

/-- A byte of a written word is its eight bits of the value (20_memory.md R64). -/
theorem Memory.read_writeWord_inside (m : Memory) (a q : Nat) (v : Word) (hq : q < 4) :
    Memory.read (Memory.writeWord m a v) (a + q) = v.extractLsb' (8 * q) 8 := by
  have hbyte : ∀ k : Fin 4, (wordBytes v)[k.val]'(by simp) = v.extractLsb' (8 * k.val) 8 := by
    intro k
    fin_cases k <;> rfl
  exact (Memory.read_writeBytes_inside (wordBytes v) m a q (by simpa using hq)).trans (hbyte ⟨q, hq⟩)

/-- The word offset of an aligned transaction is its own offset. -/
theorem wordOffset_of_aligned (off : Offset) (a : Nat) (h : off.toNat = a) (ha : a % 4 = 0) :
    wordOffset off = a := by
  rw [wordOffset, h, ha, Nat.sub_zero]

/-- Settles O22: a PACKED word is read and written as the word in RAM, whose bytes are the four of the
value. -/
theorem packedWindowIsLittleEndian : Obligations.PackedWindowIsLittleEndian := by
  intro s off m v rest hc hb hm hoff
  have hw : wordOffset off = packedBase + 4 * m := wordOffset_of_aligned off _ hoff (by unfold packedBase; omega)
  have hr : regionOf s.maxBatch.toNat (packedBase + 4 * m) = .packed := regionOf_packedWord _ m hc hm
  refine ⟨fun hi => ?_, fun hi => ?_⟩
  · rw [step_read_idle s off rest hb hi, hw,
      currentWord_of_inWindow s _ (inWindow_of_region _ _ (by simp [hr]))]
    rfl
  · have hstore : writeCurrent { s with inputs := rest } (packedBase + 4 * m) v =
        { s with inputs := rest, ram := Memory.writeWord s.ram (packedBase + 4 * m) v } := by
      simp [writeCurrent, hr, State.setRam]
    rw [step_write_idle s off v rest hb hi, hw, hstore]
    refine ⟨_, rfl, rfl, fun q hq => ?_, fun a ha => Memory.read_writeWord_outside _ _ a v ha⟩
    rw [packedAt, ← Nat.add_assoc]
    exact Memory.read_writeWord_inside s.ram _ q v hq

/-- Settles O23: a SHIFT word is read as the word in RAM, and a write there stores nothing. -/
theorem shiftWindowIsReadOnly : Obligations.ShiftWindowIsReadOnly := by
  intro s off view m v rest hc hv hm hoff
  have hw : wordOffset off = viewBase view + 4 * m := wordOffset_of_aligned off _ hoff (by unfold viewBase; omega)
  have hr : regionOf s.maxBatch.toNat (viewBase view + 4 * m) = .shift :=
    regionOf_shiftWord _ view m hc hv hm
  refine ⟨fun hb hi => ?_, fun hb hi => ?_, step_write_busy s off v rest⟩
  · rw [step_read_idle s off rest hb hi, hw,
      currentWord_of_inWindow s _ (inWindow_of_region _ _ (by simp [hr]))]
    rfl
  · rw [step_write_idle s off v rest hb hi, hw]
    simp [writeCurrent, hr]

/-! ## Reserved places -/

theorem Reg.at?_eq_none (a : Nat) (h : a ∉ Reg.all.map Reg.offset) : Reg.at? a = none := by
  refine List.find?_eq_none.2 fun r hr he => h ?_
  exact List.mem_map.2 ⟨r, hr, by simpa using he⟩

/-- A reserved place is one of the register block that no register has, or one in no region at all. -/
theorem regionOf_reservedOffset (cap a : Nat) (hc : Config.legalMaxBatch cap = true)
    (h : ReservedOffset cap a) :
    (regionOf cap a = .registers ∧ Reg.at? a = none) ∨ regionOf cap a = .reserved := by
  obtain ⟨_, _, hmul⟩ := (legalMaxBatch_iff cap).1 hc
  rcases h with ⟨hlt, hreg⟩ | ⟨hge, hsample, hpacked, hshift, hcurve⟩
  · exact .inl ⟨regionOf_registers cap a hlt, Reg.at?_eq_none a hreg⟩
  · refine .inr ?_
    have hview := hshift ((a - 0x90000) / 0x2000)
    unfold regionOf sampleBase packedBase viewBase curveBase
    rw [if_neg (by omega), if_neg hsample, if_neg hpacked, if_neg (by omega), if_neg (by omega)]

/-- No RAM entry lies at a reserved place. -/
theorem inWindow_reservedOffset (cap a : Nat) (hc : Config.legalMaxBatch cap = true)
    (h : ReservedOffset cap a) : inWindow cap a = false := by
  rcases regionOf_reservedOffset cap a hc h with ⟨hr, _⟩ | hr <;> simp [inWindow, hr]

theorem currentWord_reservedOffset (s : State) (a : Nat)
    (hc : Config.legalMaxBatch s.maxBatch.toNat = true) (h : ReservedOffset s.maxBatch.toNat a) :
    currentWord s a = 0#32 := by
  rcases regionOf_reservedOffset _ a hc h with ⟨hr, hn⟩ | hr
  · simp [currentWord, hr, hn]
  · simp [currentWord, hr]

theorem writeCurrent_reservedOffset (s : State) (a : Nat) (v : Word)
    (hc : Config.legalMaxBatch s.maxBatch.toNat = true) (h : ReservedOffset s.maxBatch.toNat a) :
    writeCurrent s a v = s := by
  rcases regionOf_reservedOffset _ a hc h with ⟨hr, hn⟩ | hr
  · simp [writeCurrent, hr, hn]
  · simp [writeCurrent, hr]

/-! ## What the pending command writes lies at registers and in the windows -/

/-- What the pending command writes, as R72 reads it: a register at the word, or one of its bytes. -/
theorem pendingWrites_iff (s : State) (a : Nat) :
    pendingWrites s a = true ↔
      ∃ i, pendingCommand? s = some i ∧
        ((∃ r ∈ writtenRegs s i, r.offset = a) ∨ ∃ q, q < 4 ∧ inSpans (writtenSpans s i) (a + q) = true) := by
  unfold pendingWrites
  cases pendingCommand? s <;> simp

theorem inSpans_iff (spans : List (Nat × Nat)) (a : Nat) :
    inSpans spans a = true ↔ ∃ p ∈ spans, ∃ k, k < p.2 ∧ a = p.1 + k := by
  simp only [inSpans, List.any_eq_true, Bool.and_eq_true, decide_eq_true_eq]
  refine exists_congr fun p => and_congr_right fun _ => ⟨fun ⟨hlo, hhi⟩ => ?_, ?_⟩
  · exact ⟨a - p.1, by omega, by omega⟩
  · rintro ⟨k, hk, rfl⟩
    omega

/-- The batch in force never exceeds the capacity: R30 bounds it, and before a configuration it is 0. -/
theorem Inv.batch_le {s : State} (h : Inv s) : s.batch.toNat ≤ s.maxBatch.toNat := by
  by_cases hd : s.det = .unconf
  · simp [(h.unconfigured hd).batch]
  · exact (h.configured hd).batch_capacity

theorem inWindow_of_mem_packSpans (s : State) (hcap : s.maxBatch.toNat ≤ 65536)
    (hle : s.batch.toNat ≤ s.maxBatch.toNat) (p : Nat × Nat) (hp : p ∈ packSpans s) (k : Nat) (hk : k < p.2) :
    inWindow s.maxBatch.toNat (p.1 + k) = true := by
  obtain rfl : p = (packedBase, activeB s) := by simpa [packSpans] using hp
  have hk' : k < s.batch.toNat / 8 := hk
  exact inWindow_of_region _ _ (by simp [regionOf_packed _ k hcap (by omega)])

theorem inWindow_of_mem_shiftSpans (s : State) (hcap : s.maxBatch.toNat ≤ 65536)
    (hle : s.batch.toNat ≤ s.maxBatch.toNat) (p : Nat × Nat) (hp : p ∈ shiftSpans s) (k : Nat) (hk : k < p.2) :
    inWindow s.maxBatch.toNat (p.1 + k) = true := by
  obtain ⟨v, hv, rfl⟩ := List.mem_map.1 hp
  have hk' : k < s.batch.toNat / 8 := hk
  exact inWindow_of_region _ _ (by simp [regionOf_shift _ v k hcap (List.mem_range.1 hv) (by omega)])

theorem inWindow_of_mem_corrSpans (s : State) (hcap : s.maxBatch.toNat ≤ 65536)
    (hle : s.batch.toNat ≤ s.maxBatch.toNat) (p : Nat × Nat) (hp : p ∈ corrSpans s) (k : Nat) (hk : k < p.2) :
    inWindow s.maxBatch.toNat (p.1 + k) = true := by
  obtain rfl : p = (curveBase, 4 * activeN2 s) := by simpa [corrSpans] using hp
  have hk' : k < 4 * (s.batch.toNat / 2) := hk
  have hentry : curveBase + k = curveOffset (k / 4) + k % 4 := by unfold curveOffset; omega
  have hr := regionOf_curve _ (k / 4) (k % 4) hcap (by omega) (by omega)
  exact inWindow_of_region _ _ (by simp [hentry, hr])

/-- With a batch inside the capacity every RAM byte a command writes lies in a window (10_state.md R47,
20_memory.md R62). -/
theorem inWindow_of_mem_writtenSpans (s : State) (hcap : s.maxBatch.toNat ≤ 65536)
    (hle : s.batch.toNat ≤ s.maxBatch.toNat) (i : Instr) (p : Nat × Nat) (hp : p ∈ writtenSpans s i)
    (k : Nat) (hk : k < p.2) : inWindow s.maxBatch.toNat (p.1 + k) = true := by
  cases i with
  | nop | config | supply len | clear | sreset | harm | pitch => cases hp
  | pack => exact inWindow_of_mem_packSpans s hcap hle p hp k hk
  | shift => exact inWindow_of_mem_shiftSpans s hcap hle p hp k hk
  | corr => exact inWindow_of_mem_corrSpans s hcap hle p hp k hk
  | run =>
    simp only [writtenSpans, List.mem_append] at hp
    rcases hp with (hp | hp) | hp
    · exact inWindow_of_mem_packSpans s hcap hle p hp k hk
    · exact inWindow_of_mem_shiftSpans s hcap hle p hp k hk
    · exact inWindow_of_mem_corrSpans s hcap hle p hp k hk

/-- An aligned word lies in a window with each of its bytes. -/
theorem inWindow_word (cap a q : Nat) (hc : Config.legalMaxBatch cap = true) (ha : a % 4 = 0)
    (hq : q < 4) : inWindow cap (a + q) = inWindow cap a := by
  obtain ⟨_, _, hmul⟩ := (legalMaxBatch_iff cap).1 hc
  simp only [inWindow, regionOf_word cap a q hmul ha hq]

theorem Reg.mem_all (r : Reg) : r ∈ Reg.all := by
  cases r <;> decide

theorem not_reservedOffset_reg (cap : Nat) (r : Reg) : ¬ReservedOffset cap r.offset := by
  rintro (⟨_, hreg⟩ | ⟨hge, _⟩)
  · exact hreg (List.mem_map_of_mem r.mem_all)
  · exact absurd r.offset_lt (by omega)

/-- The pending command writes nothing at a reserved word (20_memory.md R66 and R72). -/
theorem pendingWrites_reservedOffset (s : State) (a : Nat)
    (hc : Config.legalMaxBatch s.maxBatch.toNat = true) (hle : s.batch.toNat ≤ s.maxBatch.toNat)
    (ha : a % 4 = 0) (h : ReservedOffset s.maxBatch.toNat a) : pendingWrites s a = false := by
  obtain ⟨_, hcap, _⟩ := (legalMaxBatch_iff _).1 hc
  refine Bool.eq_false_iff.2 fun hw => ?_
  obtain ⟨i, _, ⟨r, _, rfl⟩ | ⟨q, hq, hin⟩⟩ := (pendingWrites_iff s a).1 hw
  · exact not_reservedOffset_reg _ r h
  · obtain ⟨p, hp, k, hk, he⟩ := (inSpans_iff _ _).1 hin
    have hbyte : inWindow s.maxBatch.toNat (a + q) = true :=
      he ▸ inWindow_of_mem_writtenSpans s hcap hle i p hp k hk
    rw [inWindow_word _ a q hc ha hq, inWindow_reservedOffset _ a hc h] at hbyte
    cases hbyte

/-- Settles O24: no register and no window holds a reserved word, and the invariant keeps what the pending
command writes inside the windows, so that a read during BUSY returns 0 as well. -/
theorem reservedOffsetsReadZero : Obligations.ReservedOffsetsReadZero := by
  intro s off v rest hs h
  rw [← wordOffset_eq] at h
  have ha : wordOffset off % 4 = 0 := by rw [wordOffset_eq]; omega
  refine ⟨fun hm => ?_, fun hb hi => ?_, step_write_busy s off v rest⟩
  · have hp := pendingWrites_reservedOffset (s.afterEvent rest) _ hs.capacity hs.batch_le ha h
    rw [step_read_current s off rest hm (by simp [hp]), currentWord_reservedOffset s _ hs.capacity h]
  · rw [step_write_idle s off v rest hb hi, writeCurrent_reservedOffset { s with inputs := rest } _ v hs.capacity h]

/-! ## Address bits [1:0] -/

theorem wordOffset_sub_mod (off : Offset) : wordOffset (off - off % 4#20) = wordOffset off := by
  rw [wordOffset_eq, wordOffset_eq]
  have hmod : (off % 4#20).toNat = off.toNat % 4 := BitVec.toNat_umod
  have hle : off % 4#20 ≤ off := by rw [BitVec.le_def, hmod]; exact Nat.mod_le _ _
  rw [BitVec.toNat_sub_of_le hle, hmod]
  omega

/-- Transactions at offsets of one word act alike (20_memory.md R67). -/
theorem portRead_congr (s : State) (off off' : Offset) (h : wordOffset off = wordOffset off') :
    portRead s off = portRead s off' := by
  simp only [portRead, h]

theorem portWrite_congr (s : State) (off off' : Offset) (v : Word)
    (h : wordOffset off = wordOffset off') : portWrite s off v = portWrite s off' v := by
  simp only [portWrite, h]

/-- Settles O25: both offsets name one word, and when the host moves its transaction always has a next
state. -/
theorem addressLowBitsAreIgnored : Obligations.AddressLowBitsAreIgnored := by
  intro s off v rest hm
  have hrd (o : Offset) : step { s with inputs := .rd o :: rest } = .next (portRead (s.afterEvent rest) o) :=
    step_read { s with inputs := .rd o :: rest } o rest ⟨rfl, hm⟩
  have hwr (o : Offset) :
      step { s with inputs := .wr o v :: rest } = .next (portWrite (s.afterEvent rest) o v) :=
    step_write { s with inputs := .wr o v :: rest } o v rest ⟨rfl, hm⟩
  have hw := (wordOffset_sub_mod off).symm
  refine ⟨?_, ?_, ⟨_, hrd off⟩, ⟨_, hwr off⟩⟩
  · rw [hrd, hrd, portRead_congr _ _ _ hw]
  · rw [hwr, hwr, portWrite_congr _ _ _ v hw]

end Sys2Proof.Machine


/-! PROOFS. The configuration check and CONFIG (40_config.md R110 to R121): when each answer of `Validate`
is given, what CONFIG makes of it, and the bound on the lag range of an accepted configuration. -/

namespace Sys2Proof.Machine

/-! ## The answers of Validate -/

/-- Once R113 has passed, R115 cannot fail (40_config.md R119). -/
theorem minPeriod_lt_batch {n r f : Nat} (h : r < f * (n / 2)) : r / f < n := by
  have hhalf : r / f < n / 2 := Nat.div_lt_of_lt_mul h
  omega

theorem validate_eq_invalidBatchSize {cap n : Nat} (r f : Nat)
    (h : n ≤ 1 ∨ n % 2 ≠ 0 ∨ n % 8 ≠ 0 ∨ cap < n) : validate cap n r f = .error .invalidBatchSize := by
  rcases validate_cases cap n r f with ⟨_, hv⟩ | ⟨hn, hmod, hcap, _⟩
  · exact hv
  · omega

/-- With the batch check passed, the rate and range checks decide the answer, in this order (40_config.md
R112, R113 and R119). -/
theorem validate_cases_of_batch {cap n : Nat} (r f : Nat) (hn : 1 < n) (hmod : n % 8 = 0) (hcap : n ≤ cap) :
    (r ≤ 1 ∧ validate cap n r f = .error .invalidSampleRate) ∨
      (1 < r ∧ f * (n / 2) ≤ r ∧ validate cap n r f = .error .invalidFrequencyRange) ∨
      (1 < r ∧ r < f * (n / 2) ∧ validate cap n r f = .ok (r / f, minFrequency n r)) := by
  rcases validate_cases cap n r f with
    ⟨hbatch, _⟩ | ⟨_, _, _, hrate | hrange | ⟨_, hr, hmp, _⟩ | ⟨hr1, hr, _, hv⟩⟩
  · omega
  · exact .inl hrate
  · exact .inr (.inl hrange)
  · exact absurd (minPeriod_lt_batch hr) (by omega)
  · exact .inr (.inr ⟨hr1, hr, hv⟩)

theorem validate_eq_invalidSampleRate {cap n r : Nat} (f : Nat) (hn : 1 < n) (hmod : n % 8 = 0)
    (hcap : n ≤ cap) (hr : r ≤ 1) : validate cap n r f = .error .invalidSampleRate := by
  rcases validate_cases_of_batch r f hn hmod hcap with ⟨_, hv⟩ | ⟨hr1, _⟩ | ⟨hr1, _⟩
  · exact hv
  · omega
  · omega

theorem validate_eq_invalidFrequencyRange {cap n r f : Nat} (hn : 1 < n) (hmod : n % 8 = 0)
    (hcap : n ≤ cap) (hr : 1 < r) (hf : f * (n / 2) ≤ r) :
    validate cap n r f = .error .invalidFrequencyRange := by
  rcases validate_cases_of_batch r f hn hmod hcap with ⟨hr1, _⟩ | ⟨_, _, hv⟩ | ⟨_, hf1, _⟩
  · omega
  · exact hv
  · omega

/-- What Validate accepts, and the derived pair it then returns (40_config.md R110 to R114). -/
theorem validate_eq_ok_iff (cap n r f mp : Nat) (mf : F64) :
    validate cap n r f = .ok (mp, mf) ↔
      (1 < n ∧ n % 8 = 0 ∧ n ≤ cap ∧ 1 < r ∧ r < f * (n / 2)) ∧ mp = r / f ∧ mf = minFrequency n r := by
  constructor
  · intro h
    rcases validate_cases cap n r f with
      ⟨_, hv⟩ | ⟨hn, hmod, hcap, ⟨_, hv⟩ | ⟨_, _, hv⟩ | ⟨_, _, _, hv⟩ | ⟨hr, hf, _, hv⟩⟩
    · cases hv.symm.trans h
    · cases hv.symm.trans h
    · cases hv.symm.trans h
    · cases hv.symm.trans h
    · cases hv.symm.trans h
      exact ⟨⟨hn, hmod, hcap, hr, hf⟩, rfl, rfl⟩
  · rintro ⟨⟨hn, hmod, hcap, hr, hf⟩, hmp, hmf⟩
    rw [hmp, hmf]
    rcases validate_cases_of_batch r f hn hmod hcap with ⟨hr1, _⟩ | ⟨_, hf1, _⟩ | ⟨_, _, hv⟩
    · omega
    · omega
    · exact hv

/-- Settles O31: r div f lies below n div 2 because r lies below f (n div 2), and n is a multiple of 8
above 1. -/
theorem acceptedMinPeriodIsBelowHalfTheBatch : Obligations.AcceptedMinPeriodIsBelowHalfTheBatch := by
  intro cap n r f mp mf h
  obtain ⟨⟨hn, hmod, hcap, hr, hf⟩, rfl, -⟩ := (validate_eq_ok_iff cap n r f mp mf).1 h
  have hhalf : r / f < n / 2 := Nat.div_lt_of_lt_mul hf
  have hfpos : 0 < f := Nat.pos_of_mul_pos_right (by omega : 0 < f * (n / 2))
  exact ⟨by omega, by omega, hcap, Nat.div_eq_zero_iff_lt hfpos⟩

/-! ## What CONFIG makes of the answer -/

/-- CONFIG has no precondition (40_config.md R116). -/
theorem config_admitted (s : State) : s.det ∈ precondition .config := by
  cases s.det <;> decide

theorem exec_config (s : State) : exec .config s = .next (finish 0x01#8 (configBody s)) := by
  rw [exec_eq_runCommand, runCommand_admitted _ _ s (config_admitted s)]
  rfl

theorem exec_config_of_error (s : State) (e : ErrCode)
    (h : validate s.maxBatch.toNat s.cfgBatch.toNat s.cfgRate.toNat s.cfgMaxf.toNat = .error e) :
    exec .config s = .next (s.retire 0x01#8 e) := by
  rcases configBody_cases s with ⟨e', he, hb⟩ | ⟨mp, mf, hok, _⟩
  · cases he.symm.trans h
    rw [exec_config, hb, finish_raise]
  · cases hok.symm.trans h

theorem exec_config_of_ok (s : State) (mp : Nat) (mf : F64)
    (h : validate s.maxBatch.toNat s.cfgBatch.toNat s.cfgRate.toNat s.cfgMaxf.toNat = .ok (mp, mf)) :
    exec .config s =
      .next ((s.adoptConfig s.cfgBatch.toNat s.cfgRate.toNat s.cfgMaxf.toNat mp mf).retire 0x01#8 .ok) := by
  rcases configBody_cases s with ⟨e, he, _⟩ | ⟨mp', mf', hok, hb⟩
  · cases he.symm.trans h
  · cases hok.symm.trans h
    rw [exec_config, hb, finish_complete]

/-- Settles O29: Validate accepts the staged values, and a staged word is the word of its own value. -/
theorem configAdoptsTheStagedValues : Obligations.ConfigAdoptsTheStagedValues := by
  intro s hn hmod hcap hr hf
  have hv := (validate_eq_ok_iff _ _ _ _ _ _).2 ⟨⟨hn, hmod, hcap, hr, hf⟩, rfl, rfl⟩
  refine ⟨(minFrequency s.cfgBatch.toNat s.cfgRate.toNat).bits, rfl, ?_⟩
  rw [exec_config_of_ok s _ _ hv]
  simp [State.adoptConfig, State.retire]

/-- Settles O30: each failing check gives its code, and a `raise` leaves the state it was given. -/
theorem configRejectsInOrder : Obligations.ConfigRejectsInOrder := by
  refine ⟨rfl, rfl, rfl, fun s => ⟨fun hbatch => ?_, fun hn hmod hcap => ⟨fun hr => ?_, fun hr hf => ?_⟩⟩⟩
  · exact exec_config_of_error s _ (validate_eq_invalidBatchSize _ _ hbatch)
  · exact exec_config_of_error s _ (validate_eq_invalidSampleRate _ hn hmod hcap hr)
  · exact exec_config_of_error s _ (validate_eq_invalidFrequencyRange hn hmod hcap hr hf)

end Sys2Proof.Machine


/-! PROOFS. The sign-bit packer (41_bitpacker.md R130 to R132): the patterns signbit takes as negative,
where the accumulator puts each sample's bit, and what PACK leaves in the block. -/

namespace Sys2Proof.Machine

/-! ## The sign bit of a pattern -/

theorem f32IsZero_iff (w : Word) : f32IsZero w = true ↔ w.toNat % 2 ^ 31 = 0 := by
  simp only [f32IsZero, f32Exp, f32Frac, Bool.and_eq_true, beq_iff_eq]
  omega

theorem f32IsNaN_iff (w : Word) : f32IsNaN w = true ↔ 0x7F800000 < w.toNat % 2 ^ 31 := by
  simp only [f32IsNaN, f32Exp, f32Frac, Bool.and_eq_true, beq_iff_eq, bne_iff_ne]
  omega

/-- With the sign bit set, the patterns above -0 and up to -infinity are the negative numbers; beyond
them lie the NaNs (41_bitpacker.md R130). -/
theorem f32Neg_iff (w : Word) :
    f32Neg w = true ↔ 0x80000001 ≤ w.toNat ∧ w.toNat ≤ 0xFF800000 := by
  have hw : w.toNat < 2 ^ 32 := w.isLt
  have hmsb : w.msb = true ↔ 2 ^ 31 ≤ w.toNat := by simp [BitVec.msb_eq_decide]
  have hnan := f32IsNaN_iff w
  have hzero := f32IsZero_iff w
  simp only [f32Neg, Bool.and_eq_true, Bool.not_eq_true', ← Bool.not_eq_true, hmsb, hnan, hzero]
  omega

theorem signBit_of_f32Neg (w : Word) (h : f32Neg w = true) : signBit w = 0#8 := if_pos h

theorem signBit_of_not_f32Neg (w : Word) (h : ¬f32Neg w = true) : signBit w = 1#8 := if_neg h

/-- Settles O33: the range of R130 is the one `f32Neg_iff` gives. -/
theorem signBitIsZeroForNegativeNumbers : Obligations.SignBitIsZeroForNegativeNumbers := by
  refine fun w => ⟨fun h => ?_, fun h => ?_⟩
  · exact signBit_of_f32Neg w ((f32Neg_iff w).2 h)
  · exact signBit_of_not_f32Neg w (mt (f32Neg_iff w).1 h)

/-- A sign bit is the low bit of its byte; the rest of the byte is 0. -/
theorem signBit_getLsbD (w : Word) (j : Nat) :
    (signBit w).getLsbD j = (decide (j = 0) && !f32Neg w) := by
  by_cases h : f32Neg w = true
  · simp [signBit_of_f32Neg w h, h]
  · simp [signBit_of_not_f32Neg w h, h]

/-! ## The bits of a packed byte -/

/-- PACK's accumulator for byte `b` after its first `n` samples (41_bitpacker.md R131). -/
def packPrefix (sample : Nat → Word) (b n : Nat) : Byte :=
  (List.range n).foldl (fun acc i => (acc <<< 1) ||| signBit (sample (8 * b + i))) 0#8

theorem packByte_eq_packPrefix (sample : Nat → Word) (b : Nat) :
    packByte sample b = packPrefix sample b 8 := rfl

theorem packPrefix_succ (sample : Nat → Word) (b n : Nat) :
    packPrefix sample b (n + 1) = (packPrefix sample b n <<< 1) ||| signBit (sample (8 * b + n)) := by
  simp [packPrefix, List.range_succ]

/-- Each new sample enters at bit 0 and moves the earlier ones up by one: of `n` samples, number `i` is
at bit n - 1 - i. -/
theorem packPrefix_getLsbD (sample : Nat → Word) (b n i : Nat) (hn : n ≤ 8) (hi : i < n) :
    (packPrefix sample b n).getLsbD (n - 1 - i) = !f32Neg (sample (8 * b + i)) := by
  induction n with
  | zero => omega
  | succ n ih =>
    rw [packPrefix_succ, BitVec.getLsbD_or, BitVec.getLsbD_shiftLeft, signBit_getLsbD]
    rcases Nat.lt_succ_iff_lt_or_eq.1 hi with hlt | rfl
    · have hpos : n - i ≠ 0 := by omega
      have hbit : n - i - 1 = n - 1 - i := by omega
      have hbyte : n - i < 8 := by omega
      simp [hpos, hbit, hbyte, ih (by omega) hlt]
    · simp

/-- Bit 7 - i of a packed byte is 0 exactly for a negative sample 8b + i (41_bitpacker.md R132). -/
theorem packByte_getLsbD_eq_false_iff (sample : Nat → Word) (b i : Nat) (hi : i < 8) :
    (packByte sample b).getLsbD (7 - i) = false ↔
      0x80000001 ≤ (sample (8 * b + i)).toNat ∧ (sample (8 * b + i)).toNat ≤ 0xFF800000 := by
  rw [packByte_eq_packPrefix, packPrefix_getLsbD sample b 8 i le_rfl hi, Bool.not_eq_false', f32Neg_iff]

/-! ## PACK -/

/-- RAM as PACK leaves it (41_bitpacker.md R131). -/
def packedRam (s : State) : Memory :=
  Memory.writeBytes s.ram packedBase (packSigns (sampleAt s) (activeB s))

theorem exec_pack_of_ready (s : State) (h : s.det = .ready) :
    exec .pack s = .next ((s.setRam (packedRam s)).retire 0x10#8 .ok) := by
  have hadm : s.det ∈ precondition .pack := by rw [h]; decide
  rw [exec_eq_runCommand, runCommand_admitted _ _ s hadm]
  rfl

theorem read_packedRam_inside (s : State) (b : Nat) (h : b < s.batch.toNat / 8) :
    Memory.read (packedRam s) (packedBase + b) = packByte (sampleAt s) b := by
  have hlen : b < (packSigns (sampleAt s) (activeB s)).length := by rwa [packSigns_length]
  rw [packedRam, Memory.read_writeBytes_inside _ _ _ _ hlen, packSigns_getElem]

theorem read_packedRam_outside (s : State) (a : Nat)
    (h : a < packedBase ∨ packedBase + s.batch.toNat / 8 ≤ a) :
    Memory.read (packedRam s) a = Memory.read s.ram a := by
  refine Memory.read_writeBytes_outside _ _ _ _ ?_
  rwa [packSigns_length]

/-- Settles O34: PACK stores the packed bytes and nothing else, and each holds its eight samples' sign
bits, the first on top. -/
theorem packStoresTheSignBits : Obligations.PackStoresTheSignBits := by
  intro s hs
  refine ⟨_, exec_pack_of_ready s hs, rfl, fun b i hb hi => ?_, read_packedRam_outside s⟩
  have hbyte : packedAt ((s.setRam (packedRam s)).retire 0x10#8 .ok) b = packByte (sampleAt s) b :=
    read_packedRam_inside s b hb
  rw [hbyte]
  exact packByte_getLsbD_eq_false_iff (sampleAt s) b i hi

end Sys2Proof.Machine


/-! PROOFS. The bit-shift array builder (42_shiftcache.md R140 to R142): what the array shift makes of the
big-endian value and of the stream bits of an array, and what SHIFT leaves in the block. -/

namespace Sys2Proof.Machine

/-! ## The big-endian value of a byte array -/

/-- Bytes read after a prefix of value `acc` follow it with eight bits each. -/
theorem bigEndian_foldl (xs : List Byte) (acc : Nat) :
    xs.foldl (fun acc x => acc * 256 + x.toNat) acc = acc * 2 ^ (8 * xs.length) + bigEndian xs := by
  induction xs generalizing acc with
  | nil => simp [bigEndian]
  | cons x xs ih =>
    rw [bigEndian, List.foldl_cons, List.foldl_cons, ih, ih, List.length_cons]
    ring

theorem bigEndian_append (xs ys : List Byte) :
    bigEndian (xs ++ ys) = bigEndian xs * 2 ^ (8 * ys.length) + bigEndian ys := by
  rw [← bigEndian_foldl]
  exact List.foldl_append

@[simp] theorem bigEndian_nil : bigEndian [] = 0 := rfl

theorem bigEndian_cons (x : Byte) (xs : List Byte) :
    bigEndian (x :: xs) = x.toNat * 2 ^ (8 * xs.length) + bigEndian xs := by
  simpa [bigEndian] using bigEndian_append [x] xs

theorem bigEndian_lt (xs : List Byte) : bigEndian xs < 2 ^ (8 * xs.length) := by
  induction xs with
  | nil => simp
  | cons x xs ih =>
    have hx : (x.toNat + 1) * 2 ^ (8 * xs.length) ≤ 2 ^ 8 * 2 ^ (8 * xs.length) :=
      Nat.mul_le_mul_right _ x.isLt
    rw [bigEndian_cons, List.length_cons, Nat.mul_succ, Nat.add_comm (8 * _), pow_add]
    rw [Nat.succ_mul] at hx
    omega

/-- Dropping bytes from the front keeps the value of the bytes behind them. -/
theorem bigEndian_drop (xs : List Byte) (w : Nat) :
    bigEndian (xs.drop w) = bigEndian xs % 2 ^ (8 * (xs.length - w)) := by
  have hsplit := bigEndian_append (xs.take w) (xs.drop w)
  have hlt := bigEndian_lt (xs.drop w)
  rw [List.take_append_drop] at hsplit
  rw [List.length_drop] at hsplit hlt
  rw [hsplit, Nat.mul_add_mod_self_right, Nat.mod_eq_of_lt hlt]

/-- The bits a shift by `r < 8` moves out of the top are the top bits of the first byte. -/
theorem bigEndian_mul_div (xs : List Byte) (r : Nat) (hr : r < 8) :
    bigEndian xs * 2 ^ r / 2 ^ (8 * xs.length) = (xs.headD 0#8).toNat / 2 ^ (8 - r) := by
  cases xs with
  | nil => simp
  | cons x xs =>
    have hpow : 2 ^ (8 * (x :: xs).length) = 2 ^ (8 * xs.length) * 2 ^ (8 - r) * 2 ^ r := by
      rw [← pow_add, ← pow_add, List.length_cons]
      congr 1
      omega
    rw [hpow, Nat.mul_div_mul_right _ _ (Nat.two_pow_pos r), ← Nat.div_div_eq_div_mul, bigEndian_cons,
      Nat.mul_comm x.toNat, Nat.mul_add_div (Nat.two_pow_pos _), Nat.div_eq_of_lt (bigEndian_lt xs)]
    rfl

/-! ## The array shift by bytes and by bits -/

/-- A shifted byte: the byte's low bits on top, the next byte's top bits below them
(42_shiftcache.md R140). -/
theorem shiftedByte_toNat (x y : Byte) (r : Nat) (hr : r < 8) :
    ((x <<< r) ||| (y >>> (8 - r))).toNat = (x.toNat * 2 ^ r + y.toNat / 2 ^ (8 - r)) % 2 ^ 8 := by
  have hy : y.toNat / 2 ^ (8 - r) < 2 ^ r := by
    rw [Nat.div_lt_iff_lt_mul (Nat.two_pow_pos _), ← pow_add, show r + (8 - r) = 8 by omega]
    exact y.isLt
  have hor : x.toNat * 2 ^ r + y.toNat / 2 ^ (8 - r) = x.toNat <<< r ||| y.toNat >>> (8 - r) := by
    rw [Nat.shiftRight_eq_div_pow, ← Nat.shiftLeft_add_eq_or_of_lt hy, Nat.shiftLeft_eq]
  have hlow : y.toNat >>> (8 - r) < 2 ^ 8 := (Nat.shiftRight_le _ _).trans_lt y.isLt
  rw [hor, Nat.or_mod_two_pow, Nat.mod_eq_of_lt hlow, BitVec.toNat_or, BitVec.toNat_shiftLeft,
    BitVec.toNat_ushiftRight]

/-- The whole bytes of the distance come off the front; the bit part shifts what remains. -/
theorem arrayBitShift_eq_drop (xs : List Byte) (d : Nat) :
    arrayBitShift xs d = arrayBitShift (xs.drop (d / 8)) (d % 8) := by
  have hbyte : d % 8 / 8 = 0 := by omega
  simp [arrayBitShift, hbyte]

theorem arrayBitShift_cons (x : Byte) (xs : List Byte) (r : Nat) (hr : r < 8) :
    arrayBitShift (x :: xs) r = ((x <<< r) ||| (xs.headD 0#8 >>> (8 - r))) :: arrayBitShift xs r := by
  have hbyte : r / 8 = 0 := by omega
  have hbit : r % 8 = r := Nat.mod_eq_of_lt hr
  cases xs <;> simp [arrayBitShift, hbyte, hbit]

/-- A shift by less than a byte multiplies the big-endian value and drops what overflows the array: what
leaves the top of the tail enters the byte before it (`bigEndian_mul_div`). -/
theorem bigEndian_arrayBitShift_of_lt (xs : List Byte) (r : Nat) (hr : r < 8) :
    bigEndian (arrayBitShift xs r) = bigEndian xs * 2 ^ r % 2 ^ (8 * xs.length) := by
  induction xs with
  | nil => simp [arrayBitShift]
  | cons x xs ih =>
    have hlen : (arrayBitShift xs r).length = xs.length := arrayBitShift_view_length xs r hr
    have hsum : bigEndian (x :: xs) * 2 ^ r =
        2 ^ (8 * xs.length) * (x.toNat * 2 ^ r) + bigEndian xs * 2 ^ r := by
      rw [bigEndian_cons]; ring
    have hpow : 2 ^ (8 * (x :: xs).length) = 2 ^ (8 * xs.length) * 2 ^ 8 := by
      rw [← pow_add]; rfl
    rw [arrayBitShift_cons x xs r hr, bigEndian_cons, hlen, ih, shiftedByte_toNat _ _ r hr, hpow, hsum,
      Nat.mod_mul, Nat.mul_add_mod, Nat.mul_add_div (Nat.two_pow_pos _), bigEndian_mul_div xs r hr]
    ring

/-- Shifting by `w` further bytes and dropping the overflow keeps the low bytes above `w` zero bytes. -/
theorem mul_pow_mod_div (m len w : Nat) :
    m * 2 ^ (8 * w) % 2 ^ (8 * len) / 2 ^ (8 * w) = m % 2 ^ (8 * (len - w)) := by
  rcases Nat.le_total w len with h | h
  · have hpow : 2 ^ (8 * len) = 2 ^ (8 * (len - w)) * 2 ^ (8 * w) := by
      rw [← pow_add]
      congr 1
      omega
    rw [hpow, Nat.mul_mod_mul_right, Nat.mul_div_cancel _ (Nat.two_pow_pos _)]
  · have hlt : m * 2 ^ (8 * w) % 2 ^ (8 * len) < 2 ^ (8 * w) :=
      (Nat.mod_lt _ (Nat.two_pow_pos _)).trans_le (Nat.pow_le_pow_right two_pos (by omega))
    rw [Nat.div_eq_of_lt hlt, Nat.sub_eq_zero_of_le h, Nat.mul_zero, pow_zero, Nat.mod_one]

/-- Settles O35: the byte part of the distance drops the front bytes, the bit part multiplies what
remains, and both are one multiplication by 2^d. -/
theorem arrayBitShiftIsABigEndianShift : Obligations.ArrayBitShiftIsABigEndianShift := by
  refine fun xs d => ⟨arrayBitShift_length xs d, ?_⟩
  have hr : d % 8 < 8 := Nat.mod_lt d (by decide)
  have hpow : 2 ^ d = 2 ^ (d % 8) * 2 ^ (8 * (d / 8)) := by rw [← pow_add, Nat.mod_add_div]
  calc bigEndian (arrayBitShift xs d)
      = bigEndian (arrayBitShift (xs.drop (d / 8)) (d % 8)) := by rw [← arrayBitShift_eq_drop]
    _ = bigEndian xs % 2 ^ (8 * (xs.length - d / 8)) * 2 ^ (d % 8) % 2 ^ (8 * (xs.length - d / 8)) := by
        rw [bigEndian_arrayBitShift_of_lt _ _ hr, bigEndian_drop, List.length_drop]
    _ = bigEndian xs * 2 ^ (d % 8) % 2 ^ (8 * (xs.length - d / 8)) := Nat.mod_mul_mod _ _ _
    _ = bigEndian xs * 2 ^ d % 2 ^ (8 * xs.length) / 2 ^ (8 * (d / 8)) := by
        rw [hpow, ← Nat.mul_assoc, mul_pow_mod_div]

/-! ## The stream bits of a view -/

/-- Byte `k` of a view comes from bytes `k` and `k + 1` of the stream, 0 past its end
(42_shiftcache.md R140). -/
theorem arrayBitShift_getElem (xs : List Byte) (v k : Nat) (hv : v < 8)
    (hk : k < (arrayBitShift xs v).length) :
    (arrayBitShift xs v)[k] = (xs.getD k 0#8 <<< v) ||| (xs.getD (k + 1) 0#8 >>> (8 - v)) := by
  induction xs generalizing k with
  | nil => simp [arrayBitShift] at hk
  | cons x xs ih =>
    simp only [arrayBitShift_cons x xs v hv] at hk ⊢
    cases k with
    | zero => cases xs <;> rfl
    | succ k => simpa using ih k (by simpa using hk)

/-- Bit 7 - i of byte `k` of view `v` is stream bit 8k + i + v: it lies in byte `k`, or, where i + v
passes 7, in the byte after it. -/
theorem arrayBitShift_getLsbD (xs : List Byte) (v k i : Nat) (hv : v < 8) (hi : i < 8)
    (hk : k < (arrayBitShift xs v).length) :
    (arrayBitShift xs v)[k].getLsbD (7 - i) = streamBit (fun j => xs.getD j 0#8) (8 * k + i + v) := by
  rw [arrayBitShift_getElem xs v k hv hk, BitVec.getLsbD_or, BitVec.getLsbD_shiftLeft,
    BitVec.getLsbD_ushiftRight, streamBit]
  rcases Nat.lt_or_ge (i + v) 8 with hsame | hnext
  · have hbyte : (8 * k + i + v) / 8 = k := by omega
    have hbit : 7 - (8 * k + i + v) % 8 = 7 - i - v := by omega
    have hin : 7 - i < 8 := by omega
    have hstay : ¬7 - i < v := by omega
    have hbelow : (xs.getD (k + 1) 0#8).getLsbD (8 - v + (7 - i)) = false :=
      BitVec.getLsbD_of_ge _ _ (by omega)
    simp only [hbyte, hbit, hin, hstay, hbelow, decide_true, decide_false, Bool.not_false, Bool.true_and,
      Bool.or_false]
  · have hbyte : (8 * k + i + v) / 8 = k + 1 := by omega
    have hbit : 7 - (8 * k + i + v) % 8 = 8 - v + (7 - i) := by omega
    have hout : 7 - i < v := by omega
    simp only [hbyte, hbit, hout, decide_true, Bool.not_true, Bool.and_false, Bool.false_and,
      Bool.false_or]

/-- The stream bits of PACKED[0..B-1], with zeros past their end. -/
theorem streamBit_packedBytes (s : State) (b t : Nat) :
    streamBit (fun j => (packedBytes s b).getD j 0#8) t =
      (decide (t < 8 * b) && streamBit (packedAt s) t) := by
  have hlen : (packedBytes s b).length = b := Memory.readBytes_length _ _ _
  by_cases h : t < 8 * b
  · have hbyte : (packedBytes s b).getD (t / 8) 0#8 = packedAt s (t / 8) := by
      rw [List.getD_eq_getElem _ _ (by omega)]
      exact Memory.readBytes_getElem _ _ _ _ _
    simp only [streamBit, hbyte, h, decide_true, Bool.true_and]
  · have hbyte : (packedBytes s b).getD (t / 8) 0#8 = 0#8 := List.getD_eq_default _ _ (by omega)
    simp only [streamBit, hbyte, h, decide_false, Bool.false_and, BitVec.getLsbD_zero]

/-! ## SHIFT -/

/-- RAM as SHIFT leaves it (42_shiftcache.md R141). -/
def shiftedRam (s : State) : Memory := writeViews s.ram (packedBytes s (activeB s)) 8

theorem exec_shift_of_configured (s : State) (h : s.det ≠ .unconf) :
    exec .shift s = .next ((s.setRam (shiftedRam s)).retire 0x11#8 .ok) := by
  have hadm : s.det ∈ precondition .shift := by
    cases hd : s.det with
    | unconf => exact absurd hd h
    | idle | ready => decide
  rw [exec_eq_runCommand, runCommand_admitted _ _ s hadm]
  rfl

@[simp] theorem packedBytes_activeB_length (s : State) :
    (packedBytes s (activeB s)).length = s.batch.toNat / 8 := Memory.readBytes_length _ _ _

/-- The views lie 0x2000 bytes apart, room for the bytes of 65536 samples: none overwrites another. -/
theorem read_shiftedRam_inside (s : State) (v k : Nat) (hn : s.batch.toNat ≤ 65536) (hv : v < 8)
    (hk : k < (arrayBitShift (packedBytes s (activeB s)) v).length) :
    Memory.read (shiftedRam s) (viewBase v + k) = (arrayBitShift (packedBytes s (activeB s)) v)[k] :=
  read_writeViews_inside s.ram _ 8 v k le_rfl (by rw [packedBytes_activeB_length]; omega) hv hk

theorem read_shiftedRam_outside (s : State) (a : Nat) (h : ¬RowByte s.batch.toNat a .shift) :
    Memory.read (shiftedRam s) a = Memory.read s.ram a := by
  refine read_writeViews_outside s.ram _ 8 a le_rfl fun v hv => ?_
  rw [packedBytes_activeB_length]
  unfold viewBase
  by_contra hin
  exact h ⟨v, hv, by omega, by omega⟩

/-- Settles O36: each view holds its shift of PACKED[0..B-1], whose N = 8B stream bits end where the
zeros begin. -/
theorem shiftBuildsTheAdvancedStreams : Obligations.ShiftBuildsTheAdvancedStreams := by
  intro s hs hd
  have hcfg := hs.configured hd
  obtain ⟨_, hcap, _⟩ := (legalMaxBatch_iff _).1 hs.capacity
  have hn : 8 * activeB s = s.batch.toNat := Nat.mul_div_cancel' (Nat.dvd_of_mod_eq_zero hcfg.batch_multiple)
  refine ⟨_, exec_shift_of_configured s hd, rfl, fun v k i hv hk hi => ?_, read_shiftedRam_outside s⟩
  have hlen : k < (arrayBitShift (packedBytes s (activeB s)) v).length := by
    rwa [arrayBitShift_view_length _ v hv, packedBytes_activeB_length]
  have hbyte : shiftAt ((s.setRam (shiftedRam s)).retire 0x11#8 .ok) v k =
      (arrayBitShift (packedBytes s (activeB s)) v)[k] :=
    read_shiftedRam_inside s v k (hcfg.batch_capacity.trans hcap) hv hlen
  rw [hbyte, arrayBitShift_getLsbD _ v k i hv hi hlen, streamBit_packedBytes, hn]

end Sys2Proof.Machine


/-! PROOFS. The correlation engine (43_correlation.md R150 to R152): one lag as a sum over lanes, what CORR
leaves in CURVE, and the closed form of that sum over the stream bits. -/

namespace Sys2Proof.Machine

/-! ## The lanes of a lag -/

/-- The 1 bits of a byte, counted from the top bit down as the stream numbers them (00_scope.md R12). -/
theorem popcount8_eq_sum_from_top (v : Byte) :
    popcount8 v = ∑ q ∈ Finset.range 8, (v.getLsbD (7 - q)).toNat :=
  (Finset.sum_range_reflect (fun q => (v.getLsbD q).toNat) 8).symm

theorem popcount8_le (v : Byte) : popcount8 v ≤ 8 := by
  rw [popcount8_eq_sum_from_top]
  simpa using Finset.sum_le_card_nsmul (Finset.range 8) _ 1 fun q _ => Bool.toNat_le (v.getLsbD (7 - q))

/-- One lag is the sum of the lanes whose view byte exists (43_correlation.md R151). -/
theorem correlateLag_eq_sum_lanes (s : State) (b i : Nat) :
    correlateLag (packedBytes s b) (viewBytes s b) i =
      ∑ j ∈ Finset.range (b - i / 8), popcount8 (packedAt s j ^^^ shiftAt s (i % 8) (j + i / 8)) := by
  have hlanes : List.zipWith (fun (x y : Byte) => popcount8 (x ^^^ y)) (packedBytes s b)
        ((viewBytes s b (i % 8)).drop (i / 8)) =
      (List.range (b - i / 8)).map
        (fun j => popcount8 (packedAt s j ^^^ shiftAt s (i % 8) (j + i / 8))) := by
    apply List.ext_getElem
    · simp [packedBytes, viewBytes]
    · intro j _ _
      simp [packedBytes, viewBytes, packedAt, shiftAt, Nat.add_comm j]
  rw [correlateLag, hlanes]
  rfl

/-- The sum of a lag's lanes cannot overflow a CURVE entry (43_correlation.md R150). -/
theorem correlateLag_le (s : State) (b i : Nat) :
    correlateLag (packedBytes s b) (viewBytes s b) i ≤ 8 * b := by
  rw [correlateLag_eq_sum_lanes]
  calc _ ≤ (Finset.range (b - i / 8)).card • 8 := Finset.sum_le_card_nsmul _ _ _ fun j _ => popcount8_le _
    _ ≤ 8 * b := by rw [Finset.card_range, smul_eq_mul]; omega

/-! ## CORR -/

/-- RAM as CORR leaves it (43_correlation.md R151). -/
def corrRam (s : State) : Memory :=
  Memory.writeBytes s.ram curveBase
    (curveBytes (correlate (packedBytes s (activeB s)) (viewBytes s (activeB s)) (activeN2 s)))

theorem exec_corr_of_configured (s : State) (h : s.det ≠ .unconf) :
    exec .corr s = .next ((s.setRam (corrRam s)).retire 0x12#8 .ok) := by
  have hadm : s.det ∈ precondition .corr := by
    cases hd : s.det with
    | unconf => exact absurd hd h
    | idle | ready => decide
  rw [exec_eq_runCommand, runCommand_admitted _ _ s hadm]
  rfl

/-- CURVE[i] after CORR is the sum of its lag's lanes, uncut: it is at most N. -/
theorem curveAt_after_corr (s : State) (i : Nat) (hi : i < s.batch.toNat / 2) :
    curveAt ((s.setRam (corrRam s)).retire 0x12#8 .ok) i =
      ∑ j ∈ Finset.range (s.batch.toNat / 8 - i / 8),
        popcount8 (packedAt s j ^^^ shiftAt s (i % 8) (j + i / 8)) := by
  have hentry : i < (correlate (packedBytes s (activeB s)) (viewBytes s (activeB s)) (activeN2 s)).length := by
    rwa [correlate_length]
  have hword : Memory.readWord (corrRam s) (curveOffset i) =
      BitVec.ofNat 32 (correlateLag (packedBytes s (activeB s)) (viewBytes s (activeB s)) i) := by
    simpa [correlate, corrRam, curveOffset] using readWord_curveBytes _ s.ram curveBase i hentry
  have hfits : correlateLag (packedBytes s (activeB s)) (viewBytes s (activeB s)) i < 2 ^ 32 :=
    (correlateLag_le s (activeB s) i).trans_lt ((Nat.mul_div_le s.batch.toNat 8).trans_lt s.batch.isLt)
  calc curveAt ((s.setRam (corrRam s)).retire 0x12#8 .ok) i
      = (Memory.readWord (corrRam s) (curveOffset i)).toNat := rfl
    _ = correlateLag (packedBytes s (activeB s)) (viewBytes s (activeB s)) i := by
        rw [hword, BitVec.toNat_ofNat, Nat.mod_eq_of_lt hfits]
    _ = _ := correlateLag_eq_sum_lanes s (activeB s) i

/-! ## The closed form -/

/-- Stream position `b` differs from the one `i` later, positions from N on reading 0
(43_correlation.md R152). -/
def differsAtLag (s : State) (i b : Nat) : Bool :=
  streamBit (packedAt s) b ^^ (decide (b + i < s.batch.toNat) && streamBit (packedAt s) (b + i))

/-- Over the true overlap the difference is between two stream bits. -/
theorem differsAtLag_of_lt (s : State) (i b : Nat) (h : b + i < s.batch.toNat) :
    differsAtLag s i b = true ↔ streamBit (packedAt s) b ≠ streamBit (packedAt s) (b + i) := by
  rw [differsAtLag, decide_eq_true h, Bool.true_and, Bool.xor_iff_ne]

/-- Against the zero fill a stream bit differs when it is 1. -/
theorem differsAtLag_of_ge (s : State) (i b : Nat) (h : s.batch.toNat ≤ b + i) :
    differsAtLag s i b = streamBit (packedAt s) b := by
  rw [differsAtLag, decide_eq_false (Nat.not_lt.2 h), Bool.false_and, Bool.xor_false]

/-- A sum over the positions of a byte array, byte by byte. -/
theorem sum_range_bytes (f : Nat → Nat) (n : Nat) :
    ∑ j ∈ Finset.range n, ∑ q ∈ Finset.range 8, f (8 * j + q) = ∑ b ∈ Finset.range (8 * n), f b := by
  induction n with
  | zero => rfl
  | succ n ih => rw [Finset.sum_range_succ, ih, Nat.mul_succ, Finset.sum_range_add]

/-- The positions a Boolean function picks out of a set, as the sum of its values. -/
theorem sum_toNat_eq_card (p : Nat → Bool) (t : Finset Nat) :
    ∑ b ∈ t, (p b).toNat = (t.filter (fun b => p b = true)).card := by
  rw [Finset.card_filter]
  exact Finset.sum_congr rfl fun b _ => Bool.cond_eq_ite (p b) 1 0

/-- The premise of 43_correlation.md R152: each view is what SHIFT makes of the present PACKED
(42_shiftcache.md R142). -/
def ViewsOfPacked (s : State) : Prop :=
  ∀ v k i, v < 8 → k < s.batch.toNat / 8 → i < 8 →
    (shiftAt s v k).getLsbD (7 - i) =
      (decide (8 * k + i + v < s.batch.toNat) && streamBit (packedAt s) (8 * k + i + v))

/-- Bit 7 - q of a lane compares stream positions 8j + q and 8j + q + i. -/
theorem popcount8_lane (s : State) (hviews : ViewsOfPacked s) (i j : Nat) (hj : j + i / 8 < s.batch.toNat / 8) :
    popcount8 (packedAt s j ^^^ shiftAt s (i % 8) (j + i / 8)) =
      ∑ q ∈ Finset.range 8, (differsAtLag s i (8 * j + q)).toNat := by
  rw [popcount8_eq_sum_from_top]
  refine Finset.sum_congr rfl fun q hq => ?_
  have hq : q < 8 := Finset.mem_range.1 hq
  have hposition : 8 * (j + i / 8) + q + i % 8 = 8 * j + q + i := by omega
  have hbyte : (8 * j + q) / 8 = j := by omega
  have hbit : (8 * j + q) % 8 = q := by omega
  have hpacked : (packedAt s j).getLsbD (7 - q) = streamBit (packedAt s) (8 * j + q) := by
    rw [streamBit, hbyte, hbit]
  rw [BitVec.getLsbD_xor, hviews _ _ q (Nat.mod_lt i (by decide)) hj hq, hposition, hpacked, differsAtLag]

/-- The lanes of a lag together compare the first N - i + (i mod 8) stream positions. -/
theorem sum_lanes_eq_sum_positions (s : State) (hviews : ViewsOfPacked s) (hn : s.batch.toNat % 8 = 0)
    (i : Nat) (hi : i < s.batch.toNat) :
    ∑ j ∈ Finset.range (s.batch.toNat / 8 - i / 8),
        popcount8 (packedAt s j ^^^ shiftAt s (i % 8) (j + i / 8)) =
      ∑ b ∈ Finset.range (s.batch.toNat - i + i % 8), (differsAtLag s i b).toNat := by
  have hlength : 8 * (s.batch.toNat / 8 - i / 8) = s.batch.toNat - i + i % 8 := by omega
  rw [← hlength, ← sum_range_bytes]
  refine Finset.sum_congr rfl fun j hj => popcount8_lane s hviews i j ?_
  have := Finset.mem_range.1 hj
  omega

/-- The positions that differ, split where the zero fill begins. -/
theorem sum_positions_eq_card_add_card (s : State) (i : Nat) (hi : i < s.batch.toNat) :
    ∑ b ∈ Finset.range (s.batch.toNat - i + i % 8), (differsAtLag s i b).toNat =
      ((Finset.range (s.batch.toNat - i)).filter
        (fun b => streamBit (packedAt s) b ≠ streamBit (packedAt s) (b + i))).card +
      ((Finset.Ico (s.batch.toNat - i) (s.batch.toNat - i + i % 8)).filter
        (fun b => streamBit (packedAt s) b = true)).card := by
  rw [← Finset.sum_range_add_sum_Ico _ (Nat.le_add_right (s.batch.toNat - i) (i % 8)), sum_toNat_eq_card,
    sum_toNat_eq_card]
  congr 2
  · refine Finset.filter_congr fun b hb => ?_
    have := Finset.mem_range.1 hb
    exact differsAtLag_of_lt s i b (by omega)
  · refine Finset.filter_congr fun b hb => ?_
    have := (Finset.mem_Ico.1 hb).1
    rw [differsAtLag_of_ge s i b (by omega)]

/-- Settles O38: CORR sums the lanes, the lanes' bits are the stream positions below N - i + (i mod 8), and
the zero fill begins at N - i. -/
theorem corrClosedForm : Obligations.CorrClosedForm := by
  intro s hs hd hviews
  refine ⟨_, exec_corr_of_configured s hd, fun i hi => ?_⟩
  have hlt : i < s.batch.toNat := by omega
  rw [curveAt_after_corr s i hi, sum_lanes_eq_sum_positions s hviews (hs.configured hd).batch_multiple i hlt,
    sum_positions_eq_card_add_card s i hlt]

end Sys2Proof.Machine


/-! PROOFS. The harmonic analyzer (44_harmonic.md R160 to R167): the extremes of the curve as HARM's three
registers hold them, the division it accepts, and the two ways it ends. -/

namespace Sys2Proof.Machine

/-! ## The extremes of the curve -/

/-- What 44_harmonic.md R161 and R162 say of `globalMax`, `bestValue` and the uncorrected `bestLag`. -/
structure CurveExtremes (s : State) (g bv bl : Nat) : Prop where
  le_max : ∀ i, i < s.batch.toNat / 2 → curveAt s i ≤ g
  max_attained : ∃ i, i < s.batch.toNat / 2 ∧ curveAt s i = g
  min_le : ∀ i, s.minPeriod.toNat ≤ i → i < s.batch.toNat / 2 → bv ≤ curveAt s i
  minPeriod_le : s.minPeriod.toNat ≤ bl
  lag_lt : bl < s.batch.toNat / 2
  value_at_lag : curveAt s bl = bv
  ne_before_lag : ∀ i, s.minPeriod.toNat ≤ i → i < bl → curveAt s i ≠ bv

theorem curveAt_lt (s : State) (i : Nat) : curveAt s i < 2 ^ 32 := BitVec.isLt _

/-- The analyzer over the state's curve, as HARM runs it (44_harmonic.md R160). -/
def harmResult (s : State) : HarmResult := analyzeCurve (curveAt s) (activeN2 s) s.minPeriod.toNat

/-- Over a search range that is not empty, the two searches find the extremes. -/
theorem harmResult_extremes (s : State) (hrange : s.minPeriod.toNat < s.batch.toNat / 2) :
    CurveExtremes s (harmResult s).globalMax (harmResult s).bestValue (harmResult s).bestLag := by
  have hend : s.minPeriod.toNat + (activeN2 s - s.minPeriod.toNat) = s.batch.toNat / 2 :=
    Nat.add_sub_of_le hrange.le
  obtain ⟨⟨hge, hlt⟩, hmin, hfirst⟩ :=
    argMin_spec (curveAt s) s.minPeriod.toNat (activeN2 s - s.minPeriod.toNat) (Nat.sub_pos_of_lt hrange)
  rw [hend] at hlt hmin
  exact
    { le_max := le_curveMax _ _
      max_attained := curveMax_attained _ _ (Nat.zero_lt_of_lt hrange)
      min_le := hmin
      minPeriod_le := hge
      lag_lt := hlt
      value_at_lag := rfl
      ne_before_lag := fun i hi hlag => (hfirst i hi hlag).ne' }

/-- The state once HARM has written GLOBAL_MAX, BEST_VALUE and BEST_LAG. -/
def harmBest (s : State) : State :=
  s.setBest (harmResult s).globalMax (harmResult s).bestValue (harmResult s).bestLag

/-- The lag range HARM searches is never empty (40_config.md R120). -/
theorem minPeriod_lt_half (s : State) (hs : Inv s) (hd : s.det ≠ .unconf) :
    s.minPeriod.toNat < s.batch.toNat / 2 := (hs.configured hd).minPeriod_bound

/-- BEST_LAG holds the analyzer's answer uncut: it is an index below N. -/
theorem harmBest_bestLag_toNat (s : State) (hrange : s.minPeriod.toNat < s.batch.toNat / 2) :
    (harmBest s).bestLag.toNat = (harmResult s).bestLag := by
  have hlag := (harmResult_extremes s hrange).lag_lt
  exact Nat.mod_eq_of_lt (by have := s.batch.isLt; omega)

/-- GLOBAL_MAX holds the analyzer's answer uncut: it is a value of the curve. -/
theorem harmBest_globalMax_toNat (s : State) (hrange : s.minPeriod.toNat < s.batch.toNat / 2) :
    (harmBest s).globalMax.toNat = (harmResult s).globalMax := by
  obtain ⟨i, _, hi⟩ := (harmResult_extremes s hrange).max_attained
  exact Nat.mod_eq_of_lt (hi ▸ curveAt_lt s i)

/-- BEST_VALUE holds the analyzer's answer uncut: it is a value of the curve. -/
theorem harmBest_bestValue_toNat (s : State) :
    (harmBest s).bestValue.toNat = (harmResult s).bestValue :=
  Nat.mod_eq_of_lt (curveAt_lt s _)

/-- The three registers hold the extremes of the curve. -/
theorem harmBest_extremes (s : State) (hs : Inv s) (hd : s.det ≠ .unconf) :
    CurveExtremes s (harmBest s).globalMax.toNat (harmBest s).bestValue.toNat
      (harmBest s).bestLag.toNat := by
  have hrange := minPeriod_lt_half s hs hd
  rw [harmBest_globalMax_toNat s hrange, harmBest_bestValue_toNat, harmBest_bestLag_toNat s hrange]
  exact harmResult_extremes s hrange

/-! ## The accepted division -/

/-- `d` is the division 44_harmonic.md R165 accepts for the maximum `g` and the uncorrected lag `bl`. -/
structure LargestDivision (s : State) (g bl d : Nat) : Prop where
  one_le : 1 ≤ d
  le_maxDiv : d ≤ bl / s.minPeriod.toNat
  passes : ∀ k, 1 ≤ k → k ≤ d - 1 → 20 * curveAt s (k * bl / d) ≤ 3 * g
  larger_fails : ∀ d', d < d' → d' ≤ bl / s.minPeriod.toNat →
    ∃ k, 1 ≤ k ∧ k ≤ d' - 1 ∧ ¬(20 * curveAt s (k * bl / d') ≤ 3 * g)

/-- A division is refused exactly when one of its indices fails (44_harmonic.md R165). -/
theorem divisionPasses_eq_false_iff (curve : Nat → Nat) (g bl d : Nat) :
    divisionPasses curve g bl d = false ↔
      ∃ k, 1 ≤ k ∧ k ≤ d - 1 ∧ ¬(20 * curve (k * bl / d) ≤ 3 * g) := by
  rw [← Bool.not_eq_true, divisionPasses_iff]
  push Not
  rfl

/-- What the division search answers is the largest division that passes. -/
theorem largestDivision_of_acceptedDivision (s : State) (g bl d : Nat)
    (h : acceptedDivision (curveAt s) g bl (bl / s.minPeriod.toNat) = some d) :
    LargestDivision s g bl d := by
  obtain ⟨⟨hone, hle⟩, hpasses, hlarger⟩ := acceptedDivision_spec _ _ _ _ _ h
  exact
    { one_le := hone
      le_maxDiv := hle
      passes := (divisionPasses_iff _ _ _ _).1 hpasses
      larger_fails := fun d' hd hd' => (divisionPasses_eq_false_iff _ _ _ _).1 (hlarger d' hd hd') }

/-- With MINPERIOD ≥ 1 there is a division to try, and the analyzer corrects BEST_LAG by the largest one
that passes (44_harmonic.md R165 to R167). -/
theorem harmResult_corrected (s : State) (hmp : 1 ≤ s.minPeriod.toNat)
    (hlag : s.minPeriod.toNat ≤ (harmResult s).bestLag) :
    ∃ d, LargestDivision s (harmResult s).globalMax (harmResult s).bestLag d ∧
      (harmResult s).corrected = some ((harmResult s).bestLag / d) := by
  obtain ⟨d, hacc⟩ := acceptedDivision_isSome (curveAt s) (harmResult s).globalMax
    (harmResult s).bestLag _ (Nat.div_pos hlag hmp)
  refine ⟨d, largestDivision_of_acceptedDivision s _ _ _ hacc, ?_⟩
  calc (harmResult s).corrected
      = (acceptedDivision (curveAt s) (harmResult s).globalMax (harmResult s).bestLag
          ((harmResult s).bestLag / s.minPeriod.toNat)).map (fun d => (harmResult s).bestLag / d) :=
        if_neg (Nat.ne_of_gt hmp)
    _ = some ((harmResult s).bestLag / d) := by rw [hacc]; rfl

/-! ## HARM -/

theorem exec_harm_of_configured (s : State) (hd : s.det ≠ .unconf) :
    exec .harm s = .next (finish 0x13#8 (harmBody s)) := by
  have hadm : s.det ∈ precondition .harm := by
    cases h : s.det with
    | unconf => exact absurd h hd
    | idle | ready => decide
  rw [exec_eq_runCommand, runCommand_admitted _ _ s hadm]
  rfl

/-- With MINPERIOD = 0, HARM ends after its three results (44_harmonic.md R163). -/
theorem exec_harm_of_minPeriod_zero (s : State) (hd : s.det ≠ .unconf) (hmp : s.minPeriod.toNat = 0) :
    exec .harm s = .next ((harmBest s).retire 0x13#8 .degenerateLag) := by
  rw [exec_harm_of_configured s hd]
  rcases harmBody_cases s (harmResult s) rfl with ⟨_, hbody⟩ | ⟨hpos, _⟩
  · rw [hbody]; rfl
  · exact absurd hmp hpos

/-- With MINPERIOD ≥ 1, HARM goes on to LAG and succeeds (44_harmonic.md R165 and R166). -/
theorem exec_harm_of_minPeriod_pos (s : State) (hs : Inv s) (hd : s.det ≠ .unconf)
    (hmp : 1 ≤ s.minPeriod.toNat) :
    ∃ d, LargestDivision s (harmBest s).globalMax.toNat (harmBest s).bestLag.toNat d ∧
      exec .harm s = .next (((harmBest s).setLag
        (BitVec.ofNat 32 ((harmBest s).bestLag.toNat / d))).retire 0x13#8 .ok) := by
  have hrange := minPeriod_lt_half s hs hd
  rw [exec_harm_of_configured s hd, harmBest_globalMax_toNat s hrange, harmBest_bestLag_toNat s hrange]
  obtain ⟨d, hlargest, hcorrected⟩ :=
    harmResult_corrected s hmp (harmResult_extremes s hrange).minPeriod_le
  refine ⟨d, hlargest, ?_⟩
  rcases harmBody_cases s (harmResult s) rfl with ⟨hzero, _⟩ | ⟨_, hbody⟩
  · omega
  · rw [hbody, hcorrected]; rfl

/-- However HARM ends, it has written its three results, LAG at most, and the outcome. -/
theorem exec_harm_writes (s : State) (hs : Inv s) (hd : s.det ≠ .unconf) :
    ∃ lag e, exec .harm s = .next (((harmBest s).setLag lag).retire 0x13#8 e) := by
  rcases Nat.eq_zero_or_pos s.minPeriod.toNat with hzero | hpos
  · exact ⟨s.lag, .degenerateLag, exec_harm_of_minPeriod_zero s hd hzero⟩
  · obtain ⟨d, _, hexec⟩ := exec_harm_of_minPeriod_pos s hs hd hpos
    exact ⟨_, _, hexec⟩

/-- A quotient of BEST_LAG fits in LAG. -/
theorem toNat_ofNat_bestLag_div (s : State) (d : Nat) :
    (BitVec.ofNat 32 (s.bestLag.toNat / d)).toNat = s.bestLag.toNat / d :=
  Nat.mod_eq_of_lt ((Nat.div_le_self _ _).trans_lt s.bestLag.isLt)

/-- Settles O39: the three registers hold what the two searches find, and both of HARM's endings leave
them. -/
theorem harmFindsTheExtremes : Obligations.HarmFindsTheExtremes := by
  intro s hs hd
  obtain ⟨lag, e, hexec⟩ := exec_harm_writes s hs hd
  have h := harmBest_extremes s hs hd
  exact ⟨_, hexec, rfl, h.le_max, h.max_attained, h.min_le, h.minPeriod_le, h.lag_lt, h.value_at_lag,
    h.ne_before_lag⟩

/-- Settles O40: the search runs down from maxDiv ≥ 1, so it accepts a division, and the first one it
accepts is the largest. -/
theorem harmAcceptsTheLargestDivision : Obligations.HarmAcceptsTheLargestDivision := by
  intro s hs hd hmp
  obtain ⟨d, hlargest, hexec⟩ := exec_harm_of_minPeriod_pos s hs hd hmp
  exact ⟨_, d, hexec, rfl, rfl, hlargest.one_le, hlargest.le_maxDiv, hlargest.passes,
    hlargest.larger_fails, toNat_ofNat_bestLag_div (harmBest s) d⟩

/-- Settles O41: HARM raises DegenerateLag before it reaches LAG, and a search from 0 on covers the whole
curve. -/
theorem harmWithoutMinPeriodIsDegenerate : Obligations.HarmWithoutMinPeriodIsDegenerate := by
  refine ⟨rfl, fun s hs hd hmp => ?_⟩
  have h := harmBest_extremes s hs hd
  have hfrom (i : Nat) : s.minPeriod.toNat ≤ i := hmp ▸ i.zero_le
  exact ⟨_, exec_harm_of_minPeriod_zero s hd hmp, rfl, h.le_max, h.max_attained,
    fun i => h.min_le i (hfrom i), h.lag_lt, h.value_at_lag, fun i => h.ne_before_lag i (hfrom i)⟩

/-! ## The bounds of the search -/

/-- The index of a check lies below the lag it divides, which is above 0 where there is a division to
check. -/
theorem checkedIndex_lt {bl d k : Nat} (hbl : 0 < bl) (hk : 1 ≤ k) (hkd : k ≤ d - 1) :
    k * bl / d < bl := by
  have hlt : k < d := by omega
  rw [Nat.div_lt_iff_lt_mul (by omega), Nat.mul_comm bl]
  exact Nat.mul_lt_mul_of_pos_right hlt hbl

/-- N2 is at most 32768, the half of the largest capacity (00_scope.md R8). -/
theorem half_le (s : State) (hs : Inv s) : s.batch.toNat / 2 ≤ 2 ^ 15 := by
  obtain ⟨_, hcap, _⟩ := (legalMaxBatch_iff _).1 hs.capacity
  have := hs.batch_le
  omega

/-- Settles O42: BEST_LAG is an index of the curve from MINPERIOD on, so a division by at most
BEST_LAG div MINPERIOD stays between the two; indices are at most 2^15, and curve values have 32 bits. -/
theorem harmStaysInsideTheCurve : Obligations.HarmStaysInsideTheCurve := by
  intro s t hs hd hmp ht
  obtain ⟨d, hlargest, hexec⟩ := exec_harm_of_minPeriod_pos s hs hd hmp
  cases hexec.symm.trans ht
  have hext := harmBest_extremes s hs hd
  have hhalf := half_le s hs
  have hlag := toNat_ofNat_bestLag_div (harmBest s) d
  have hmul := (Nat.le_div_iff_mul_le hmp).1 hlargest.le_maxDiv
  refine ⟨rfl, Nat.div_pos hext.minPeriod_le hmp, ?_, ?_, Nat.le_pred_of_lt hext.lag_lt, ?_,
    fun d' k _ hd' hk hkd => ⟨checkedIndex_lt (hmp.trans hext.minPeriod_le) hk hkd, ?_, ?_⟩⟩
  · calc s.minPeriod.toNat
        ≤ (harmBest s).bestLag.toNat / d :=
          (Nat.le_div_iff_mul_le hlargest.one_le).2 (by rwa [Nat.mul_comm])
      _ = _ := hlag.symm
  · exact hlag.trans_le (Nat.div_le_self _ _)
  · have hg : (harmBest s).globalMax.toNat < 2 ^ 32 := BitVec.isLt _
    calc 3 * (harmBest s).globalMax.toNat < 3 * 2 ^ 32 := by omega
      _ < 2 ^ 37 := by decide
  · have hbl : (harmBest s).bestLag.toNat ≤ 2 ^ 15 := hext.lag_lt.le.trans hhalf
    have hkbl : k ≤ (harmBest s).bestLag.toNat :=
      calc k ≤ d' := hkd.trans (Nat.sub_le d' 1)
        _ ≤ (harmBest s).bestLag.toNat := hd'.trans (Nat.div_le_self _ _)
    exact (Nat.mul_le_mul (hkbl.trans hbl) hbl).trans_lt (by decide)
  · have hc := curveAt_lt s (k * (harmBest s).bestLag.toNat / d')
    calc 20 * curveAt s (k * (harmBest s).bestLag.toNat / d') < 20 * 2 ^ 32 := by omega
      _ < 2 ^ 37 := by decide

end Sys2Proof.Machine

/-! PROOFS. The pitch refiner (45_pitch.md R181 to R188): the one rounding of 00_scope.md R14 keeps a value
between representable bounds, and with it the interpolation, the refined lag and the pitch in theirs. -/

namespace Sys2Proof.Machine

/-! ## Rounding keeps representable bounds -/

/-- The number of units `p / q` is rounded to. -/
def roundedUnits (p q : Nat) : Nat :=
  roundQuotient p (q * 2 ^ unitStep (p / q)) * 2 ^ unitStep (p / q)

theorem roundUnits_of_lt (neg : Bool) (p q : Nat) (h : roundedUnits p q < 2 ^ 2098) :
    roundUnits neg p q = .fin neg (roundedUnits p q) := by
  rw [← Nat.not_le] at h
  unfold roundUnits
  simp only [ge_iff_le]
  rw [← roundedUnits, if_neg h]

theorem le_roundQuotient {m p q : Nat} (hq : 0 < q) (h : m * q ≤ p) : m ≤ roundQuotient p q := by
  have hdiv : m ≤ p / q := (Nat.le_div_iff_mul_le hq).2 h
  unfold roundQuotient
  split <;> omega

/-- A quotient that is not above an integer is not rounded above it: at the integer itself nothing is
left to round. -/
theorem roundQuotient_le {m p q : Nat} (hq : 0 < q) (h : p ≤ m * q) : roundQuotient p q ≤ m := by
  have hdiv : p / q ≤ m := Nat.div_le_of_le_mul (by rwa [Nat.mul_comm])
  have hsplit : q * (p / q) + p % q = p := Nat.div_add_mod p q
  unfold roundQuotient
  split
  next hup =>
    refine Nat.succ_le_of_lt (lt_of_le_of_ne hdiv fun heq => ?_)
    rw [heq, Nat.mul_comm q m] at hsplit
    omega
  next => exact hdiv

/-- In a binade above the subnormals the quotient fills the 53 bits of the significand. -/
theorem unitStep_cases (n : Nat) :
    unitStep n = 0 ∨ 2 ^ (52 + unitStep n) ≤ n := by
  rcases Nat.eq_zero_or_pos (unitStep n) with h | h
  · exact .inl h
  · have hlog : 52 + unitStep n = n.log2 := by unfold unitStep at h ⊢; omega
    have hn : n ≠ 0 := by rintro rfl; simp [unitStep] at h
    exact .inr (hlog ▸ Nat.log2_self_le hn)

theorem significand_mul_two_pow_lt {m e k : Nat} (hm : m < 2 ^ 53) (hk : 53 + e ≤ k) :
    m * 2 ^ e < 2 ^ k :=
  calc m * 2 ^ e < 2 ^ 53 * 2 ^ e := Nat.mul_lt_mul_of_pos_right hm (Nat.two_pow_pos e)
    _ = 2 ^ (53 + e) := (Nat.pow_add 2 53 e).symm
    _ ≤ 2 ^ k := Nat.pow_le_pow_right (by decide) hk

/-- Rounding never goes past a representable value above the quotient. -/
theorem roundedUnits_le {hi p q : Nat} (hq : 0 < q) (hrep : Representable hi) (h : p ≤ hi * q) :
    roundedUnits p q ≤ hi := by
  obtain ⟨_, m, e, hm, rfl⟩ := hrep
  have hdiv : p / q ≤ m * 2 ^ e := Nat.div_le_of_le_mul (by rwa [Nat.mul_comm])
  have hk : unitStep (p / q) ≤ e := by
    rcases unitStep_cases (p / q) with hzero | hfull
    · omega
    · by_contra hlt
      exact (hfull.trans hdiv).not_gt (significand_mul_two_pow_lt hm (by omega))
  unfold roundedUnits
  generalize unitStep (p / q) = k at hk ⊢
  obtain ⟨d, rfl⟩ := Nat.exists_eq_add_of_le' hk
  calc roundQuotient p (q * 2 ^ k) * 2 ^ k
      ≤ m * 2 ^ d * 2 ^ k := Nat.mul_le_mul_right _
        (roundQuotient_le (Nat.mul_pos hq (Nat.two_pow_pos k)) (h.trans_eq (by ring)))
    _ = m * 2 ^ (d + k) := by ring

/-- Rounding never goes past a representable value below the quotient: a coarser step than that value's
own only comes with a quotient in a higher binade. -/
theorem le_roundedUnits {lo p q : Nat} (hq : 0 < q) (hrep : Representable lo) (h : lo * q ≤ p) :
    lo ≤ roundedUnits p q := by
  obtain ⟨_, m, e, hm, rfl⟩ := hrep
  have hcases := unitStep_cases (p / q)
  unfold roundedUnits
  generalize unitStep (p / q) = k at hcases ⊢
  have hpos : 0 < q * 2 ^ k := Nat.mul_pos hq (Nat.two_pow_pos k)
  rcases Nat.lt_or_ge e k with hk | hk
  · have hfull : 2 ^ (52 + k) * q ≤ p := (Nat.le_div_iff_mul_le hq).1 (hcases.resolve_left (by omega))
    calc m * 2 ^ e ≤ 2 ^ (52 + k) := (significand_mul_two_pow_lt hm (by omega)).le
      _ = 2 ^ 52 * 2 ^ k := Nat.pow_add 2 52 k
      _ ≤ _ := Nat.mul_le_mul_right _ (le_roundQuotient hpos (le_of_eq_of_le (by ring) hfull))
  · obtain ⟨d, rfl⟩ := Nat.exists_eq_add_of_le' hk
    calc m * 2 ^ (d + k) = m * 2 ^ d * 2 ^ k := by ring
      _ ≤ _ := Nat.mul_le_mul_right _ (le_roundQuotient hpos (le_of_eq_of_le (by ring) h))

/-- A quotient between two representable values is rounded to a finite value between them. -/
theorem roundUnits_between (neg : Bool) {lo hi p q : Nat} (hq : 0 < q) (hlo : Representable lo)
    (hhi : Representable hi) (hge : lo * q ≤ p) (hle : p ≤ hi * q) :
    ∃ u, roundUnits neg p q = .fin neg u ∧ lo ≤ u ∧ u ≤ hi :=
  ⟨_, roundUnits_of_lt neg p q ((roundedUnits_le hq hhi hle).trans_lt hhi.1),
    le_roundedUnits hq hlo hge, roundedUnits_le hq hhi hle⟩

/-- A representable quotient is rounded to itself. -/
theorem roundUnits_exact (neg : Bool) {u p q : Nat} (hq : 0 < q) (hu : Representable u) (h : p = u * q) :
    roundUnits neg p q = .fin neg u := by
  obtain ⟨v, hround, hge, hle⟩ := roundUnits_between neg hq hu hu h.ge h.le
  rw [hround, Nat.le_antisymm hle hge]

theorem representable_mul_two_pow {m k : Nat} (hm : m < 2 ^ 53) (hk : k ≤ 2045) :
    Representable (m * 2 ^ k) :=
  ⟨significand_mul_two_pow_lt hm (by omega), m, k, hm, rfl⟩

theorem representable_of_lt {m : Nat} (hm : m < 2 ^ 53) : Representable m :=
  Nat.mul_one m ▸ representable_mul_two_pow (k := 0) hm (by decide)

/-- 1.0 is `2 ^ 1074` units. -/
theorem representable_one : Representable (2 ^ 1074) :=
  Nat.one_mul (2 ^ 1074) ▸ representable_mul_two_pow (by decide) (by decide)

/-- `toF64` of an integer below 2^53 is exact (00_scope.md R14). -/
theorem ofNat_eq (n : Nat) (hn : n < 2 ^ 53) : F64.ofNat n = .fin false (n * 2 ^ 1074) :=
  roundUnits_exact false Nat.one_pos (representable_mul_two_pow hn (by decide)) (Nat.mul_one _).symm

/-! ## The values of binary32 patterns -/

/-- The significand of a finite binary32 pattern, the leading bit of a normal number included. -/
def f32Significand (w : Word) : Nat := if f32Exp w = 0 then f32Frac w else 2 ^ 23 + f32Frac w

/-- The magnitude of a finite binary32 pattern in units. -/
def f32Units (w : Word) : Nat := f32Significand w * 2 ^ (925 + (f32Exp w - 1))

theorem f32Exp_lt (w : Word) : f32Exp w < 256 := Nat.mod_lt _ (by decide)

theorem f32Significand_lt (w : Word) : f32Significand w < 2 ^ 53 := by
  have hfrac : f32Frac w < 2 ^ 23 := Nat.mod_lt _ (by decide)
  unfold f32Significand
  split <;> omega

theorem ofF32_of_finite (w : Word) (h : f32Exp w ≠ 255) : F64.ofF32 w = .fin w.msb (f32Units w) := by
  unfold F64.ofF32 f32Units f32Significand
  rw [if_neg h]
  split
  next hzero => rw [hzero]
  next => rw [Nat.add_comm 925, Nat.pow_add, Nat.mul_assoc]

theorem representable_f32Units (w : Word) : Representable (f32Units w) := by
  have := f32Exp_lt w
  exact representable_mul_two_pow (f32Significand_lt w) (by omega)

theorem f32Units_lt (w : Word) : f32Units w < 2 ^ 1232 := by
  have := f32Exp_lt w
  exact significand_mul_two_pow_lt (f32Significand_lt w) (by omega)

/-- Of the finite patterns, the zeros alone have no units. -/
theorem f32Units_pos (w : Word) (h : w.toNat % 2 ^ 31 ≠ 0) : 0 < f32Units w := by
  refine Nat.mul_pos ?_ (Nat.two_pow_pos _)
  unfold f32Significand f32Exp f32Frac
  split <;> omega

theorem f32Units_eq_zero (w : Word) (h : w.toNat % 2 ^ 31 = 0) : f32Units w = 0 := by
  have hsig : f32Significand w = 0 := by
    unfold f32Significand f32Exp f32Frac
    split <;> omega
  rw [f32Units, hsig, Nat.zero_mul]

theorem msb_iff (w : Word) : w.msb = true ↔ 2 ^ 31 ≤ w.toNat := by simp [BitVec.msb_eq_decide]

/-- A positive pattern is +infinity or a positive number (45_pitch.md R181). -/
theorem ofF32_of_positive (w : Word) (hlo : 1 ≤ w.toNat) (hhi : w.toNat ≤ 0x7F800000) :
    F64.ofF32 w = .inf false ∨ (F64.ofF32 w = .fin false (f32Units w) ∧ 0 < f32Units w) := by
  rcases hhi.eq_or_lt with heq | hlt
  · obtain rfl : w = 0x7F800000#32 := BitVec.eq_of_toNat_eq heq
    exact .inl rfl
  · have hexp : f32Exp w ≠ 255 := by unfold f32Exp; omega
    have hmsb : w.msb = false := by rw [← Bool.not_eq_true, msb_iff]; omega
    exact .inr ⟨hmsb ▸ ofF32_of_finite w hexp, f32Units_pos w (by omega)⟩

/-- A non-positive pattern other than -infinity is +0 or a number with the sign bit set
(45_pitch.md R181). -/
theorem ofF32_of_nonPositive (w : Word)
    (h : w.toNat = 0 ∨ (0x80000000 ≤ w.toNat ∧ w.toNat ≤ 0xFF800000)) (hinf : w ≠ 0xFF800000#32) :
    F64.ofF32 w = .fin w.msb (f32Units w) ∧ (w.msb = false → f32Units w = 0) := by
  have hne : w.toNat ≠ 0xFF800000 := fun heq => hinf (BitVec.eq_of_toNat_eq heq)
  have hexp : f32Exp w ≠ 255 := by unfold f32Exp; omega
  refine ⟨ofF32_of_finite w hexp, fun hmsb => f32Units_eq_zero w ?_⟩
  rw [← Bool.not_eq_true, msb_iff] at hmsb
  omega

/-! ## Sums of finite values -/

@[simp] theorem signedUnits_false (u : Nat) : signedUnits false u = u := rfl

@[simp] theorem signedUnits_not (neg : Bool) (u : Nat) : signedUnits (!neg) u = -signedUnits neg u := by
  cases neg <;> simp [signedUnits]

/-- The sign of a zero does not show in its value. -/
theorem signedUnits_of_nonNeg {neg : Bool} {u : Nat} (h : neg = true → u = 0) : signedUnits neg u = u := by
  cases neg with
  | false => rfl
  | true => rw [h rfl]; rfl

theorem natAbs_signedUnits (neg : Bool) (u : Nat) : (signedUnits neg u).natAbs = u := by
  cases neg <;> simp [signedUnits]

theorem add_fin_of_zero (s t : Bool) (u v : Nat) (h : signedUnits s u + signedUnits t v = 0) :
    F64.add (.fin s u) (.fin t v) = .fin (s && t) 0 := if_pos h

/-- A sum that is not 0 is rounded to a finite value between representable bounds of its magnitude. -/
theorem add_fin_between {s t : Bool} {u v lo hi : Nat} {z : Int}
    (hz : signedUnits s u + signedUnits t v = z) (hne : z ≠ 0) (hlo : Representable lo)
    (hhi : Representable hi) (hge : lo ≤ z.natAbs) (hle : z.natAbs ≤ hi) :
    ∃ w, F64.add (.fin s u) (.fin t v) = .fin (decide (z < 0)) w ∧ lo ≤ w ∧ w ≤ hi := by
  subst hz
  obtain ⟨w, hround, hw⟩ := roundUnits_between (decide (signedUnits s u + signedUnits t v < 0))
    Nat.one_pos hlo hhi ((Nat.mul_one lo).trans_le hge) (hle.trans_eq (Nat.mul_one hi).symm)
  exact ⟨w, by rw [F64.add, if_neg hne, hround], hw⟩

/-! ## NaN operands -/

theorem add_nan_left (p : Bits64) (b : F64) : ∃ q, F64.add (.nan p) b = .nan q := ⟨_, rfl⟩

theorem add_nan_right (a : F64) (p : Bits64) : ∃ q, F64.add a (.nan p) = .nan q := by
  cases a <;> exact ⟨_, rfl⟩

theorem sub_nan_left (p : Bits64) (b : F64) : ∃ q, F64.sub (.nan p) b = .nan q := add_nan_left p _

theorem sub_nan_right (a : F64) (p : Bits64) : ∃ q, F64.sub a (.nan p) = .nan q := add_nan_right a _

/-! ## The interpolation -/

/-- The denominator between two finite samples of a crossing: the sum of their magnitudes, rounded, which
is above 0 and no less than that of the sample before the crossing. -/
theorem sub_of_nonPositive {t : Bool} {u v : Nat} (hu : Representable u) (ht : t = false → u = 0)
    (hv : 0 < v) (hmax : v + u ≤ 2 * 2 ^ 1232) :
    ∃ d, F64.sub (.fin false v) (.fin t u) = .fin false d ∧ 0 < d ∧ u ≤ d := by
  have hsum : signedUnits false v + signedUnits (!t) u = ((v + u : Nat) : Int) := by
    rw [signedUnits_of_nonNeg (neg := !t) (fun h => ht (by simpa using h))]
    rfl
  have hlo : Representable (max 1 u) := by
    rcases max_choice 1 u with h | h
    · exact h.symm ▸ representable_of_lt (m := 1) (by decide)
    · exact h.symm ▸ hu
  obtain ⟨d, hd, hge, _⟩ := add_fin_between hsum (by omega) hlo
    (representable_mul_two_pow (m := 2) (k := 1232) (by decide) (by decide)) (by omega) (by omega)
  rw [decide_eq_false (by omega)] at hd
  exact ⟨d, hd, by omega, by omega⟩

theorem div_fin (s : Bool) (u : Nat) {d : Nat} (hd : 0 < d) :
    F64.div (.fin s u) (.fin false d) = roundUnits s (u * 2 ^ 1074) d := by
  rw [F64.div, if_neg hd.ne', Bool.bne_false]

/-- `-0 / d` is -0, and `+0 / d` is +0. -/
theorem div_of_zero (neg : Bool) {d : Nat} (hd : 0 < d) : F64.div (.fin neg 0) (.fin false d) = .fin neg 0 := by
  rw [div_fin neg 0 hd, Nat.zero_mul]
  exact roundUnits_exact neg hd (representable_of_lt (by decide)) (Nat.zero_mul d).symm

/-- A quotient of positive values lies between representable bounds, in units of 1.0. -/
theorem div_fin_between {u d lo hi : Nat} (hd : 0 < d) (hlo : Representable lo) (hhi : Representable hi)
    (hge : lo * d ≤ u * 2 ^ 1074) (hle : u * 2 ^ 1074 ≤ hi * d) :
    ∃ r, F64.div (.fin false u) (.fin false d) = .fin false r ∧ lo ≤ r ∧ r ≤ hi := by
  rw [div_fin false u hd]
  exact roundUnits_between false hd hlo hhi hge hle

/-- A fractional crossing position: in [-0, 1], the zero alone with a minus sign (45_pitch.md R185). -/
def InUnitInterval (x : F64) : Prop :=
  ∃ neg u, x = .fin neg u ∧ u ≤ 2 ^ 1074 ∧ (neg = true → u = 0)

/-- With a finite numerator not above the denominator the quotient lies in [-0, 1]; an infinite
denominator gives a zero. -/
theorem div_inUnitInterval {t : Bool} {u d : Nat} (ht : t = false → u = 0) (hd : 0 < d) (hud : u ≤ d) :
    InUnitInterval (F64.div (.fin (!t) u) (.fin false d)) := by
  cases t with
  | false => exact ⟨true, 0, by rw [ht rfl]; exact div_of_zero true hd, Nat.zero_le _, fun _ => rfl⟩
  | true =>
    have hquot : u * 2 ^ 1074 ≤ 2 ^ 1074 * d := by
      rw [Nat.mul_comm u]
      exact Nat.mul_le_mul_left _ hud
    obtain ⟨r, hr, _, hle⟩ := div_fin_between hd (representable_of_lt (m := 0) (by decide))
      representable_one (by rw [Nat.zero_mul]; exact Nat.zero_le _) hquot
    exact ⟨false, r, hr, hle, fun h => absurd h Bool.false_ne_true⟩

/-- The denominator of Interp(j) is +infinity, or a positive number not below the numerator. -/
theorem CrossAt.denominator {s : State} {j : Nat} (h : CrossAt s j)
    (hinf : sampleAt s (j - 1) ≠ 0xFF800000#32) :
    F64.sub (F64.ofF32 (sampleAt s j)) (F64.ofF32 (sampleAt s (j - 1))) = .inf false ∨
      ∃ d, F64.sub (F64.ofF32 (sampleAt s j)) (F64.ofF32 (sampleAt s (j - 1))) = .fin false d ∧
        0 < d ∧ f32Units (sampleAt s (j - 1)) ≤ d := by
  obtain ⟨⟨hlo, hhi⟩, hbefore⟩ := h
  obtain ⟨hprev, hzero⟩ := ofF32_of_nonPositive _ hbefore hinf
  rw [hprev]
  rcases ofF32_of_positive _ hlo hhi with hcur | ⟨hcur, hpos⟩
  · rw [hcur]
    exact .inl rfl
  · rw [hcur]
    have hv := f32Units_lt (sampleAt s j)
    have hu := f32Units_lt (sampleAt s (j - 1))
    exact .inr (sub_of_nonPositive (representable_f32Units _) hzero hpos (by omega))

/-- After -infinity the denominator is +infinity. -/
theorem CrossAt.denominator_of_negInf {s : State} {j : Nat} (h : CrossAt s j)
    (hinf : sampleAt s (j - 1) = 0xFF800000#32) :
    F64.sub (F64.ofF32 (sampleAt s j)) (F64.ofF32 (sampleAt s (j - 1))) = .inf false := by
  obtain ⟨⟨hlo, hhi⟩, _⟩ := h
  rw [hinf]
  rcases ofF32_of_positive _ hlo hhi with hcur | ⟨hcur, _⟩ <;> rw [hcur] <;> rfl

/-- After -infinity, Interp(j) is the quotient of two infinities. -/
theorem CrossAt.interpolate_of_negInf {s : State} {j : Nat} (h : CrossAt s j)
    (hinf : sampleAt s (j - 1) = 0xFF800000#32) : ∃ p, interpolate (sampleAt s) j = .nan p := by
  unfold interpolate
  rw [h.denominator_of_negInf hinf, hinf]
  exact ⟨_, rfl⟩

/-- After any other sample, Interp(j) lies in [-0, 1] (45_pitch.md R185). -/
theorem CrossAt.interpolate_inUnitInterval {s : State} {j : Nat} (h : CrossAt s j)
    (hinf : sampleAt s (j - 1) ≠ 0xFF800000#32) : InUnitInterval (interpolate (sampleAt s) j) := by
  obtain ⟨hprev, hzero⟩ := ofF32_of_nonPositive _ h.2 hinf
  unfold interpolate
  rcases h.denominator hinf with hden | ⟨d, hden, hd, hle⟩
  · rw [hden, hprev]
    exact ⟨_, 0, rfl, Nat.zero_le _, fun _ => rfl⟩
  · rw [hden, hprev]
    exact div_inUnitInterval hzero hd hle

/-- After +0 the numerator is -0, and so is Interp(j). -/
theorem CrossAt.interpolate_of_posZero {s : State} {j : Nat} (h : CrossAt s j)
    (hzero : sampleAt s (j - 1) = 0#32) : interpolate (sampleAt s) j = .fin true 0 := by
  have hinf : sampleAt s (j - 1) ≠ 0xFF800000#32 := by rw [hzero]; decide
  have hnum : F64.neg (F64.ofF32 (sampleAt s (j - 1))) = .fin true 0 := by
    rw [hzero, ofF32_of_finite _ (by decide), f32Units_eq_zero _ (by decide)]
    rfl
  unfold interpolate
  rcases h.denominator hinf with hden | ⟨d, hden, hd, _⟩
  · rw [hden, hnum]
    rfl
  · rw [hden, hnum]
    exact div_of_zero true hd

theorem lt_zero_inf : F64.lt (.fin false 0) (.inf false) = true := by decide +kernel

theorem lt_zero_fin {d : Nat} (hd : 0 < d) : F64.lt (.fin false 0) (.fin false d) = true := by
  simpa [F64.lt, F64.place] using hd

theorem lt_zero_zero : F64.lt (.fin false 0) (.fin false 0) = false := rfl

theorem lt_zero_nan (p : Bits64) : F64.lt (.fin false 0) (.nan p) = false := rfl

theorem CrossAt.zero_lt_denominator {s : State} {j : Nat} (h : CrossAt s j) :
    F64.lt (.fin false 0) (F64.sub (F64.ofF32 (sampleAt s j)) (F64.ofF32 (sampleAt s (j - 1)))) = true := by
  by_cases hinf : sampleAt s (j - 1) = 0xFF800000#32
  · rw [h.denominator_of_negInf hinf]
    exact lt_zero_inf
  · rcases h.denominator hinf with hden | ⟨d, hden, hd, _⟩
    · rw [hden]
      exact lt_zero_inf
    · rw [hden]
      exact lt_zero_fin hd

/-- Settles O46: the denominator adds the magnitudes of the two samples, so it is above 0 and not below the
numerator. -/
theorem interpolationStaysInTheUnitInterval : Obligations.InterpolationStaysInTheUnitInterval :=
  fun _ _ h => ⟨rfl, h.zero_lt_denominator, h.interpolate_of_negInf, h.interpolate_inUnitInterval,
    h.interpolate_of_posZero⟩

/-! ## The refined lag -/

/-- The difference of two crossing positions lies in [-1, 1], up to the sign of a zero. -/
theorem sub_of_unitInterval {x y : F64} (hx : InUnitInterval x) (hy : InUnitInterval y) :
    ∃ neg v, F64.sub x y = .fin neg v ∧ v ≤ 2 ^ 1074 := by
  obtain ⟨m, a, rfl, ha, hm⟩ := hx
  obtain ⟨n, b, rfl, hb, hn⟩ := hy
  have hdiff : signedUnits m a + signedUnits (!n) b = (a : Int) - b := by
    rw [signedUnits_not, signedUnits_of_nonNeg hm, signedUnits_of_nonNeg hn, Int.sub_eq_add_neg]
  by_cases hzero : (a : Int) - b = 0
  · exact ⟨_, 0, add_fin_of_zero _ _ _ _ (hdiff.trans hzero), Nat.zero_le _⟩
  · obtain ⟨v, hv, _, hle⟩ := add_fin_between hdiff hzero (representable_of_lt (m := 0) (by decide))
      representable_one (Nat.zero_le _) (by omega)
    exact ⟨_, v, hv, hle⟩

theorem sub_self_of_unitInterval {x : F64} (hx : InUnitInterval x) : F64.sub x x = .fin false 0 := by
  obtain ⟨neg, u, rfl, _, _⟩ := hx
  have hzero : signedUnits neg u + signedUnits (!neg) u = 0 := by rw [signedUnits_not]; omega
  calc F64.sub (.fin neg u) (.fin neg u) = .fin (neg && !neg) 0 := add_fin_of_zero _ _ _ _ hzero
    _ = .fin false 0 := by rw [Bool.and_not_self]

/-- With equal edges lagSamples is +0 (45_pitch.md R187). -/
theorem lagSamples_self {sample : Nat → Word} {j : Nat} (h : InUnitInterval (interpolate sample j)) :
    lagSamples sample j j = .fin false 0 := by
  rw [lagSamples, sub_self_of_unitInterval h, Nat.sub_self, ofNat_eq 0 (by decide), Nat.zero_mul]
  exact add_fin_of_zero _ _ _ _ rfl

/-- With the edges at least 2 apart, a difference of at least -1 leaves lagSamples at 1 or above
(45_pitch.md R187); it stays below 2^17, since a buffer has at most 2^16 samples. -/
theorem lagSamples_of_apart {sample : Nat → Word} {se ne : Nat}
    (hse : InUnitInterval (interpolate sample se)) (hne : InUnitInterval (interpolate sample ne))
    (happart : se + 2 ≤ ne) (hmax : ne ≤ 65536) :
    ∃ u, lagSamples sample se ne = .fin false u ∧ 2 ^ 1074 ≤ u ∧ u ≤ 2 ^ 17 * 2 ^ 1074 := by
  obtain ⟨neg, v, hdiff, hv⟩ := sub_of_unitInterval hne hse
  have hlo : 2 * 2 ^ 1074 ≤ (ne - se) * 2 ^ 1074 := Nat.mul_le_mul_right _ (by omega)
  have hhi : (ne - se) * 2 ^ 1074 ≤ 65536 * 2 ^ 1074 := Nat.mul_le_mul_right _ (by omega)
  have habs := natAbs_signedUnits neg v
  have hrep : Representable (2 ^ 17 * 2 ^ 1074) := representable_mul_two_pow (by decide) (by decide)
  rw [lagSamples, hdiff, ofNat_eq (ne - se) (by omega)]
  generalize (ne - se) * 2 ^ 1074 = whole at hlo hhi ⊢
  obtain ⟨u, hu, hge, hle⟩ := add_fin_between (s := false) (t := neg) (u := whole) (v := v) rfl
    (by rw [signedUnits_false]; omega) representable_one hrep
    (by rw [signedUnits_false]; omega) (by rw [signedUnits_false]; omega)
  rw [decide_eq_false (by rw [signedUnits_false]; omega)] at hu
  exact ⟨u, hu, hge, hle⟩

/-- A NaN in one of the positions reaches lagSamples. -/
theorem lagSamples_of_nan {sample : Nat → Word} {se ne : Nat}
    (h : (∃ p, interpolate sample se = .nan p) ∨ ∃ p, interpolate sample ne = .nan p) :
    ∃ p, lagSamples sample se ne = .nan p := by
  have hdiff : ∃ q, F64.sub (interpolate sample ne) (interpolate sample se) = .nan q := by
    rcases h with ⟨p, hp⟩ | ⟨p, hp⟩ <;> rw [hp]
    · exact sub_nan_right _ p
    · exact sub_nan_left p _
  obtain ⟨q, hq⟩ := hdiff
  rw [lagSamples, hq]
  exact add_nan_right _ q

/-! ## The edges -/

theorem f32Pos_iff (w : Word) : f32Pos w = true ↔ 1 ≤ w.toNat ∧ w.toNat ≤ 0x7F800000 := by
  simp only [f32Pos, Bool.and_eq_true, Bool.not_eq_true', ← Bool.not_eq_true, msb_iff, f32IsNaN_iff,
    f32IsZero_iff]
  omega

theorem f32NonPos_iff (w : Word) :
    f32NonPos w = true ↔ w.toNat = 0 ∨ (0x80000000 ≤ w.toNat ∧ w.toNat ≤ 0xFF800000) := by
  have hw : w.toNat < 2 ^ 32 := w.isLt
  simp only [f32NonPos, Bool.and_eq_true, Bool.or_eq_true, Bool.not_eq_true', ← Bool.not_eq_true, msb_iff,
    f32IsNaN_iff, f32IsZero_iff]
  omega

/-- The crossing predicate is R181's, pattern by pattern. -/
theorem crossing_iff_crossAt (s : State) (j : Nat) : crossing (sampleAt s) j = true ↔ CrossAt s j := by
  rw [crossing, Bool.and_eq_true, f32Pos_iff, f32NonPos_iff]
  rfl

theorem firstCrossing_iff_firstEdge (s : State) (lo j : Nat) :
    firstCrossing (sampleAt s) lo (activeN s) = some j ↔ FirstEdge s lo j := by
  simp only [firstCrossing_eq_some, ← Bool.not_eq_true, crossing_iff_crossAt, and_assoc]
  rfl

theorem FirstEdge.crossAt {s : State} {lo j : Nat} (h : FirstEdge s lo j) : CrossAt s j := by
  obtain ⟨_, _, hcross, _⟩ := h
  exact hcross

theorem SecondStart.eq_scanStart {s : State} {j0 : Nat} (h : SecondStart s j0) :
    j0 = scanStart s.lag.toNat := by
  unfold scanStart
  rcases h with ⟨hlag, hj0⟩ | ⟨hlag, hj0⟩
  · rw [if_pos hlag, hj0]
  · rw [if_neg (by omega), hj0]

theorem one_le_scanStart (lag : Nat) : 1 ≤ scanStart lag := by
  unfold scanStart
  split <;> omega

/-- Two crossings are not adjacent: the sample between them would be both above 0 and not. -/
theorem CrossAt.not_succ {s : State} {j : Nat} (h : CrossAt s j) : ¬CrossAt s (j + 1) := by
  rintro ⟨_, hprev⟩
  obtain ⟨hcur, _⟩ := h
  rw [Nat.add_sub_cancel] at hprev
  omega

/-- The start edge is the first crossing of the buffer, so the next edge is the same one or lies at least 2
after it (45_pitch.md R186 and R187). -/
theorem FirstEdge.eq_or_apart {s : State} {se ne j0 : Nat} (hse : FirstEdge s 1 se)
    (hne : FirstEdge s j0 ne) (hj0 : 1 ≤ j0) : ne = se ∨ se + 2 ≤ ne := by
  obtain ⟨_, _, hcross, hfirst⟩ := hse
  obtain ⟨hge, _, hcross', _⟩ := hne
  have hnlt : ¬ne < se := fun hlt => hfirst ne (hj0.trans hge) hlt hcross'
  have hnsucc : ne ≠ se + 1 := fun heq => hcross.not_succ (heq ▸ hcross')
  omega

/-- A -infinity before the start edge or before the next edge (45_pitch.md R187). -/
def NegInfBeforeEdge (s : State) (se ne : Nat) : Prop :=
  sampleAt s (se - 1) = 0xFF800000#32 ∨ sampleAt s (ne - 1) = 0xFF800000#32

theorem lagSamples_of_negInf {s : State} {se ne : Nat} (hse : CrossAt s se) (hne : CrossAt s ne)
    (hinf : NegInfBeforeEdge s se ne) : ∃ p, lagSamples (sampleAt s) se ne = .nan p :=
  lagSamples_of_nan (hinf.imp hse.interpolate_of_negInf hne.interpolate_of_negInf)

/-- R187's cases of lagSamples between the two edges: a NaN, +0, or a value of at least 1. -/
theorem lagSamples_cases {s : State} {se ne j0 : Nat} (hbatch : s.batch.toNat ≤ 65536)
    (hse : FirstEdge s 1 se) (hne : FirstEdge s j0 ne) (hj0 : 1 ≤ j0) :
    (NegInfBeforeEdge s se ne ∧ ∃ p, lagSamples (sampleAt s) se ne = .nan p) ∨
      (¬NegInfBeforeEdge s se ne ∧ ne = se ∧ lagSamples (sampleAt s) se ne = .fin false 0) ∨
      (¬NegInfBeforeEdge s se ne ∧ se + 2 ≤ ne ∧ ∃ u, lagSamples (sampleAt s) se ne = .fin false u ∧
        2 ^ 1074 ≤ u ∧ u ≤ 2 ^ 17 * 2 ^ 1074) := by
  have hapart := hse.eq_or_apart hne hj0
  have hcross := hse.crossAt
  obtain ⟨_, hlt, hcross', _⟩ := hne
  by_cases hinf : NegInfBeforeEdge s se ne
  · exact .inl ⟨hinf, lagSamples_of_negInf hcross hcross' hinf⟩
  · obtain ⟨hfin, hfin'⟩ := not_or.1 hinf
    have hunit := hcross.interpolate_inUnitInterval hfin
    rcases hapart with rfl | hapart
    · exact .inr (.inl ⟨hinf, rfl, lagSamples_self hunit⟩)
    · exact .inr (.inr ⟨hinf, hapart, lagSamples_of_apart hunit
        (hcross'.interpolate_inUnitInterval hfin') hapart (hlt.le.trans hbatch)⟩)

theorem pos_of_two_pow_le {k u : Nat} (h : 2 ^ k ≤ u) : 0 < u := (Nat.two_pow_pos k).trans_le h

theorem lt_zero_of_one_le {u : Nat} (h : 2 ^ 1074 ≤ u) : F64.lt (.fin false 0) (.fin false u) = true :=
  lt_zero_fin (pos_of_two_pow_le h)

/-- lagSamples is not above 0 in R187's two cases and in no other. -/
theorem lagSamples_not_pos_iff {s : State} {se ne j0 : Nat} (hbatch : s.batch.toNat ≤ 65536)
    (hse : FirstEdge s 1 se) (hne : FirstEdge s j0 ne) (hj0 : 1 ≤ j0) :
    F64.lt (.fin false 0) (lagSamples (sampleAt s) se ne) = false ↔
      (ne = se ∨ NegInfBeforeEdge s se ne) := by
  rcases lagSamples_cases hbatch hse hne hj0 with
    ⟨hinf, p, hlag⟩ | ⟨_, heq, hlag⟩ | ⟨hfin, hapart, u, hlag, hone, _⟩ <;> rw [hlag]
  · exact iff_of_true (lt_zero_nan p) (.inr hinf)
  · exact iff_of_true lt_zero_zero (.inl heq)
  · rw [lt_zero_of_one_le hone]
    exact iff_of_false Bool.noConfusion (not_or.2 ⟨by omega, hfin⟩)

/-! ## PITCH -/

theorem exec_pitch_of_ready (s : State) (h : s.det = .ready) :
    exec .pitch s = .next (finish 0x14#8 (s.storePitch (pitchOf s))) := by
  have hadm : s.det ∈ precondition .pitch := by rw [h]; decide
  rw [exec_eq_runCommand, runCommand_admitted _ _ s hadm]
  rfl

/-- What the refiner answers once both edges are found (45_pitch.md R187 and R188). -/
theorem pitchOf_of_edges {s : State} {se ne j0 : Nat} (hse : FirstEdge s 1 se) (hj0 : SecondStart s j0)
    (hne : FirstEdge s j0 ne) :
    pitchOf s = if F64.lt (.fin false 0) (lagSamples (sampleAt s) se ne) = true
      then .found se ne (lagSamples (sampleAt s) se ne)
        (F64.div (F64.ofNat s.rate.toNat) (lagSamples (sampleAt s) se ne))
      else .degenerate se ne (lagSamples (sampleAt s) se ne) := by
  rw [← firstCrossing_iff_firstEdge] at hse hne
  rw [hj0.eq_scanStart] at hne
  simp only [pitchOf, refinePitch, hse, hne]

/-- With both edges found PITCH ends with DegenerateLag exactly when lagSamples is not above 0. -/
theorem exec_pitch_of_edges {s : State} {se ne j0 : Nat} (hready : s.det = .ready)
    (hse : FirstEdge s 1 se) (hj0 : SecondStart s j0) (hne : FirstEdge s j0 ne) :
    ∃ t, exec .pitch s = .next t ∧
      (t.errCode = .degenerateLag ↔ F64.lt (.fin false 0) (lagSamples (sampleAt s) se ne) = false) := by
  refine ⟨_, exec_pitch_of_ready s hready, ?_⟩
  rw [pitchOf_of_edges hse hj0 hne]
  cases hlt : F64.lt (.fin false 0) (lagSamples (sampleAt s) se ne) with
  | false => simp
  | true => simp

/-- Settles O49: between two edges lagSamples is a NaN, +0 or at least 1, and PITCH only asks whether it is
above 0. -/
theorem lagSamplesIsDegenerateInTwoCases : Obligations.LagSamplesIsDegenerateInTwoCases := by
  intro s se ne j0 hbatch hse hstart hne
  have hj0 : 1 ≤ j0 := hstart.eq_scanStart ▸ one_le_scanStart _
  have hcases := lagSamples_cases hbatch hse hne hj0
  refine ⟨fun hready => ?_, fun hinf => ?_, fun hfin => ⟨fun heq => ?_, fun hdiff => ?_⟩⟩
  · obtain ⟨t, ht, hcode⟩ := exec_pitch_of_edges hready hse hstart hne
    exact ⟨t, ht, hcode, hcode.trans (lagSamples_not_pos_iff hbatch hse hne hj0)⟩
  · exact lagSamples_of_negInf hse.crossAt hne.crossAt hinf
  · rcases hcases with ⟨hinf, _⟩ | ⟨_, _, hlag⟩ | ⟨_, hapart, _⟩
    · exact absurd hinf (not_or.2 hfin)
    · exact hlag
    · omega
  · rcases hcases with ⟨hinf, _⟩ | ⟨_, heq, _⟩ | ⟨_, hapart, u, hlag, hone, _⟩
    · exact absurd hinf (not_or.2 hfin)
    · exact absurd heq hdiff
    · exact ⟨hapart, u, hlag, hone⟩

/-! ## The pitch -/

/-- The state a successful PITCH leaves (45_pitch.md R188). -/
def pitchFound (s : State) (se ne : Nat) (ls p : F64) : State :=
  (((((s.setStartEdge se).setNextEdge ne).setLagSamp ls).setPitch p).setPitchValid true).retire 0x14#8 .ok

theorem eq_found_of_code_ok {s : State} {r : PitchResult} (h : (s.storePitch r).code = .ok) :
    ∃ se ne ls p, r = .found se ne ls p := by
  cases r with
  | noStart => cases h
  | noNext => cases h
  | degenerate => cases h
  | found => exact ⟨_, _, _, _, rfl⟩

/-- A pitch found lies between two edges, with lagSamples above 0 (45_pitch.md R187 and R188). -/
theorem edges_of_pitchOf_found {s : State} {se ne : Nat} {ls p : F64} (h : pitchOf s = .found se ne ls p) :
    FirstEdge s 1 se ∧ FirstEdge s (scanStart s.lag.toNat) ne ∧ ls = lagSamples (sampleAt s) se ne ∧
      F64.lt (.fin false 0) ls = true ∧ p = F64.div (F64.ofNat s.rate.toNat) ls := by
  rcases refinePitch_cases (sampleAt s) (activeN s) s.lag.toNat s.rate.toNat with
    ⟨_, hp⟩ | ⟨_, _, _, hp⟩ | ⟨_, _, _, _, _, hp⟩ | ⟨_, _, hse, hne, hlt, hp⟩ <;> cases h.symm.trans hp
  exact ⟨(firstCrossing_iff_firstEdge s 1 se).1 hse, (firstCrossing_iff_firstEdge s _ ne).1 hne, rfl, hlt,
    rfl⟩

/-- PITCH succeeds only in READY, and with a pitch found. -/
theorem exec_pitch_ok {s t : State} (h : exec .pitch s = .next t) (hok : t.errCode = .ok) :
    s.det = .ready ∧ ∃ se ne ls p, pitchOf s = .found se ne ls p ∧ t = pitchFound s se ne ls p := by
  obtain rfl := (exec_next_iff .pitch s t).1 h
  rcases runCommand_cases .pitch (bodyOf .pitch) s with ⟨hadm, hrun⟩ | ⟨_, hrun⟩ <;> rw [hrun] at hok ⊢
  · obtain ⟨se, ne, ls, p, hfound⟩ := eq_found_of_code_ok (s := s) (r := pitchOf s) hok
    have hbody : bodyOf .pitch s = s.storePitch (.found se ne ls p) := congrArg s.storePitch hfound
    exact ⟨List.mem_singleton.1 hadm, se, ne, ls, p, hfound, by rw [hbody]; rfl⟩
  · cases hok

/-- The quotient of a rate by a lag of at least 1 and below 2^17 is positive, since the quotient itself
is at least 2^(-17), and at most the rate (45_pitch.md R188). -/
theorem div_rate {r u : Nat} (hr : 1 ≤ r) (hr' : r < 2 ^ 32) (hone : 2 ^ 1074 ≤ u)
    (hmax : u ≤ 2 ^ 17 * 2 ^ 1074) :
    ∃ p, F64.div (F64.ofNat r) (.fin false u) = .fin false p ∧ 0 < p ∧ p ≤ r * 2 ^ 1074 := by
  have hr53 : r < 2 ^ 53 := by omega
  have h17 : 2 ^ 17 ≤ 2 ^ 1074 := pow_le_pow_right₀ one_le_two (by decide)
  have hge : 1 * u ≤ r * 2 ^ 1074 * 2 ^ 1074 := by
    generalize 2 ^ 1074 = one at h17 hmax ⊢
    calc 1 * u ≤ 2 ^ 17 * one := (Nat.one_mul u).trans_le hmax
      _ ≤ r * one * one := Nat.mul_le_mul_right _ (h17.trans (Nat.le_mul_of_pos_left _ hr))
  rw [ofNat_eq r hr53]
  exact div_fin_between (pos_of_two_pow_le hone) (representable_of_lt (m := 1) (by decide))
    (representable_mul_two_pow hr53 (by decide)) hge (Nat.mul_le_mul_left _ hone)

theorem le_fin (u v : Nat) : F64.le (.fin false u) (.fin false v) = decide (u ≤ v) := by
  simp [F64.le, F64.place]

theorem one_le_fin {u : Nat} (h : 2 ^ 1074 ≤ u) : F64.le (F64.ofNat 1) (.fin false u) = true := by
  rw [ofNat_eq 1 (by decide), Nat.one_mul, le_fin, decide_eq_true h]

/-- Settles O50: past the test of R187 lagSamples is at least 1, and RATE is at least 2 once configured. -/
theorem pitchIsFiniteAndAtMostTheRate : Obligations.PitchIsFiniteAndAtMostTheRate := by
  intro s t hs hexec hok
  obtain ⟨hready, se, ne, ls, p, hfound, rfl⟩ := exec_pitch_ok hexec hok
  obtain ⟨hse, hne, hls, hlt, hp⟩ := edges_of_pitchOf_found hfound
  have hconf : ActiveConfig s := hs.configured (by rw [hready]; decide)
  obtain ⟨_, hcap, _⟩ := (legalMaxBatch_iff _).1 hs.capacity
  have hbatch : s.batch.toNat ≤ 65536 := hs.batch_le.trans hcap
  have hcases := lagSamples_cases hbatch hse hne (one_le_scanStart _)
  rw [← hls] at hcases
  rcases hcases with ⟨_, q, rfl⟩ | ⟨_, _, rfl⟩ | ⟨_, _, u, rfl, hone, hmax⟩
  · exact absurd hlt (by rw [lt_zero_nan]; decide)
  · exact absurd hlt (by rw [lt_zero_zero]; decide)
  · obtain ⟨q, hdiv, hpos, hle⟩ := div_rate (by have := hconf.rate_least; omega) s.rate.isLt hone hmax
    rw [hp.trans hdiv]
    exact ⟨rfl, .fin false u, q, hiLo_append _, one_le_fin hone, hdiv, hpos, hle, hiLo_append _⟩

end Sys2Proof.Machine


/-! PROOFS. The detector (46_detector.md R200 to R213): the issue of a command, an illegal word, NOP, CLEAR
and the ways PROTO falls, SUPPLY, and STATE after each command. -/

namespace Sys2Proof.Machine

/-! ## The issue of a command -/

/-- A write to CMD, with reset released, issues (46_detector.md R200). -/
theorem writeCurrent_cmd (s : State) (v : Word) (h : s.resetHeld = false) :
    writeCurrent s Reg.cmd.offset v = s.issue v := by
  simp [writeCurrent, regionOf_registers _ _ (Reg.offset_lt _), h, writeReg]

/-- Settles O7: the word's offset is that of CMD, where an idle block's write issues. -/
theorem issueStoresTheWordAndSetsBusy : Obligations.IssueStoresTheWordAndSetsBusy := by
  intro s off v rest hb hr hi hoff
  have hcmd : wordOffset off = Reg.cmd.offset := (wordOffset_eq off).trans hoff
  refine ⟨Config.completionDelay s.draws, s.draws + 1, ?_⟩
  rw [step_write_idle s off v rest hb hi, hcmd, writeCurrent_cmd { s with inputs := rest } v hr]
  rfl

/-! ## An illegal command word -/

theorem opcField_toNat (w : Word) : (opcField w).toNat = w.toNat % 256 := by
  simp [opcField]

theorem immField_toNat (w : Word) : (immField w).toNat = w.toNat / 256 := by
  have := w.isLt
  simp only [immField, BitVec.extractLsb'_toNat, Nat.shiftRight_eq_div_pow]
  omega

theorem opcField_eq_ofNat (w : Word) : opcField w = BitVec.ofNat 8 w.toNat := by
  apply BitVec.eq_of_toNat_eq
  rw [opcField_toNat, BitVec.toNat_ofNat]

/-- The opcodes of 30_encoding.md R91 as numbers. -/
theorem opcode_toNat_mem (i : Instr) :
    (opcode i).toNat ∈ [0, 1, 2, 3, 4, 5, 16, 17, 18, 19, 20] := by
  cases i <;> simp [opcode]

/-- A word that decodes has a listed opcode, and no immediate unless it is SUPPLY's (30_encoding.md
R93). -/
theorem fields_of_decode_ok {w : Word} {i : Instr} (h : decode w = .ok i) :
    w.toNat % 256 ∈ [0, 1, 2, 3, 4, 5, 16, 17, 18, 19, 20] ∧ (w.toNat % 256 = 2 ∨ w.toNat / 256 = 0) := by
  rw [← opcField_toNat, ← immField_toNat]
  refine ⟨opcode_of_decode w i h ▸ opcode_toNat_mem i, ?_⟩
  rcases decode_cases w with ⟨ho, _⟩ | ⟨_, _, _, himm, _⟩ | ⟨_, _, hd⟩ | ⟨_, _, hd⟩
  · exact .inl (by rw [ho]; rfl)
  · exact .inr (by rw [himm]; rfl)
  · cases hd.symm.trans h
  · cases hd.symm.trans h

/-- The completion of a word that decodes to nothing writes the outcome alone (46_detector.md R212). -/
theorem step_of_illegal (s : State) (h : CompletesNow s) (hd : (decode s.pend).toOption = none) :
    step s = .next (s.retire (opcField s.pend) .illegalCommand) := by
  rw [step_completesNow s h]
  rcases completion_cases s with ⟨i, hi, _⟩ | ⟨_, hc⟩
  · rw [hi] at hd
    cases hd
  · exact hc

/-- Settles O4: neither kind of word decodes, so its completion is that of an illegal word. -/
theorem illegalWordCompletesWithCodeSeven : Obligations.IllegalWordCompletesWithCodeSeven := by
  refine ⟨rfl, fun s hc hword => ?_⟩
  have hd : (decode s.pend).toOption = none := by
    cases hdec : decode s.pend with
    | error e => rfl
    | ok i =>
      obtain ⟨hopc, himm⟩ := fields_of_decode_ok hdec
      rcases hword with hbad | ⟨hne, hbad⟩
      · exact absurd hopc hbad
      · omega
  rw [step_of_illegal s hc hd, opcField_eq_ofNat]
  rfl

/-! ## NOP and CLEAR -/

/-- In a STATE that admits it, a command is its body and the outcome (46_detector.md R201). -/
theorem exec_of_admitted (i : Instr) (s : State) (h : s.det ∈ precondition i) :
    exec i s = .next (finish (opcode i) (bodyOf i s)) := by
  rw [exec_eq_runCommand, runCommand_admitted i _ s h]

theorem nop_admitted (s : State) : s.det ∈ precondition .nop := by
  cases s.det <;> decide

theorem clear_admitted (s : State) : s.det ∈ precondition .clear := by
  cases s.det <;> decide

theorem sreset_admitted (s : State) : s.det ∈ precondition .sreset := by
  cases s.det <;> decide

/-- Settles O11: NOP runs in every STATE, and its body does nothing. -/
theorem nopWritesOnlyTheOutcome : Obligations.NopWritesOnlyTheOutcome := by
  refine ⟨by decide, by decide, fun s => ?_⟩
  rw [exec_of_admitted .nop s (nop_admitted s)]
  rfl

/-! ## What the bodies keep of STATE and PROTO -/

/-- STATE and PROTO, which no stage of the pipeline writes (10_state.md R47). -/
def stateAndProto (s : State) : Detector × Bool := (s.det, s.proto)

/-- What the next stage keeps, the sequence keeps, whether or not the first stage raises. -/
theorem Ending.andThen_keeps {α : Type} (f : State → α) (r : Ending) (next : State → Ending)
    (hnext : ∀ t, f (next t).state = f t) : f (r.andThen next).state = f r.state := by
  cases r with
  | complete s => exact hnext s
  | raise e s => rfl

@[simp] theorem State.setCorrected_det (s : State) (l : Option Nat) :
    (s.setCorrected l).det = s.det := by
  cases l <;> rfl

@[simp] theorem State.setCorrected_proto (s : State) (l : Option Nat) :
    (s.setCorrected l).proto = s.proto := by
  cases l <;> rfl

theorem harmBody_stateAndProto (s : State) : stateAndProto (harmBody s).state = stateAndProto s := by
  rcases harmBody_cases s _ rfl with ⟨_, h⟩ | ⟨_, h⟩ <;> simp [h, stateAndProto]

theorem pitchBody_stateAndProto (s : State) : stateAndProto (pitchBody s).state = stateAndProto s := by
  unfold pitchBody
  cases pitchOf s <;> simp [stateAndProto]

theorem runBody_stateAndProto (s : State) : stateAndProto (runBody s).state = stateAndProto s := by
  obtain ⟨m, hm⟩ := runToCurve_eq s
  calc stateAndProto (runBody s).state
      = stateAndProto ((runToCurve s).andThen harmBody).state :=
        Ending.andThen_keeps _ _ _ pitchBody_stateAndProto
    _ = stateAndProto (runToCurve s).state := Ending.andThen_keeps _ _ _ harmBody_stateAndProto
    _ = stateAndProto s := by simp [hm, stateAndProto]

theorem bodyOf_proto (i : Instr) (s : State) (hclear : i ≠ .clear) (hsreset : i ≠ .sreset) :
    (bodyOf i s).state.proto = s.proto := by
  cases i with
  | clear => contradiction
  | sreset => contradiction
  | nop | pack | shift | corr => rfl
  | config => rcases configBody_cases s with ⟨_, _, h⟩ | ⟨_, _, _, h⟩ <;> simp [bodyOf, h]
  | supply len => rcases supplyBody_cases len s with ⟨_, _, h⟩ | ⟨_, _, _, h⟩ <;> simp [bodyOf, h]
  | run => exact congrArg Prod.snd (runBody_stateAndProto s)
  | harm => exact congrArg Prod.snd (harmBody_stateAndProto s)
  | pitch => exact congrArg Prod.snd (pitchBody_stateAndProto s)

/-! ## The ways PROTO falls -/

theorem runCommand_proto (i : Instr) (s : State) (hclear : i ≠ .clear) (hsreset : i ≠ .sreset) :
    (runCommand i (bodyOf i) s).proto = s.proto := by
  rcases runCommand_cases i (bodyOf i) s with ⟨_, h⟩ | ⟨_, h⟩ <;>
    simp [h, bodyOf_proto i s hclear hsreset]

/-- A completion keeps PROTO unless it is CLEAR's or SRESET's (46_detector.md R211). -/
theorem completion_proto {s t : State} (h : completion s = .next t) :
    t.proto = s.proto ∨ decode s.pend = .ok .clear ∨ decode s.pend = .ok .sreset := by
  rcases completion_cases s with ⟨i, hd, hc⟩ | ⟨_, hc⟩
  · cases hc.symm.trans h
    by_cases hclear : i = .clear
    · exact .inr (.inl (hclear ▸ hd))
    · by_cases hsreset : i = .sreset
      · exact .inr (.inr (hsreset ▸ hd))
      · exact .inl (runCommand_proto i s hclear hsreset)
  · cases hc.symm.trans h
    exact .inl rfl

@[simp] theorem portRead_proto (s : State) (off : Offset) : (portRead s off).proto = s.proto := by
  rcases portRead_cases s off with ⟨_, h⟩ | ⟨_, h⟩ <;> simp [h]

@[simp] theorem writeReg_proto (s : State) (v : Word) (r : Reg) : (writeReg s v r).proto = s.proto := by
  cases r <;> rfl

/-- A write sets PROTO during BUSY and keeps it otherwise (70_reset_and_hazards.md R270). -/
theorem portWrite_proto (s : State) (off : Offset) (v : Word) :
    (portWrite s off v).proto = (s.busy || s.proto) := by
  rcases portWrite_cases s off v with ⟨hb, h⟩ | ⟨hb, ⟨_, r, _, h⟩ | ⟨_, h⟩ | h⟩ <;> simp [h, hb]

@[simp] theorem pollStatus_proto (s : State) (rest : List HostEvent) :
    (pollStatus s rest).proto = s.proto := by
  unfold pollStatus
  split <;> rfl

/-- Of the host's events only the assertion of reset clears PROTO. -/
theorem hostTurn_proto (s : State) (e : HostEvent) (rest : List HostEvent) (he : e ≠ .assertReset)
    (h : s.proto = true) : (hostTurn s e rest).proto = true := by
  cases e with
  | assertReset => contradiction
  | rd off => simp [hostTurn, h]
  | wr off v => simp [hostTurn, portWrite_proto, h]
  | poll => simp [hostTurn, h]
  | releaseReset => simp [hostTurn, h]

/-- A step from PROTO = 1 to PROTO = 0 completes CLEAR or SRESET, or asserts reset (46_detector.md
R211). -/
theorem step_proto_falls {s t : State} (hs : s.proto = true) (h : step s = .next t) (ht : t.proto = false) :
    (CompletesNow s ∧ (decode s.pend = .ok .clear ∨ decode s.pend = .ok .sreset)) ∨
      ∃ rest, HostMoves s .assertReset rest := by
  rcases step_cases s with hc | ⟨e, rest, hm⟩ | ⟨hb, hi⟩
  · rcases completion_proto ((step_completesNow s hc).symm.trans h) with hkept | hd
    · simp [hkept, hs] at ht
    · exact .inl ⟨hc, hd⟩
  · by_cases he : e = .assertReset
    · exact .inr ⟨rest, he ▸ hm⟩
    · cases (step_hostMoves s e rest hm).symm.trans h
      have hproto : (if s.busy then s.tick else s).proto = true := by split <;> exact hs
      simp [hostTurn_proto _ e rest he hproto] at ht
  · cases (step_idle s hb hi).symm.trans h
    simp [hs] at ht

/-- Settles O12: CLEAR runs in every STATE, and each other step but SRESET's completion and the assertion
of reset keeps PROTO. -/
theorem clearIsTheWayToClearProto : Obligations.ClearIsTheWayToClearProto := by
  refine ⟨by decide, by decide, fun s => ?_, fun s t => step_proto_falls⟩
  rw [exec_of_admitted .clear s (clear_admitted s)]
  rfl

/-! ## SUPPLY -/

/-- The errors of Validate; the rate check fails only on a rate below 2 (40_config.md R111 to R115). -/
theorem validate_error_cases {cap n r f : Nat} {e : ErrCode} (h : validate cap n r f = .error e) :
    e = .invalidBatchSize ∨ (e = .invalidSampleRate ∧ r ≤ 1) ∨ e = .invalidFrequencyRange := by
  rcases validate_cases cap n r f with
    ⟨_, hv⟩ | ⟨_, _, _, ⟨hr, hv⟩ | ⟨_, _, hv⟩ | ⟨_, _, _, hv⟩ | ⟨_, _, _, hv⟩⟩ <;>
    cases hv.symm.trans h
  · exact .inl rfl
  · exact .inr (.inl ⟨rfl, hr⟩)
  · exact .inr (.inr rfl)
  · exact .inr (.inr rfl)

theorem validate_error_ne_ok {cap n r f : Nat} {e : ErrCode} (h : validate cap n r f = .error e) :
    e ≠ .ok := by
  rcases validate_error_cases h with rfl | ⟨rfl, _⟩ | rfl <;> decide

/-- SUPPLY runs once a configuration is in force (30_encoding.md R91). -/
theorem supply_admitted (len : Nat) (s : State) (h : s.det ≠ .unconf) : s.det ∈ precondition (.supply len) := by
  cases hd : s.det with
  | unconf => exact absurd hd h
  | idle | ready => simp [precondition]

theorem exec_supply_of_error (len : Nat) (s : State) (e : ErrCode) (hd : s.det ≠ .unconf)
    (h : validate s.maxBatch.toNat len s.rate.toNat s.maxf.toNat = .error e) :
    exec (.supply len) s = .next (s.retire 0x02#8 e) := by
  rw [exec_of_admitted _ s (supply_admitted len s hd)]
  rcases supplyBody_cases len s with ⟨e', he, hb⟩ | ⟨mp, mf, hok, _⟩
  · cases he.symm.trans h
    simp [bodyOf, hb, opcode]
  · cases hok.symm.trans h

theorem exec_supply_of_ok (len : Nat) (s : State) (mp : Nat) (mf : F64) (hd : s.det ≠ .unconf)
    (h : validate s.maxBatch.toNat len s.rate.toNat s.maxf.toNat = .ok (mp, mf)) :
    exec (.supply len) s = .next ((s.adoptLength len mp mf).retire 0x02#8 .ok) := by
  rw [exec_of_admitted _ s (supply_admitted len s hd)]
  rcases supplyBody_cases len s with ⟨e, he, _⟩ | ⟨mp', mf', hok, hb⟩
  · cases he.symm.trans h
  · cases hok.symm.trans h
    simp [bodyOf, hb, opcode]

/-- With a rate of at least 2 in force SUPPLY never ends with InvalidSampleRate (46_detector.md R205). -/
theorem exec_supply_ne_invalidSampleRate (len : Nat) (s t : State) (hd : s.det ≠ .unconf)
    (hr : 1 < s.rate.toNat) (h : exec (.supply len) s = .next t) : t.errCode ≠ .invalidSampleRate := by
  cases hv : validate s.maxBatch.toNat len s.rate.toNat s.maxf.toNat with
  | error e =>
    cases (exec_supply_of_error len s e hd hv).symm.trans h
    rcases validate_error_cases hv with rfl | ⟨_, hr1⟩ | rfl
    · simp
    · omega
    · simp
  | ok p =>
    cases (exec_supply_of_ok len s p.1 p.2 hd hv).symm.trans h
    simp

/-- Settles O32: the configured rate is at least 2, so Validate's answer for the new length turns on the
batch and the range checks alone. -/
theorem supplyCommitsTheLength : Obligations.SupplyCommitsTheLength := by
  intro s len hs hd
  have hr : 1 < s.rate.toNat := (hs.configured hd).rate_least
  refine ⟨fun hn hmod hcap hf => ?_, fun hbatch => ?_, fun hn hmod hcap hf => ?_, fun t => ?_⟩
  · have hv := (validate_eq_ok_iff _ _ _ _ _ _).2 ⟨⟨hn, hmod, hcap, hr, hf⟩, rfl, rfl⟩
    exact ⟨(minFrequency len s.rate.toNat).bits, rfl, exec_supply_of_ok len s _ _ hd hv⟩
  · exact exec_supply_of_error len s _ hd (validate_eq_invalidBatchSize _ _ (by omega))
  · exact exec_supply_of_error len s _ hd (validate_eq_invalidFrequencyRange hn hmod hcap hr hf)
  · exact exec_supply_ne_invalidSampleRate len s t hd hr

/-! ## The state machine -/

/-- The table of 46_detector.md R213: STATE after a command that ends with code `e` in STATE `d`. -/
def stateAfter (i : Instr) (e : ErrCode) (d : Detector) : Detector :=
  match i with
  | .config => if e = .ok then .idle else d
  | .supply _ => if e = .ok then .ready else d
  | .sreset => .unconf
  | .nop | .run | .clear | .pack | .shift | .corr | .harm | .pitch => d

theorem bodyOf_det (i : Instr) (s : State) :
    (bodyOf i s).state.det = stateAfter i (bodyOf i s).code s.det := by
  cases i with
  | nop | clear | sreset | pack | shift | corr => rfl
  | config =>
    rcases configBody_cases s with ⟨e, hv, h⟩ | ⟨_, _, _, h⟩
    · simp [bodyOf, h, stateAfter, validate_error_ne_ok hv]
    · simp [bodyOf, h, stateAfter]
  | supply len =>
    rcases supplyBody_cases len s with ⟨e, hv, h⟩ | ⟨_, _, _, h⟩
    · simp [bodyOf, h, stateAfter, validate_error_ne_ok hv]
    · simp [bodyOf, h, stateAfter]
  | run => exact congrArg Prod.fst (runBody_stateAndProto s)
  | harm => exact congrArg Prod.fst (harmBody_stateAndProto s)
  | pitch => exact congrArg Prod.fst (pitchBody_stateAndProto s)

/-- A refused command stays in its STATE; SRESET, which would not, is never refused. -/
theorem stateAfter_notReady (i : Instr) (s : State) (h : s.det ∉ precondition i) :
    stateAfter i .notReady s.det = s.det := by
  cases i with
  | sreset => exact absurd (sreset_admitted s) h
  | config | supply len => rfl
  | nop | run | clear | pack | shift | corr | harm | pitch => rfl

/-- Every command moves STATE by the table (46_detector.md R213). -/
theorem runCommand_det (i : Instr) (s : State) :
    (runCommand i (bodyOf i) s).det = stateAfter i (runCommand i (bodyOf i) s).errCode s.det := by
  rcases runCommand_cases i (bodyOf i) s with ⟨_, h⟩ | ⟨hn, h⟩ <;> rw [h]
  · exact bodyOf_det i s
  · exact (stateAfter_notReady i s hn).symm

theorem runCommand_errCode_of_refused (i : Instr) (s : State) (h : s.det ∉ precondition i) :
    (runCommand i (bodyOf i) s).errCode = .notReady := by
  rw [runCommand_notReady i _ s h]
  rfl

theorem refused_of_not_ready {i : Instr} (hi : precondition i = [.ready]) (s : State) (h : s.det ≠ .ready) :
    (runCommand i (bodyOf i) s).errCode = .notReady :=
  runCommand_errCode_of_refused i s (by simpa [hi] using h)

theorem refused_of_unconf {i : Instr} (hi : precondition i = [.idle, .ready]) (s : State)
    (h : s.det = .unconf) : (runCommand i (bodyOf i) s).errCode = .notReady :=
  runCommand_errCode_of_refused i s (by simp [hi, h])

/-- Settles O56: STATE follows the table, and a command refused by its precondition reports NotReady. -/
theorem stateMachineFollowsTheTable : Obligations.StateMachineFollowsTheTable := by
  refine ⟨fun i s t h => ?_, fun s t hd hc h => ?_⟩
  · obtain rfl := (exec_next_iff i s t).1 h
    have hdet := runCommand_det i s
    cases i with
    | nop | clear | sreset => exact hdet
    | config => exact ⟨fun hok => hdet.trans (if_pos hok), fun herr => hdet.trans (if_neg herr)⟩
    | supply len =>
      refine ⟨fun hu => ?_, fun _ => ⟨fun hok => hdet.trans (if_pos hok), fun herr => hdet.trans (if_neg herr)⟩⟩
      have hrefused := refused_of_unconf (i := .supply len) rfl s hu
      exact ⟨hrefused, (hdet.trans (by rw [hrefused]; rfl)).trans hu⟩
    | run | pack | pitch => exact ⟨hdet, refused_of_not_ready rfl s⟩
    | shift | corr | harm => exact ⟨hdet, refused_of_unconf rfl s⟩
  · cases (step_of_illegal s hc hd).symm.trans h
    rfl

end Sys2Proof.Machine


/-! PROOFS. What a command writes (10_state.md R47): the frame of each body, the RAM bytes outside its row,
the codes it can end with, and what an error leaves as it was. -/

namespace Sys2Proof.Machine

/-! ## RUN's stages -/

/-- RUN's state once PACK's body has run (46_detector.md R207). -/
def runPacked (s : State) : State := (s.setPitchValid false).setRam (packedRam s)

/-- RUN's state once SHIFT's body has run. -/
def runShifted (s : State) : State := (runPacked s).setRam (shiftedRam (runPacked s))

/-- RUN's state once CORR's body has run. -/
def runCorrelated (s : State) : State := (runShifted s).setRam (corrRam (runShifted s))

theorem runToCurve_eq_complete (s : State) : runToCurve s = .complete (runCorrelated s) := rfl

/-- Up to CORR RUN changes RAM and PITCH_VALID alone. -/
theorem runCorrelated_frame (s : State) : ∃ m, runCorrelated s = (s.setPitchValid false).setRam m := ⟨_, rfl⟩

theorem runCorrelated_minPeriod (s : State) : (runCorrelated s).minPeriod = s.minPeriod := by
  obtain ⟨m, h⟩ := runCorrelated_frame s
  rw [h]
  rfl

/-- HARM's state once LAG is corrected (44_harmonic.md R166). -/
def harmCorrected (s : State) : State := (harmBest s).setCorrected (harmResult s).corrected

theorem harmBody_of_minPeriod_zero (s : State) (h : s.minPeriod.toNat = 0) :
    harmBody s = .raise .degenerateLag (harmBest s) := by
  rcases harmBody_cases s _ rfl with ⟨_, hb⟩ | ⟨hpos, _⟩
  · exact hb
  · exact absurd h hpos

theorem harmBody_of_minPeriod_pos (s : State) (h : s.minPeriod.toNat ≠ 0) :
    harmBody s = .complete (harmCorrected s) := by
  rcases harmBody_cases s _ rfl with ⟨hzero, _⟩ | ⟨_, hb⟩
  · exact absurd hzero h
  · exact hb

/-- RUN with MINPERIOD = 0 stops at HARM (46_detector.md R208). -/
theorem runBody_of_minPeriod_zero (s : State) (h : s.minPeriod.toNat = 0) :
    runBody s = .raise .degenerateLag (harmBest (runCorrelated s)) := by
  rw [← runCorrelated_minPeriod] at h
  rw [runBody, runToCurve_eq_complete, Ending.andThen_complete, harmBody_of_minPeriod_zero _ h,
    Ending.andThen_raise]

/-- RUN with MINPERIOD ≥ 1 ends as PITCH ends for the corrected lag (46_detector.md R207). -/
theorem runBody_of_minPeriod_pos (s : State) (h : s.minPeriod.toNat ≠ 0) :
    runBody s = pitchBody (harmCorrected (runCorrelated s)) := by
  rw [← runCorrelated_minPeriod] at h
  rw [runBody, runToCurve_eq_complete, Ending.andThen_complete, harmBody_of_minPeriod_pos _ h,
    Ending.andThen_complete]

/-! ## The registers each body writes -/

/-- HARM's registers of 10_state.md R47 replaced. -/
def State.withAnalysis (s : State) (g bv bl l : Word) : State :=
  { s with globalMax := g, bestValue := bv, bestLag := bl, lag := l }

/-- PITCH's registers of 10_state.md R47 and PITCH_VALID replaced. -/
def State.withRefinement (s : State) (se ne lsLo lsHi pLo pHi : Word) (valid : Bool) : State :=
  { s with
    startEdge := se
    nextEdge := ne
    lagSampLo := lsLo
    lagSampHi := lsHi
    pitchLo := pLo
    pitchHi := pHi
    pitchValid := valid }

theorem harmCorrected_frame (s : State) : ∃ g bv bl l, harmCorrected s = s.withAnalysis g bv bl l := by
  unfold harmCorrected
  cases (harmResult s).corrected <;> exact ⟨_, _, _, _, rfl⟩

/-- HARM writes its three results and LAG (10_state.md R47). -/
theorem harmBody_frame (s : State) : ∃ g bv bl l, (harmBody s).state = s.withAnalysis g bv bl l := by
  by_cases h : s.minPeriod.toNat = 0
  · rw [harmBody_of_minPeriod_zero s h]
    exact ⟨_, _, _, _, rfl⟩
  · rw [harmBody_of_minPeriod_pos s h]
    exact harmCorrected_frame s

theorem storePitch_frame (s : State) (r : PitchResult) :
    ∃ se ne lsLo lsHi pLo pHi valid,
      (s.storePitch r).state = s.withRefinement se ne lsLo lsHi pLo pHi valid := by
  cases r <;> exact ⟨_, _, _, _, _, _, _, rfl⟩

/-- PITCH writes its six registers and PITCH_VALID (10_state.md R47). -/
theorem pitchBody_frame (s : State) :
    ∃ se ne lsLo lsHi pLo pHi valid,
      (pitchBody s).state = s.withRefinement se ne lsLo lsHi pLo pHi valid :=
  storePitch_frame s (pitchOf s)

/-- RUN writes what PACK, SHIFT, CORR, HARM and PITCH write (10_state.md R47). -/
theorem runBody_frame (s : State) :
    ∃ m g bv bl l se ne lsLo lsHi pLo pHi valid, m = (runCorrelated s).ram ∧
      (runBody s).state =
        ((s.setRam m).withAnalysis g bv bl l).withRefinement se ne lsLo lsHi pLo pHi valid := by
  by_cases h : s.minPeriod.toNat = 0
  · rw [runBody_of_minPeriod_zero s h]
    exact ⟨_, _, _, _, _, _, _, _, _, _, _, _, rfl, rfl⟩
  · obtain ⟨g, bv, bl, l, hharm⟩ := harmCorrected_frame (runCorrelated s)
    obtain ⟨se, ne, lsLo, lsHi, pLo, pHi, valid, hpitch⟩ := pitchBody_frame (harmCorrected (runCorrelated s))
    rw [runBody_of_minPeriod_pos s h, hpitch, hharm]
    exact ⟨_, g, bv, bl, l, se, ne, lsLo, lsHi, pLo, pHi, valid, rfl, rfl⟩

/-- HARM keeps LAG on DegenerateLag (44_harmonic.md R163). -/
theorem harmBody_keeps_lag (s : State) (h : (harmBody s).code = .degenerateLag) :
    (harmBody s).state.lag = s.lag := by
  rcases harmBody_cases s _ rfl with ⟨_, hb⟩ | ⟨_, hb⟩ <;> rw [hb] at h ⊢
  · rfl
  · cases h

/-- A failed PITCH keeps the pitch (10_state.md R38). -/
theorem pitchBody_keeps_pitch (s : State) (h : (pitchBody s).code ≠ .ok) :
    (pitchBody s).state.pitchLo = s.pitchLo ∧ (pitchBody s).state.pitchHi = s.pitchHi := by
  unfold pitchBody at h ⊢
  cases hp : pitchOf s with
  | noStart | noNext | degenerate => simp
  | found => rw [hp] at h; exact absurd rfl h

/-- A failed RUN keeps the pitch, whichever stage failed. -/
theorem runBody_keeps_pitch (s : State) (h : (runBody s).code ≠ .ok) :
    (runBody s).state.pitchLo = s.pitchLo ∧ (runBody s).state.pitchHi = s.pitchHi := by
  by_cases hmp : s.minPeriod.toNat = 0
  · obtain ⟨m, hcorr⟩ := runCorrelated_frame s
    rw [runBody_of_minPeriod_zero s hmp, hcorr]
    exact ⟨State.setBest_pitchLo _ _ _ _, State.setBest_pitchHi _ _ _ _⟩
  · rw [runBody_of_minPeriod_pos s hmp] at h ⊢
    obtain ⟨_, _, _, _, hharm⟩ := harmCorrected_frame (runCorrelated s)
    obtain ⟨hlo, hhi⟩ := pitchBody_keeps_pitch _ h
    obtain ⟨m, hcorr⟩ := runCorrelated_frame s
    rw [hlo, hhi, hharm, hcorr]
    exact ⟨rfl, rfl⟩

/-! ## The RAM bytes outside a command's row -/

theorem read_corrRam_outside (s : State) (a : Nat) (h : ¬RowByte s.batch.toNat a .corr) :
    Memory.read (corrRam s) a = Memory.read s.ram a := by
  refine Memory.read_writeBytes_outside _ _ _ _ ?_
  rw [curveBytes_length, correlate_length]
  exact Nat.lt_or_ge a curveBase |>.imp_right fun hge => Nat.not_lt.1 fun hlt => h ⟨hge, hlt⟩

theorem read_packedRam_of_not_row (s : State) (a : Nat) (h : ¬RowByte s.batch.toNat a .pack) :
    Memory.read (packedRam s) a = Memory.read s.ram a :=
  read_packedRam_outside s a
    (Nat.lt_or_ge a packedBase |>.imp_right fun hge => Nat.not_lt.1 fun hlt => h ⟨hge, hlt⟩)

/-- RUN's RAM: PACK's, SHIFT's and CORR's bytes, and no other (10_state.md R47). -/
theorem read_runCorrelated_outside (s : State) (a : Nat) (h : ¬RowByte s.batch.toNat a .run) :
    Memory.read (runCorrelated s).ram a = Memory.read s.ram a := by
  calc Memory.read (corrRam (runShifted s)) a
      = Memory.read (shiftedRam (runPacked s)) a :=
        read_corrRam_outside (runShifted s) a fun hr => h (.inr (.inr hr))
    _ = Memory.read (packedRam s) a :=
        read_shiftedRam_outside (runPacked s) a fun hr => h (.inr (.inl hr))
    _ = Memory.read s.ram a := read_packedRam_of_not_row s a fun hr => h (.inl hr)

theorem read_bodyOf_outside (i : Instr) (s : State) (a : Nat) (h : ¬RowByte s.batch.toNat a i) :
    Memory.read (bodyOf i s).state.ram a = Memory.read s.ram a := by
  cases i with
  | nop | clear | sreset => rfl
  | config => rcases configBody_cases s with ⟨_, _, hb⟩ | ⟨_, _, _, hb⟩ <;> simp [bodyOf, hb]
  | supply len => rcases supplyBody_cases len s with ⟨_, _, hb⟩ | ⟨_, _, _, hb⟩ <;> simp [bodyOf, hb]
  | pack => exact read_packedRam_of_not_row s a h
  | shift => exact read_shiftedRam_outside s a h
  | corr => exact read_corrRam_outside s a h
  | harm =>
    obtain ⟨_, _, _, _, hb⟩ := harmBody_frame s
    rw [bodyOf, hb]
    rfl
  | pitch =>
    obtain ⟨_, _, _, _, _, _, _, hb⟩ := pitchBody_frame s
    rw [bodyOf, hb]
    rfl
  | run =>
    obtain ⟨m, _, _, _, _, _, _, _, _, _, _, _, hm, hb⟩ := runBody_frame s
    have hread : Memory.read m a = Memory.read s.ram a := hm ▸ read_runCorrelated_outside s a h
    rw [bodyOf, hb]
    exact hread

/-! ## The codes a body can end with -/

theorem harmBody_code (s : State) : (harmBody s).code = .ok ∨ (harmBody s).code = .degenerateLag := by
  rcases harmBody_cases s _ rfl with ⟨_, h⟩ | ⟨_, h⟩ <;> rw [h]
  · exact .inr rfl
  · exact .inl rfl

theorem pitchBody_code (s : State) :
    (pitchBody s).code = .ok ∨ (pitchBody s).code = .noPositiveSample ∨
      (pitchBody s).code = .degenerateLag := by
  unfold pitchBody
  cases pitchOf s with
  | noStart => exact .inr (.inl rfl)
  | noNext => exact .inr (.inl rfl)
  | degenerate => exact .inr (.inr rfl)
  | found => exact .inl rfl

theorem runBody_code (s : State) :
    (runBody s).code = .ok ∨ (runBody s).code = .noPositiveSample ∨ (runBody s).code = .degenerateLag := by
  by_cases h : s.minPeriod.toNat = 0
  · rw [runBody_of_minPeriod_zero s h]
    exact .inr (.inr rfl)
  · rw [runBody_of_minPeriod_pos s h]
    exact pitchBody_code _

/-- The code of CONFIG or SUPPLY is success or Validate's answer (40_config.md R110). -/
theorem configBody_code (s : State) :
    (configBody s).code = .ok ∨
      validate s.maxBatch.toNat s.cfgBatch.toNat s.cfgRate.toNat s.cfgMaxf.toNat =
        .error (configBody s).code := by
  rcases configBody_cases s with ⟨e, hv, h⟩ | ⟨_, _, _, h⟩ <;> rw [h]
  · exact .inr hv
  · exact .inl rfl

theorem supplyBody_code (len : Nat) (s : State) :
    (supplyBody len s).code = .ok ∨
      validate s.maxBatch.toNat len s.rate.toNat s.maxf.toNat = .error (supplyBody len s).code := by
  rcases supplyBody_cases len s with ⟨e, hv, h⟩ | ⟨_, _, _, h⟩ <;> rw [h]
  · exact .inr hv
  · exact .inl rfl

theorem validate_error_ne_notReady {cap n r f : Nat} {e : ErrCode} (h : validate cap n r f = .error e) :
    e ≠ .notReady := by
  rcases validate_error_cases h with rfl | ⟨rfl, _⟩ | rfl <;> decide

/-- NotReady is the precondition's answer alone: no body raises it (46_detector.md R203). -/
theorem bodyOf_code_ne_notReady (i : Instr) (s : State) : (bodyOf i s).code ≠ .notReady := by
  cases i with
  | nop | clear | sreset | pack | shift | corr => exact ErrCode.noConfusion
  | config =>
    rcases configBody_code s with h | h
    · exact fun he => ErrCode.noConfusion (h.symm.trans he)
    · exact validate_error_ne_notReady h
  | supply len =>
    rcases supplyBody_code len s with h | h
    · exact fun he => ErrCode.noConfusion (h.symm.trans he)
    · exact validate_error_ne_notReady h
  | harm => rcases harmBody_code s with h | h <;> simp [bodyOf, h]
  | pitch => rcases pitchBody_code s with h | h | h <;> simp [bodyOf, h]
  | run => rcases runBody_code s with h | h | h <;> simp [bodyOf, h]

/-! ## Commands -/

/-- The code of a command: its body's in a STATE that admits it, and otherwise NotReady. -/
theorem runCommand_errCode (i : Instr) (s : State) :
    (s.det ∈ precondition i ∧ (runCommand i (bodyOf i) s).errCode = (bodyOf i s).code) ∨
      (runCommand i (bodyOf i) s).errCode = .notReady := by
  rcases runCommand_cases i (bodyOf i) s with ⟨hadm, h⟩ | ⟨_, h⟩ <;> rw [h]
  · exact .inl ⟨hadm, rfl⟩
  · exact .inr rfl

theorem runCommand_of_notReady (i : Instr) (s : State)
    (h : (runCommand i (bodyOf i) s).errCode = .notReady) :
    runCommand i (bodyOf i) s = s.retire (opcode i) .notReady := by
  rcases runCommand_cases i (bodyOf i) s with ⟨_, hrun⟩ | ⟨_, hrun⟩
  · rw [hrun] at h
    exact absurd h (bodyOf_code_ne_notReady i s)
  · exact hrun

theorem read_runCommand_outside (i : Instr) (s : State) (a : Nat) (h : ¬RowByte s.batch.toNat a i) :
    Memory.read (runCommand i (bodyOf i) s).ram a = Memory.read s.ram a := by
  rcases runCommand_cases i (bodyOf i) s with ⟨_, hrun⟩ | ⟨_, hrun⟩ <;> rw [hrun]
  · exact read_bodyOf_outside i s a h
  · rfl

theorem det_ne_unconf_of_supply_admitted (len : Nat) (s : State) (h : s.det ∈ precondition (.supply len)) :
    s.det ≠ .unconf := by
  intro hd
  rw [hd] at h
  simp [precondition] at h

/-- A command that Validate turns down leaves all but the outcome. -/
theorem runCommand_config_failed (s : State) (h : (runCommand .config configBody s).errCode ≠ .ok) :
    runCommand .config configBody s =
      s.retire (opcode .config) (runCommand .config configBody s).errCode := by
  rcases runCommand_cases .config configBody s with ⟨_, hrun⟩ | ⟨_, hrun⟩ <;> rw [hrun] at h ⊢
  · rcases configBody_cases s with ⟨_, _, hb⟩ | ⟨_, _, _, hb⟩ <;> rw [hb] at h ⊢
    · rfl
    · exact absurd rfl h
  · rfl

theorem runCommand_supply_failed (len : Nat) (s : State)
    (h : (runCommand (.supply len) (supplyBody len) s).errCode ≠ .ok) :
    runCommand (.supply len) (supplyBody len) s =
      s.retire (opcode (.supply len)) (runCommand (.supply len) (supplyBody len) s).errCode := by
  rcases runCommand_cases (.supply len) (supplyBody len) s with ⟨_, hrun⟩ | ⟨_, hrun⟩ <;> rw [hrun] at h ⊢
  · rcases supplyBody_cases len s with ⟨_, _, hb⟩ | ⟨_, _, _, hb⟩ <;> rw [hb] at h ⊢
    · rfl
    · exact absurd rfl h
  · rfl

/-- Settles O55: each body's frame, with the outcome the completion writes. -/
theorem commandsWriteOnlyTheirRow : Obligations.CommandsWriteOnlyTheirRow := by
  intro i s t _ h
  obtain rfl := (exec_next_iff i s t).1 h
  refine ⟨fun a ha => read_runCommand_outside i s a ha, runCommand_of_notReady i s, ?_⟩
  cases i with
  | nop =>
    rw [runCommand_admitted .nop _ s (nop_admitted s)]
    rfl
  | clear =>
    rw [runCommand_admitted .clear _ s (clear_admitted s)]
    rfl
  | sreset =>
    rw [runCommand_admitted .sreset _ s (sreset_admitted s)]
    exact ⟨rfl, rfl, rfl, rfl, rfl, rfl, rfl, rfl⟩
  | pack | shift | corr =>
    rcases runCommand_cases _ (bodyOf _) s with ⟨_, hrun⟩ | ⟨_, hrun⟩ <;> rw [hrun] <;> rfl
  | config =>
    refine ⟨?_, runCommand_config_failed s⟩
    rcases runCommand_cases .config (bodyOf .config) s with ⟨_, hrun⟩ | ⟨_, hrun⟩ <;> rw [hrun]
    · rcases configBody_cases s with ⟨_, _, hb⟩ | ⟨_, _, _, hb⟩ <;> rw [bodyOf, hb] <;> rfl
    · rfl
  | supply len =>
    refine ⟨?_, runCommand_supply_failed len s⟩
    rcases runCommand_cases (.supply len) (bodyOf (.supply len)) s with ⟨_, hrun⟩ | ⟨_, hrun⟩ <;> rw [hrun]
    · rcases supplyBody_cases len s with ⟨_, _, hb⟩ | ⟨_, _, _, hb⟩ <;> rw [bodyOf, hb] <;> rfl
    · rfl
  | harm =>
    rcases runCommand_cases .harm (bodyOf .harm) s with ⟨_, hrun⟩ | ⟨_, hrun⟩ <;> rw [hrun]
    · refine ⟨?_, harmBody_keeps_lag s⟩
      obtain ⟨_, _, _, _, hb⟩ := harmBody_frame s
      rw [bodyOf, hb]
      rfl
    · exact ⟨rfl, fun _ => rfl⟩
  | pitch =>
    rcases runCommand_cases .pitch (bodyOf .pitch) s with ⟨_, hrun⟩ | ⟨_, hrun⟩ <;> rw [hrun]
    · refine ⟨?_, pitchBody_keeps_pitch s⟩
      obtain ⟨_, _, _, _, _, _, _, hb⟩ := pitchBody_frame s
      rw [bodyOf, hb]
      rfl
    · exact ⟨rfl, fun _ => ⟨rfl, rfl⟩⟩
  | run =>
    rcases runCommand_cases .run (bodyOf .run) s with ⟨_, hrun⟩ | ⟨_, hrun⟩ <;> rw [hrun]
    · rw [State.retire_errCode, State.retire_pitchLo, State.retire_pitchHi]
      refine ⟨?_, runBody_keeps_pitch s⟩
      obtain ⟨_, _, _, _, _, _, _, _, _, _, _, _, _, hb⟩ := runBody_frame s
      rw [bodyOf, hb]
      rfl
    · exact ⟨rfl, fun _ => ⟨rfl, rfl⟩⟩

/-- Settles O57: the codes of the bodies, and NotReady from the precondition. -/
theorem outcomeCodesByCommand : Obligations.OutcomeCodesByCommand := by
  intro i s t hs h
  obtain rfl := (exec_next_iff i s t).1 h
  cases i with
  | nop => rw [runCommand_admitted .nop _ s (nop_admitted s)]; rfl
  | clear => rw [runCommand_admitted .clear _ s (clear_admitted s)]; rfl
  | sreset => rw [runCommand_admitted .sreset _ s (sreset_admitted s)]; rfl
  | config =>
    rw [runCommand_admitted .config _ s (config_admitted s)]
    change (configBody s).code ∈ _
    rcases configBody_code s with h | h
    · simp [h]
    · rcases validate_error_cases h with h | ⟨h, _⟩ | h <;> simp [h]
  | supply len =>
    rcases runCommand_errCode (.supply len) s with ⟨hadm, hcode⟩ | hcode <;> rw [hcode]
    · have hrate := (hs.configured (det_ne_unconf_of_supply_admitted len s hadm)).rate_least
      rcases supplyBody_code len s with h | h
      · simp [bodyOf, h]
      · rcases validate_error_cases h with h | ⟨_, hr⟩ | h
        · simp [bodyOf, h]
        · omega
        · simp [bodyOf, h]
    · simp
  | pack | shift | corr =>
    rcases runCommand_errCode _ s with ⟨_, hcode⟩ | hcode <;> rw [hcode]
    · exact List.mem_cons_self
    · simp
  | harm =>
    rcases runCommand_errCode .harm s with ⟨_, hcode⟩ | hcode <;> rw [hcode]
    · rcases harmBody_code s with h | h <;> simp [bodyOf, h]
    · simp
  | pitch =>
    rcases runCommand_errCode .pitch s with ⟨_, hcode⟩ | hcode <;> rw [hcode]
    · rcases pitchBody_code s with h | h | h <;> simp [bodyOf, h]
    · simp
  | run =>
    rcases runCommand_errCode .run s with ⟨_, hcode⟩ | hcode <;> rw [hcode]
    · rcases runBody_code s with h | h | h <;> simp [bodyOf, h]
    · simp

/-! ## What an error leaves as it was -/

/-- Rows of RAM bytes begin at the PACKED window (10_state.md R47, 20_memory.md R62). -/
theorem not_rowByte_of_lt (n a : Nat) (i : Instr) (h : a < packedBase) : ¬RowByte n a i := by
  unfold packedBase at h
  cases i with
  | nop | config | supply | clear | sreset | harm | pitch => exact id
  | pack => rintro ⟨hlo, _⟩; omega
  | shift => rintro ⟨v, _, hlo, _⟩; omega
  | corr => rintro ⟨hlo, _⟩; omega
  | run => rintro (⟨hlo, _⟩ | ⟨v, _, hlo, _⟩ | ⟨hlo, _⟩) <;> omega

/-- A sample is the same in two RAMs that agree below the PACKED window (00_scope.md R8). -/
theorem sampleAt_eq_of_read_eq (s t : State) (k : Nat) (hk : k < 65536)
    (h : ∀ a, a < packedBase → Memory.read t.ram a = Memory.read s.ram a) :
    sampleAt t k = sampleAt s k := by
  refine Memory.readWord_congr _ _ _ fun q hq => h _ ?_
  unfold sampleOffset sampleBase packedBase
  omega

/-- STATE, the staged and the active configuration (10_state.md R28 to R33). -/
def configuration (s : State) : Detector × (Word × Word × Word) × (Word × Word × Word × Word × Word × Word) :=
  (s.det, (s.cfgBatch, s.cfgRate, s.cfgMaxf), (s.batch, s.rate, s.maxf, s.minPeriod, s.minFreqLo, s.minFreqHi))

/-- A command that fails keeps STATE and both configurations: the failing ones among those that write them
are CONFIG and SUPPLY, which then write the outcome alone. -/
theorem configuration_of_failed (i : Instr) (s t : State) (hs : Inv s) (h : exec i s = .next t)
    (herr : t.errCode ≠ .ok) : configuration t = configuration s := by
  have hcode := outcomeCodesByCommand i s t hs h
  obtain ⟨_, _, hframe⟩ := commandsWriteOnlyTheirRow i s t hs h
  cases i with
  | nop | clear | sreset => exact absurd hcode herr
  | pack | shift | corr => exact (congrArg configuration hframe).trans rfl
  | config | supply =>
    obtain ⟨_, hfailed⟩ := hframe
    exact (congrArg configuration (hfailed herr)).trans rfl
  | harm | pitch | run =>
    obtain ⟨hframe, _⟩ := hframe
    exact (congrArg configuration hframe).trans rfl

/-- Settles O58: a failed command keeps the configuration, and every row of RAM lies above SAMPLE. -/
theorem errorsLeaveTheBlockUsable : Obligations.ErrorsLeaveTheBlockUsable := by
  intro i s t hs h herr
  have hconf := configuration_of_failed i s t hs h herr
  obtain ⟨hram, _, _⟩ := commandsWriteOnlyTheirRow i s t hs h
  obtain ⟨_, hcap, _⟩ := (legalMaxBatch_iff _).1 hs.capacity
  have hbusy : t.busy = false := by
    rw [(exec_next_iff i s t).1 h]
    exact runCommand_busy _ _ _
  simp only [configuration, Prod.mk.injEq] at hconf
  obtain ⟨hdet, ⟨hcb, hcr, hcf⟩, hb, hr, hf, hmp, hlo, hhi⟩ := hconf
  exact ⟨hbusy, hdet, hcb, hcr, hcf, hb, hr, hf, hmp, hlo, hhi, fun k hk =>
    sampleAt_eq_of_read_eq s t k (hk.trans_le hcap) fun a ha => hram a (not_rowByte_of_lt _ a i ha)⟩

end Sys2Proof.Machine


/-! PROOFS. The command word and the lifecycle of a command (30_encoding.md R90 to R93, 46_detector.md R200 to
R203): decoding and encoding, what a completion keeps, how long BUSY lasts, and what EXEC comes to. -/

namespace Sys2Proof.Machine

/-! ## Decoding and encoding -/

theorem decode_encode (i : Instr) (h : i.wf = true) : decode (encode i) = .ok i := by
  cases i with
  | supply len =>
    have hlen : len < 2 ^ 24 := by simpa [Instr.wf] using h
    have himm : (immediate (.supply len)).toNat = len := by
      simpa [immediate] using Nat.mod_eq_of_lt hlen
    rw [decode, opcField_encode, immField_encode, himm]
    exact if_pos rfl
  | nop | config | run | clear | sreset | pack | shift | corr | harm | pitch => decide

theorem wf_of_mem_plainCommands (i : Instr) (h : i ∈ plainCommands) : i.wf = true := by
  revert h i
  decide

theorem immediate_of_mem_plainCommands : ∀ i ∈ plainCommands, immediate i = 0#24 := by decide

/-- A word that decodes is put together from the two fields it was read from (30_encoding.md R90). -/
theorem encode_of_decode {w : Word} {i : Instr} (h : decode w = .ok i) : i.wf = true ∧ encode i = w := by
  rcases decode_cases w with ⟨ho, hd⟩ | ⟨j, hj, ho, himm, hd⟩ | ⟨_, _, hd⟩ | ⟨_, _, hd⟩ <;>
    cases hd.symm.trans h
  · refine ⟨decide_eq_true (immField w).isLt, ?_⟩
    have himm : immediate (.supply (immField w).toNat) = immField w := by simp [immediate]
    calc encode (.supply (immField w).toNat) = immField w ++ 0x02#8 := congrArg (· ++ 0x02#8) himm
      _ = w := by rw [← ho, fields_append]
  · exact ⟨wf_of_mem_plainCommands i hj, by
      rw [encode, ho, immediate_of_mem_plainCommands i hj, ← himm, fields_append]⟩

/-- Settles O3: the two fields of a word determine it, and a command is its opcode and its immediate. -/
theorem decodeAndEncodeAreInverse : Obligations.DecodeAndEncodeAreInverse :=
  ⟨decode_encode, fun _ _ => encode_of_decode⟩

/-- Settles O2: each word is evaluated. -/
theorem listedWordsDecode : Obligations.ListedWordsDecode := by
  refine ⟨?_, ?_, ?_, ?_, ?_, ?_, ?_, ?_, ?_, ?_, ?_, ?_, ?_, ?_, ?_⟩ <;> decide

/-! ## The completion -/

theorem completion_of_decode {s : State} {i : Instr} (h : decode s.pend = .ok i) :
    completion s = exec i s := by
  rw [completion, h]

theorem completesNow_withFetchWord (s : State) (nbits w : Nat) : CompletesNow (s.withFetchWord nbits w) :=
  ⟨rfl, .inr rfl⟩

/-- Settles O1: a completion performs the command PEND decodes to. -/
theorem stepRunsTheDecodedCommand : Obligations.StepRunsTheDecodedCommand := by
  refine ⟨fun s i hc hd => ?_, fun s nbits w i hd => ?_⟩
  · obtain ⟨hwf, _⟩ := encode_of_decode hd
    exact ⟨hwf, (step_completesNow s hc).trans (completion_of_decode hd)⟩
  · exact (step_completesNow _ (completesNow_withFetchWord s nbits w)).trans (completion_of_decode hd)

/-- The fields of the host agent and of the reset input, PEND and the capacity: no command's to write. -/
def surroundings (s : State) : Word × List HostEvent × List Word × Word × Bool :=
  (s.pend, s.inputs, s.reads, s.maxBatch, s.resetHeld)

theorem bodyOf_surroundings (i : Instr) (s : State) :
    surroundings (bodyOf i s).state = surroundings s := by
  cases i with
  | nop | clear | sreset | pack | shift | corr => rfl
  | config => rcases configBody_cases s with ⟨_, _, hb⟩ | ⟨_, _, _, hb⟩ <;> rw [bodyOf, hb] <;> rfl
  | supply len => rcases supplyBody_cases len s with ⟨_, _, hb⟩ | ⟨_, _, _, hb⟩ <;> rw [bodyOf, hb] <;> rfl
  | harm =>
    obtain ⟨_, _, _, _, hb⟩ := harmBody_frame s
    rw [bodyOf, hb]
    rfl
  | pitch =>
    obtain ⟨_, _, _, _, _, _, _, hb⟩ := pitchBody_frame s
    rw [bodyOf, hb]
    rfl
  | run =>
    obtain ⟨_, _, _, _, _, _, _, _, _, _, _, _, _, hb⟩ := runBody_frame s
    rw [bodyOf, hb]
    rfl

theorem runCommand_surroundings (i : Instr) (s : State) :
    surroundings (runCommand i (bodyOf i) s) = surroundings s := by
  rcases runCommand_cases i (bodyOf i) s with ⟨_, h⟩ | ⟨_, h⟩ <;> rw [h]
  · exact bodyOf_surroundings i s
  · rfl

/-- What every completion does, whatever PEND holds (46_detector.md R201). -/
theorem completion_retires (s : State) :
    ∃ t, completion s = .next t ∧ t.busy = false ∧ t.lastOp = opcField s.pend ∧
      surroundings t = surroundings s := by
  rcases completion_cases s with ⟨i, hd, hc⟩ | ⟨_, hc⟩
  · exact ⟨_, hc, runCommand_busy _ _ _, (runCommand_lastOp _ _ _).trans (opcode_of_decode _ i hd),
      runCommand_surroundings i s⟩
  · exact ⟨_, hc, rfl, rfl, rfl⟩

/-- Settles O5: a command's opcode is PEND[7:0], and so is the LASTOP of an illegal word. -/
theorem completionRetiresTheCommand : Obligations.CompletionRetiresTheCommand := by
  intro s hc
  obtain ⟨t, ht, hbusy, hop, hkept⟩ := completion_retires s
  simp only [surroundings, Prod.mk.injEq] at hkept
  obtain ⟨hpend, hinputs, hreads, hcap, hheld⟩ := hkept
  exact ⟨t, (step_completesNow s hc).trans ht, hbusy, hop.trans (opcField_eq_ofNat _), hpend, hinputs, hreads,
    hcap, hheld⟩

theorem exec_of_refused (i : Instr) (s : State) (h : s.det ∉ precondition i) :
    exec i s = .next { s with errCode := .notReady, lastOp := opcode i, busy := false } := by
  rw [exec_eq_runCommand, runCommand_notReady i _ s h]
  rfl

/-- Settles O6: the listed commands have UNCONF, or every STATE but READY, outside their precondition. -/
theorem notReadyWritesOnlyTheOutcome : Obligations.NotReadyWritesOnlyTheOutcome := by
  refine ⟨rfl, fun s len hd i hi => exec_of_refused i s ?_, fun s hd i hi => exec_of_refused i s ?_⟩
  · simp only [List.mem_cons, List.not_mem_nil, or_false] at hi
    rcases hi with rfl | rfl | rfl | rfl <;> simp [precondition, hd]
  · simp only [List.mem_cons, List.not_mem_nil, or_false] at hi
    rcases hi with rfl | rfl | rfl <;> simpa [precondition] using hd

/-! ## Steps and runs -/

/-- Settles O10: a completion, a host event and an idle block each have a next state. -/
theorem everyStateHasANextStep : Obligations.EveryStateHasANextStep := by
  intro s
  rcases step_cases s with hc | ⟨e, rest, hm⟩ | ⟨hb, hi⟩
  · obtain ⟨t, ht, _⟩ := completion_retires s
    exact ⟨t, (step_completesNow s hc).trans ht, fun hb => absurd hb (by simp [hc.1])⟩
  · refine ⟨_, step_hostMoves s e rest hm, fun _ hi => ?_⟩
    obtain ⟨hi', _⟩ := hm
    cases hi.symm.trans hi'
  · exact ⟨s, step_idle s hb hi, fun _ _ => rfl⟩

/-! ## Runs -/

theorem core_run_zero (s : State) : Host.Core.run Sys2Proof.core 0 s = .next s := rfl

theorem run_succ_of_step (M : Host.Core) {s t : M.State} (k : Nat) (h : M.step s = .next t) :
    M.run (k + 1) s = M.run k t := by
  rw [Host.Core.run, h]

theorem core_run_succ {s t : State} (k : Nat) (h : step s = .next t) :
    Host.Core.run Sys2Proof.core (k + 1) s = Host.Core.run Sys2Proof.core k t :=
  run_succ_of_step Sys2Proof.core k h

/-- A step has a next state, so a run goes on from it. -/
theorem core_run_succ_inv {s t : State} {k : Nat} (h : Host.Core.run Sys2Proof.core (k + 1) s = .next t) :
    ∃ u, step s = .next u ∧ Host.Core.run Sys2Proof.core k u = .next t := by
  obtain ⟨u, hu, _⟩ := everyStateHasANextStep s
  exact ⟨u, hu, (core_run_succ k hu).symm.trans h⟩

theorem core_run_add {s u : State} (k j : Nat) (h : Host.Core.run Sys2Proof.core k s = .next u) :
    Host.Core.run Sys2Proof.core (k + j) s = Host.Core.run Sys2Proof.core j u := by
  induction k generalizing s with
  | zero =>
    cases (core_run_zero s).symm.trans h
    rw [Nat.zero_add]
  | succ k ih =>
    obtain ⟨v, hv, hrun⟩ := core_run_succ_inv h
    rw [Nat.succ_add, core_run_succ _ hv, ih hrun]

/-! ## How long BUSY lasts -/

theorem portRead_busy (s : State) (off : Offset) : (portRead s off).busy = s.busy := by
  rcases portRead_cases s off with ⟨_, h⟩ | ⟨_, h⟩ <;> rw [h] <;> rfl

theorem portRead_delay (s : State) (off : Offset) : (portRead s off).delay = s.delay := by
  rcases portRead_cases s off with ⟨_, h⟩ | ⟨_, h⟩ <;> rw [h] <;> rfl

theorem assertReset_busy (s : State) : (assertReset s).busy = false := by
  rcases assertReset_cases s with ⟨_, h⟩ | ⟨_, h⟩ <;> rw [h] <;> rfl

/-- A host event during BUSY abandons the command or leaves it pending, with the delay untouched
(70_reset_and_hazards.md R263 and R270). -/
theorem hostTurn_of_busy (s : State) (e : HostEvent) (rest : List HostEvent) (hb : s.busy = true) :
    (hostTurn s e rest).busy = false ∨
      ((hostTurn s e rest).busy = true ∧ (hostTurn s e rest).delay = s.delay) := by
  cases e with
  | rd off => exact .inr ⟨(portRead_busy _ off).trans hb, portRead_delay _ off⟩
  | wr off v =>
    rcases portWrite_cases (s.queue rest) off v with ⟨_, h⟩ | ⟨hb', _⟩
    · rw [hostTurn, h]
      exact .inr ⟨hb, rfl⟩
    · cases hb.symm.trans hb'
  | poll =>
    rw [hostTurn, pollStatus]
    split <;> exact .inr ⟨hb, rfl⟩
  | assertReset => exact .inl (assertReset_busy _)
  | releaseReset => exact .inr ⟨hb, rfl⟩

theorem busyReturnsToZero_within (n : Nat) (s : State) (hb : s.busy = true) (hd : s.delay ≤ n) :
    ∃ k t, k ≤ n + 1 ∧ Host.Core.run Sys2Proof.core k s = .next t ∧ t.busy = false := by
  induction n generalizing s with
  | zero =>
    have hc : CompletesNow s := ⟨hb, .inr (by omega)⟩
    obtain ⟨t, ht, hbusy, _⟩ := completion_retires s
    exact ⟨1, t, le_rfl, core_run_succ 0 ((step_completesNow s hc).trans ht), hbusy⟩
  | succ n ih =>
    rcases step_cases s with hc | ⟨e, rest, hm⟩ | ⟨hb', _⟩
    · obtain ⟨t, ht, hbusy, _⟩ := completion_retires s
      exact ⟨1, t, by omega, core_run_succ 0 ((step_completesNow s hc).trans ht), hbusy⟩
    · have hstep := step_hostMoves s e rest hm
      rw [if_pos hb] at hstep
      rcases hostTurn_of_busy s.tick e rest hb with hdone | ⟨hbusy, hdelay⟩
      · exact ⟨1, _, by omega, core_run_succ 0 hstep, hdone⟩
      · have htick : s.tick.delay = s.delay - 1 := rfl
        obtain ⟨k, t, hk, hrun, ht⟩ := ih _ hbusy (by omega)
        exact ⟨k + 1, t, by omega, (core_run_succ k hstep).trans hrun, ht⟩
    · cases hb.symm.trans hb'

/-- Settles O9: every host event during BUSY takes one from the delay, and at 0 the command completes. -/
theorem busyReturnsToZero : Obligations.BusyReturnsToZero :=
  fun s hb => busyReturnsToZero_within s.delay s hb le_rfl

/-! ## POLL -/

/-- Bit 0 of STATUS is BUSY (10_state.md R27). -/
theorem statusBusy_statusWord (s : State) : statusBusy (statusWord s) = s.busy := by
  rw [statusBusy, statusWord, BitVec.getLsbD_append]
  simp

theorem pollStatus_of_busy (s : State) (rest : List HostEvent) (hb : s.busy = true) :
    pollStatus s rest = s.give (statusWord s) := if_pos ((statusBusy_statusWord s).trans hb)

theorem pollStatus_of_idle (s : State) (rest : List HostEvent) (hb : s.busy = false) :
    pollStatus s rest = (s.give (statusWord s)).queue rest :=
  if_neg (by rw [statusBusy_statusWord, hb]; decide)

theorem step_poll_busy (s : State) (rest : List HostEvent) (hm : HostMoves s .poll rest) (hb : s.busy = true) :
    step s = .next { s with delay := s.delay - 1, reads := statusWord s :: s.reads } := by
  rw [step_hostMoves s _ rest hm, if_pos hb, hostTurn, pollStatus_of_busy s.tick rest hb]
  rfl

theorem step_poll_idle (s : State) (rest : List HostEvent) (hm : HostMoves s .poll rest) (hb : s.busy = false) :
    step s = .next { s with inputs := rest, reads := statusWord s :: s.reads } := by
  rw [step_hostMoves s _ rest hm, if_neg (by simp [hb]), hostTurn, pollStatus_of_idle s rest hb]
  rfl

/-- Settles O27: POLL reads STATUS, whose bit 0 is BUSY. -/
theorem pollReadsStatusUntilNotBusy : Obligations.PollReadsStatusUntilNotBusy :=
  fun s rest hm => ⟨step_poll_busy s rest hm, step_poll_idle s rest hm⟩

/-! ## EXEC -/

/-- The fields of the host agent replaced: none of them is the block's (log entries 1 and 2). -/
def State.withHost (s : State) (inputs : List HostEvent) (reads : List Word) (delay draws : Nat) : State :=
  { s with inputs := inputs, reads := reads, delay := delay, draws := draws }

/-- An ending with its state replaced. -/
def Ending.mapState (f : State → State) : Ending → Ending
  | .complete s => .complete (f s)
  | .raise e s => .raise e (f s)

theorem finish_mapState_withHost (op : Byte) (r : Ending) (ins : List HostEvent) (rds : List Word) (d n : Nat) :
    finish op (r.mapState (·.withHost ins rds d n)) = (finish op r).withHost ins rds d n := by
  cases r <;> rfl

theorem harmResult_congr (s t : State) (hm : t.ram = s.ram) (hb : t.batch = s.batch)
    (hp : t.minPeriod = s.minPeriod) : harmResult t = harmResult s := by
  simp only [harmResult, curveAt_congr s t hm, activeN2, activeN, hb, hp]

section

variable (s : State) (ins : List HostEvent) (rds : List Word) (d n : Nat)

theorem configBody_withHost :
    configBody (s.withHost ins rds d n) = (configBody s).mapState (·.withHost ins rds d n) := by
  rcases configBody_cases s with ⟨e, hv, hb⟩ | ⟨mp, mf, hv, hb⟩ <;>
    rcases configBody_cases (s.withHost ins rds d n) with ⟨e', hv', hb'⟩ | ⟨mp', mf', hv', hb'⟩ <;>
    cases hv.symm.trans hv' <;> rw [hb, hb'] <;> rfl

theorem supplyBody_withHost (len : Nat) :
    supplyBody len (s.withHost ins rds d n) = (supplyBody len s).mapState (·.withHost ins rds d n) := by
  rcases supplyBody_cases len s with ⟨e, hv, hb⟩ | ⟨mp, mf, hv, hb⟩ <;>
    rcases supplyBody_cases len (s.withHost ins rds d n) with ⟨e', hv', hb'⟩ | ⟨mp', mf', hv', hb'⟩ <;>
    cases hv.symm.trans hv' <;> rw [hb, hb'] <;> rfl

theorem harmBest_withHost : harmBest (s.withHost ins rds d n) = (harmBest s).withHost ins rds d n := by
  rw [harmBest, harmBest, harmResult_congr s _ rfl rfl rfl]
  rfl

theorem harmCorrected_withHost :
    harmCorrected (s.withHost ins rds d n) = (harmCorrected s).withHost ins rds d n := by
  rw [harmCorrected, harmCorrected, harmResult_congr s (s.withHost ins rds d n) rfl rfl rfl, harmBest_withHost]
  cases (harmResult s).corrected <;> rfl

theorem harmBody_withHost :
    harmBody (s.withHost ins rds d n) = (harmBody s).mapState (·.withHost ins rds d n) := by
  by_cases h : s.minPeriod.toNat = 0
  · rw [harmBody_of_minPeriod_zero s h, harmBody_of_minPeriod_zero (s.withHost ins rds d n) h, harmBest_withHost]
    rfl
  · rw [harmBody_of_minPeriod_pos s h, harmBody_of_minPeriod_pos (s.withHost ins rds d n) h,
      harmCorrected_withHost]
    rfl

theorem pitchBody_withHost :
    pitchBody (s.withHost ins rds d n) = (pitchBody s).mapState (·.withHost ins rds d n) := by
  have hp : pitchOf (s.withHost ins rds d n) = pitchOf s := pitchOf_congr _ _ rfl rfl rfl rfl
  rw [pitchBody, pitchBody, hp]
  cases pitchOf s <;> rfl

theorem runCorrelated_withHost :
    runCorrelated (s.withHost ins rds d n) = (runCorrelated s).withHost ins rds d n := rfl

theorem runBody_withHost :
    runBody (s.withHost ins rds d n) = (runBody s).mapState (·.withHost ins rds d n) := by
  by_cases h : s.minPeriod.toNat = 0
  · rw [runBody_of_minPeriod_zero s h, runBody_of_minPeriod_zero (s.withHost ins rds d n) h,
      runCorrelated_withHost, harmBest_withHost]
    rfl
  · rw [runBody_of_minPeriod_pos s h, runBody_of_minPeriod_pos (s.withHost ins rds d n) h,
      runCorrelated_withHost, harmCorrected_withHost, pitchBody_withHost]

theorem bodyOf_withHost (i : Instr) :
    bodyOf i (s.withHost ins rds d n) = (bodyOf i s).mapState (·.withHost ins rds d n) := by
  cases i with
  | nop | clear | sreset | pack | shift | corr => rfl
  | config => exact configBody_withHost s ins rds d n
  | supply len => exact supplyBody_withHost s ins rds d n len
  | harm => exact harmBody_withHost s ins rds d n
  | pitch => exact pitchBody_withHost s ins rds d n
  | run => exact runBody_withHost s ins rds d n

/-- No command reads or writes the host agent's fields. -/
theorem runCommand_withHost (i : Instr) :
    runCommand i (bodyOf i) (s.withHost ins rds d n) = (runCommand i (bodyOf i) s).withHost ins rds d n := by
  by_cases h : s.det ∈ precondition i
  · rw [runCommand_admitted i _ s h, runCommand_admitted i _ (s.withHost ins rds d n) h, bodyOf_withHost,
      finish_mapState_withHost]
  · rw [runCommand_notReady i _ s h, runCommand_notReady i _ (s.withHost ins rds d n) h]
    rfl

end

/-- While the command is pending, POLL reads STATUS until the delay has run down. -/
theorem run_polls (n : Nat) (s : State) (rest : List HostEvent) (hb : s.busy = true)
    (hi : s.inputs = .poll :: rest) (hd : s.delay = n) :
    ∃ rds, Host.Core.run Sys2Proof.core n s = .next (s.withHost s.inputs rds 0 s.draws) := by
  induction n generalizing s with
  | zero =>
    have hs : s.withHost s.inputs s.reads 0 s.draws = s := by rw [State.withHost, ← hd]
    exact ⟨s.reads, by rw [hs]; rfl⟩
  | succ n ih =>
    have hstep := step_poll_busy s rest ⟨hi, .inr (by omega)⟩ hb
    obtain ⟨rds, hrun⟩ := ih { s with delay := s.delay - 1, reads := statusWord s :: s.reads } hb hi
      (Nat.sub_eq_of_eq_add hd)
    exact ⟨rds, (core_run_succ n hstep).trans hrun⟩

/-- With the delay run down, the command completes as it would with any other host (log entries 1 and 2). -/
theorem completion_runs {s : State} {i : Instr} (hd : decode s.pend = .ok i) (hb : s.busy = true)
    (ins : List HostEvent) (rds : List Word) (n : Nat) :
    step (s.withHost ins rds 0 n) = .next ((runCommand i (bodyOf i) s).withHost ins rds 0 n) := by
  have hc : CompletesNow (s.withHost ins rds 0 n) := ⟨hb, .inr rfl⟩
  rw [step_completesNow _ hc, completion_of_decode (s := s.withHost ins rds 0 n) hd, exec_eq_runCommand,
    runCommand_withHost]

/-- Settles O28: the write issues, the polls run the delay down, the completion is exec of the command
PEND decodes to, and the next poll is the last. -/
theorem execPerformsTheCommand : Obligations.ExecPerformsTheCommand := by
  intro s i rest hwf hb hheld hi
  have hwrite : s.inputs = .wr (regOffset .cmd) (encode i) :: .poll :: rest := hi
  obtain ⟨d, n, hissue⟩ := issueStoresTheWordAndSetsBusy s _ _ _ hb hheld hwrite (by decide)
  obtain ⟨rds, hpolls⟩ := run_polls d { s with
    inputs := .poll :: rest, pend := encode i, busy := true, delay := d, draws := n } rest rfl rfl rfl
  have hpending := completion_runs (s := { s with pend := encode i, busy := true }) (decode_encode i hwf)
    rfl (.poll :: rest) rds n
  have hlast := step_poll_idle ((runCommand i (bodyOf i) { s with pend := encode i, busy := true }).withHost
    (.poll :: rest) rds 0 n) rest ⟨rfl, .inl (runCommand_busy _ _ _)⟩ (runCommand_busy _ _ _)
  have hdone := (core_run_succ 1 hpending).trans (core_run_succ 0 hlast)
  exact ⟨d + 2 + 1, _, _, (core_run_succ _ hissue).trans ((core_run_add d 2 hpolls).trans hdone),
    exec_eq_runCommand i _, rfl, rfl⟩

end Sys2Proof.Machine


/-! PROOFS. The reset input as a level and the invariant (70_reset_and_hazards.md R260 to R263): registers at
their reset values while reset is asserted, and what every step keeps. -/

namespace Sys2Proof.Machine

/-! ## While reset is asserted -/

/-- While the reset input is asserted nothing is pending and every register holds its reset value
(70_reset_and_hazards.md R260 and R263). -/
def HeldAtReset (s : State) : Prop :=
  s.resetHeld = true → s.busy = false ∧ ∀ r : Reg, readReg s r = resetValue s.maxBatch r

theorem heldAtReset_of_released {s : State} (h : s.resetHeld = false) : HeldAtReset s :=
  fun hheld => absurd (h.symm.trans hheld) Bool.false_ne_true

/-- States with the same registers, capacity and level of reset are held alike. -/
theorem HeldAtReset.congr {s t : State} (h : HeldAtReset s) (hheld : t.resetHeld = s.resetHeld)
    (hbusy : t.busy = s.busy) (hcap : t.maxBatch = s.maxBatch) (hreg : ∀ r, readReg t r = readReg s r) :
    HeldAtReset t := by
  intro ht
  obtain ⟨hb, hr⟩ := h (hheld.symm.trans ht)
  exact ⟨hbusy.trans hb, fun r => by rw [hreg r, hr r, hcap]⟩

/-- STATUS resets to 0: BUSY = 0, UNCONF and code 0 are all coded 0 (10_state.md R27 and R28). -/
theorem statusWord_clearRegisters (s : State) : statusWord s.clearRegisters = 0#32 := by
  change 0#8 ++ 0#8 ++ 0#4 ++ 0#4 ++ 0#3 ++ BitVec.ofBool false ++ BitVec.ofBool false ++ 0#2 ++
    BitVec.ofBool false = 0#32
  decide

theorem readReg_clearRegisters (s : State) (r : Reg) :
    readReg s.clearRegisters r = resetValue s.maxBatch r := by
  cases r with
  | status => exact statusWord_clearRegisters s
  | _ => rfl

theorem readReg_assertReset (s : State) (r : Reg) : readReg (assertReset s) r = resetValue s.maxBatch r := by
  rw [← readReg_clearRegisters]
  rcases assertReset_cases s with ⟨_, h⟩ | ⟨_, h⟩ <;> rw [h] <;> cases r <;> rfl

theorem readReg_give (s : State) (v : Word) (r : Reg) : readReg (s.give v) r = readReg s r := by
  cases r <;> rfl

theorem readReg_queue (s : State) (rest : List HostEvent) (r : Reg) :
    readReg (s.queue rest) r = readReg s r := by
  cases r <;> rfl

theorem heldAtReset_portRead {s : State} (off : Offset) (h : HeldAtReset s) :
    HeldAtReset (portRead s off) := by
  rcases portRead_cases s off with ⟨_, hr⟩ | ⟨_, hr⟩ <;> rw [hr]
  · exact h.congr rfl rfl rfl fun r => by cases r <;> rfl
  · exact h.congr rfl rfl rfl (readReg_give s _)

/-- A write cannot reach a register while reset is asserted (log entry 13). -/
theorem heldAtReset_portWrite {s : State} (off : Offset) (v : Word) (h : HeldAtReset s) :
    HeldAtReset (portWrite s off v) := by
  rcases portWrite_cases s off v with ⟨hb, hw⟩ | ⟨_, ⟨hrel, r, _, hw⟩ | ⟨_, hw⟩ | hw⟩ <;> rw [hw]
  · intro hheld
    obtain ⟨hidle, _⟩ := h hheld
    exact absurd (hidle.symm.trans hb) Bool.false_ne_true
  · refine heldAtReset_of_released ?_
    cases r <;> exact hrel
  · exact h.congr rfl rfl rfl fun r => by cases r <;> rfl
  · exact h

theorem heldAtReset_pollStatus {s : State} (rest : List HostEvent) (h : HeldAtReset s) :
    HeldAtReset (pollStatus s rest) := by
  rw [pollStatus]
  split
  · exact h.congr rfl rfl rfl (readReg_give s _)
  · exact h.congr rfl rfl rfl fun r => (readReg_queue _ rest r).trans (readReg_give s _ r)

theorem heldAtReset_assertReset (s : State) : HeldAtReset (assertReset s) :=
  fun _ => ⟨assertReset_busy s, fun r => by rw [readReg_assertReset, assertReset_maxBatch]⟩

theorem heldAtReset_hostTurn {s : State} (e : HostEvent) (rest : List HostEvent) (h : HeldAtReset s) :
    HeldAtReset (hostTurn s e rest) := by
  have hq : HeldAtReset (s.queue rest) := h.congr rfl rfl rfl (readReg_queue s rest)
  cases e with
  | rd off => exact heldAtReset_portRead off hq
  | wr off v => exact heldAtReset_portWrite off v hq
  | poll => exact heldAtReset_pollStatus rest h
  | assertReset => exact heldAtReset_assertReset _
  | releaseReset => exact heldAtReset_of_released rfl

theorem heldAtReset_tick {s : State} (h : HeldAtReset s) : HeldAtReset s.tick :=
  h.congr rfl rfl rfl fun r => by cases r <;> rfl

/-- From any state every step keeps the registers of a held block at their reset values. -/
theorem step_keeps_heldAtReset {s t : State} (hs : HeldAtReset s) (h : step s = .next t) : HeldAtReset t := by
  rcases step_cases s with hc | ⟨e, rest, hm⟩ | ⟨hb, hi⟩
  · obtain ⟨u, hu, _, _, hkept⟩ := completion_retires s
    cases hu.symm.trans ((step_completesNow s hc).symm.trans h)
    simp only [surroundings, Prod.mk.injEq] at hkept
    obtain ⟨_, _, _, _, hheld⟩ := hkept
    obtain ⟨hb, _⟩ := hc
    intro ht
    obtain ⟨hidle, _⟩ := hs (hheld.symm.trans ht)
    exact absurd (hidle.symm.trans hb) Bool.false_ne_true
  · cases (step_hostMoves s e rest hm).symm.trans h
    split
    · exact heldAtReset_hostTurn e rest (heldAtReset_tick hs)
    · exact heldAtReset_hostTurn e rest hs
  · cases (step_idle s hb hi).symm.trans h
    exact hs

theorem run_keeps_heldAtReset (k : Nat) {s t : State} (hs : HeldAtReset s)
    (h : Host.Core.run Sys2Proof.core k s = .next t) : HeldAtReset t := by
  induction k generalizing s with
  | zero =>
    cases (core_run_zero s).symm.trans h
    exact hs
  | succ k ih =>
    obtain ⟨u, hu, hrun⟩ := core_run_succ_inv h
    exact ih (step_keeps_heldAtReset hs hu) hrun

/-- A register is read at any offset of its word (20_memory.md R67). -/
theorem step_read_register (s : State) (off : Offset) (rest : List HostEvent) (r : Reg) (hb : s.busy = false)
    (hi : s.inputs = .rd off :: rest) (hoff : off.toNat / 4 * 4 = r.offset) :
    step s = .next { s with inputs := rest, reads := readReg s r :: s.reads } := by
  rw [step_read_idle s off rest hb hi, (wordOffset_eq off).trans hoff, currentWord_offset]

theorem writeCurrent_held (s : State) (a : Nat) (v : Word) (ha : a < 0x1000) (h : s.resetHeld = true) :
    writeCurrent s a v = s := by
  simp [writeCurrent, regionOf_registers _ a ha, h]

/-- Settles O15: every step keeps a held block's registers at their reset values, so whatever the host does a
read finds them and a write to the register block finds nothing to change. -/
theorem resetInputKeepsRam : Obligations.ResetInputKeepsRam := by
  refine ⟨fun s rest hb hi => ?_, fun s t k hrel hrun hheld => ?_, fun s rest hb hi => ?_⟩
  · have hstep := step_hostMoves s _ rest (hostMoves_of_idle s _ rest hb hi)
    rw [if_neg (by simp [hb])] at hstep
    refine ⟨_, hstep, readReg_assertReset (s.queue rest), assertReset_busy _, ?_⟩
    rcases assertReset_cases (s.queue rest) with ⟨_, h⟩ | ⟨hb', _⟩
    · rw [hostTurn, h]
      exact ⟨rfl, rfl, rfl, rfl⟩
    · exact absurd (hb.symm.trans hb') Bool.false_ne_true
  · obtain ⟨hb, hreg⟩ := run_keeps_heldAtReset k (heldAtReset_of_released hrel) hrun hheld
    refine ⟨hb, hreg, fun r off rest hi hoff => ?_, fun off v rest hi hoff => ?_⟩
    · rw [step_read_register t off rest r hb hi hoff, hreg]
    · have ha : wordOffset off < 0x1000 := by rw [wordOffset_eq]; omega
      rw [step_write_idle t off v rest hb hi, writeCurrent_held { t with inputs := rest } _ v ha hheld]
  · rw [step_hostMoves s _ rest (hostMoves_of_idle s _ rest hb hi), if_neg (by simp [hb])]
    rfl

/-- Settles O14: every register of the power-on state is 0 or a constant, and its RAM lists no byte. -/
theorem powerOnRegistersAndRam : Obligations.PowerOnRegistersAndRam := by
  have hcleared (cap : Word) : (State.powerOn cap).clearRegisters = State.powerOn cap := rfl
  exact ⟨rfl, fun cap => ⟨fun r => hcleared cap ▸ readReg_clearRegisters (State.powerOn cap) r, fun _ => rfl⟩⟩

/-! ## RAM in canonical form inside its windows -/

/-- RAM as the invariant has it for a capacity (log entry 4, 20_memory.md R62). -/
structure RamValid (cap : Nat) (m : Memory) : Prop where
  form : Memory.wf m = true
  inside : ∀ c ∈ m, inWindow cap c.1 = true

theorem RamValid.writeBytes {cap : Nat} {m : Memory} (h : RamValid cap m) (a : Nat) (vs : List Byte)
    (hin : ∀ k, k < vs.length → inWindow cap (a + k) = true) : RamValid cap (Memory.writeBytes m a vs) :=
  ⟨Memory.wf_writeBytes vs m a h.form,
    Memory.forall_writeBytes (fun a => inWindow cap a = true) vs m a hin h.inside⟩

/-- What keeps a command's stores inside the windows: a legal capacity, and a batch not above it. -/
structure Fits (s : State) : Prop where
  capacity : s.maxBatch.toNat ≤ 65536
  batch : s.batch.toNat ≤ s.maxBatch.toNat
  ram : RamValid s.maxBatch.toNat s.ram

theorem Inv.fits {s : State} (h : Inv s) : Fits s :=
  ⟨((legalMaxBatch_iff _).1 h.capacity).2.1, h.batch_le, h.ram_form, h.ram_inside⟩

theorem Fits.packedRam {s : State} (h : Fits s) : RamValid s.maxBatch.toNat (packedRam s) := by
  refine h.ram.writeBytes _ _ fun k hk => ?_
  rw [packSigns_length] at hk
  exact inWindow_of_mem_packSpans s h.capacity h.batch _ List.mem_cons_self k hk

theorem Fits.shiftedRam {s : State} (h : Fits s) : RamValid s.maxBatch.toNat (shiftedRam s) := by
  refine ⟨wf_writeViews _ _ 8 h.ram.form, forall_writeViews (fun a => inWindow s.maxBatch.toNat a = true)
    _ _ 8 le_rfl (fun v k hv hk => ?_) h.ram.inside⟩
  rw [packedBytes_activeB_length] at hk
  exact inWindow_of_mem_shiftSpans s h.capacity h.batch _
    (List.mem_map_of_mem (List.mem_range.2 hv)) k hk

theorem Fits.corrRam {s : State} (h : Fits s) : RamValid s.maxBatch.toNat (corrRam s) := by
  refine h.ram.writeBytes _ _ fun k hk => ?_
  rw [curveBytes_length, correlate_length] at hk
  exact inWindow_of_mem_corrSpans s h.capacity h.batch _ List.mem_cons_self k hk

theorem Fits.runCorrelated {s : State} (h : Fits s) : RamValid s.maxBatch.toNat (runCorrelated s).ram := by
  have hpacked : Fits (runPacked s) := ⟨h.capacity, h.batch, h.packedRam⟩
  have hshifted : Fits (runShifted s) := ⟨h.capacity, h.batch, hpacked.shiftedRam⟩
  exact hshifted.corrRam

theorem Fits.abandonSpans {s : State} (h : Fits s) (draw : Nat) :
    RamValid s.maxBatch.toNat (abandonSpans draw s.ram (pendingSpans s)) := by
  refine ⟨wf_abandonSpans draw _ _ h.ram.form, forall_abandonSpans (fun a => inWindow s.maxBatch.toNat a = true)
    draw _ _ (fun p hp k hk => ?_) h.ram.inside⟩
  unfold pendingSpans at hp
  cases hc : pendingCommand? s with
  | none => simp [hc] at hp
  | some i =>
    rw [hc] at hp
    exact inWindow_of_mem_writtenSpans s h.capacity h.batch i p hp k hk

/-- A body leaves RAM as it was, or as one of the stages stores it. -/
theorem Fits.bodyOf {s : State} (h : Fits s) (i : Instr) :
    RamValid s.maxBatch.toNat (bodyOf i s).state.ram := by
  cases i with
  | nop | clear | sreset => exact h.ram
  | config => rcases configBody_cases s with ⟨_, _, hb⟩ | ⟨_, _, _, hb⟩ <;> rw [Machine.bodyOf, hb] <;> exact h.ram
  | supply len =>
    rcases supplyBody_cases len s with ⟨_, _, hb⟩ | ⟨_, _, _, hb⟩ <;> rw [Machine.bodyOf, hb] <;> exact h.ram
  | pack => exact h.packedRam
  | shift => exact h.shiftedRam
  | corr => exact h.corrRam
  | harm =>
    obtain ⟨_, _, _, _, hb⟩ := harmBody_frame s
    rw [Machine.bodyOf, hb]
    exact h.ram
  | pitch =>
    obtain ⟨_, _, _, _, _, _, _, hb⟩ := pitchBody_frame s
    rw [Machine.bodyOf, hb]
    exact h.ram
  | run =>
    obtain ⟨m, _, _, _, _, _, _, _, _, _, _, _, hm, hb⟩ := runBody_frame s
    have hram : RamValid s.maxBatch.toNat m := hm ▸ h.runCorrelated
    rw [Machine.bodyOf, hb]
    exact hram

/-! ## The configuration in force -/

/-- The registers of the configuration in force, the capacity and STATE (10_state.md R28 to R33). -/
def inForce (s : State) : Word × Detector × Word × Word × Word × Word × Word × Word :=
  (s.maxBatch, s.det, s.batch, s.rate, s.maxf, s.minPeriod, s.minFreqLo, s.minFreqHi)

theorem ActiveConfig.congr {s t : State} (h : ActiveConfig s) (hkept : inForce t = inForce s) :
    ActiveConfig t := by
  simp only [inForce, Prod.mk.injEq] at hkept
  obtain ⟨hcap, _, hb, hr, hf, hmp, hlo, hhi⟩ := hkept
  obtain ⟨h1, h2, h3, h4, h5, h6, h7, h8⟩ := h
  constructor <;> simp only [hcap, hb, hr, hf, hmp, hlo, hhi] <;> assumption

/-- A valid pitch is a current one, in READY (10_state.md R27). -/
def ValidIsCurrent (s : State) : Prop := s.pitchValid = true → s.det = .ready ∧ PitchCurrent s

theorem validIsCurrent_of_invalid {s : State} (h : s.pitchValid = false) : ValidIsCurrent s :=
  fun hv => absurd (h.symm.trans hv) Bool.false_ne_true

/-- A step that keeps the configuration in force keeps the invariant if it leaves RAM valid, a valid pitch
current and a held block at its reset values. -/
theorem Inv.of_inForce {s t : State} (hs : Inv s) (hkept : inForce t = inForce s)
    (hram : RamValid s.maxBatch.toNat t.ram) (hvalid : ValidIsCurrent t) (hheld : HeldAtReset t) : Inv t := by
  have hfields := hkept
  simp only [inForce, Prod.mk.injEq] at hfields
  obtain ⟨hcap, hdet, hb, hr, hf, hmp, hlo, hhi⟩ := hfields
  rw [← hcap] at hram
  refine ⟨hcap ▸ hs.capacity, hram.form, hram.inside, fun hd => ?_, fun hd => ?_, hvalid, hheld⟩
  · exact (hs.configured (hdet ▸ hd)).congr hkept
  · obtain ⟨nb, nr, nf, nmp, nlo, nhi, _⟩ := hs.unconfigured (hdet ▸ hd)
    refine ⟨hb.trans nb, hr.trans nr, hf.trans nf, hmp.trans nmp, hlo.trans nlo, hhi.trans nhi, ?_⟩
    refine Bool.eq_false_iff.2 fun hv => ?_
    obtain ⟨hready, _⟩ := hvalid hv
    exact Detector.noConfusion (hready.symm.trans hd)

/-- The registers of a configuration that Validate accepted (40_config.md R110 to R115). -/
theorem activeConfig_of_validate {s : State} {n r f mp : Nat} {mf : F64}
    (hv : validate s.maxBatch.toNat n r f = .ok (mp, mf)) (hb : s.batch.toNat = n) (hr : s.rate.toNat = r)
    (hf : s.maxf.toNat = f) (hmp : s.minPeriod.toNat = mp) (hmf : s.minFreqHi ++ s.minFreqLo = mf.bits) :
    ActiveConfig s := by
  obtain ⟨⟨hn, hmod, hcap, hr2, hrf⟩, hmpv, hmfv⟩ := (validate_eq_ok_iff _ _ _ _ _ _).1 hv
  subst hb hr hf
  have hfpos : 0 < s.maxf.toNat := Nat.pos_of_mul_pos_right (Nat.zero_lt_of_lt hrf)
  exact
    { batch_multiple := hmod
      batch_least := by omega
      batch_capacity := hcap
      rate_least := hr2
      maxf_least := hfpos
      minPeriod_value := hmp.trans hmpv
      minPeriod_bound := by rw [hmp, hmpv]; exact Nat.div_lt_of_lt_mul hrf
      minFreq_value := by rw [hmf, hmfv, minFrequency] }

theorem minPeriod_fits {cap n r f mp : Nat} {mf : F64} (hv : validate cap n r f = .ok (mp, mf))
    (hr : r < 2 ^ 32) : mp % 2 ^ 32 = mp := by
  obtain ⟨_, hmp, _⟩ := (validate_eq_ok_iff _ _ _ _ _ _).1 hv
  exact Nat.mod_eq_of_lt (hmp ▸ (Nat.div_le_self r f).trans_lt hr)

theorem batch_fits {s : State} {n r f mp : Nat} {mf : F64}
    (hv : validate s.maxBatch.toNat n r f = .ok (mp, mf)) : n % 2 ^ 32 = n := by
  obtain ⟨⟨_, _, hcap, _⟩, _⟩ := (validate_eq_ok_iff _ _ _ _ _ _).1 hv
  exact Nat.mod_eq_of_lt (hcap.trans_lt s.maxBatch.isLt)

theorem activeConfig_adoptConfig {s : State} {mp : Nat} {mf : F64}
    (hv : validate s.maxBatch.toNat s.cfgBatch.toNat s.cfgRate.toNat s.cfgMaxf.toNat = .ok (mp, mf)) :
    ActiveConfig (s.adoptConfig s.cfgBatch.toNat s.cfgRate.toNat s.cfgMaxf.toNat mp mf) :=
  activeConfig_of_validate hv (Nat.mod_eq_of_lt s.cfgBatch.isLt) (Nat.mod_eq_of_lt s.cfgRate.isLt)
    (Nat.mod_eq_of_lt s.cfgMaxf.isLt) (minPeriod_fits hv s.cfgRate.isLt) (hiLo_append _)

theorem activeConfig_adoptLength {s : State} {len mp : Nat} {mf : F64}
    (hv : validate s.maxBatch.toNat len s.rate.toNat s.maxf.toNat = .ok (mp, mf)) :
    ActiveConfig (s.adoptLength len mp mf) :=
  activeConfig_of_validate hv (batch_fits hv) rfl rfl (minPeriod_fits hv s.rate.isLt) (hiLo_append _)

/-! ## A valid pitch is a current one -/

/-- What PITCH leaves with PITCH_VALID = 1 is the quotient of RATE by a lagSamples above 0
(45_pitch.md R187 and R188). -/
theorem pitchCurrent_pitchBody (s : State) (h : (pitchBody s).state.pitchValid = true) :
    PitchCurrent (pitchBody s).state := by
  unfold pitchBody at h ⊢
  cases hp : pitchOf s with
  | noStart | noNext | degenerate => simp [hp] at h
  | found se ne ls p =>
    obtain ⟨_, _, _, hlt, hpitch⟩ := edges_of_pitchOf_found hp
    refine ⟨ls, hlt, hiLo_append _, ?_⟩
    simp [hiLo_append, hpitch]

theorem det_pitchBody (s : State) : (pitchBody s).state.det = s.det :=
  congrArg Prod.fst (pitchBody_stateAndProto s)

theorem validIsCurrent_pitchBody {s : State} (hd : s.det = .ready) : ValidIsCurrent (pitchBody s).state :=
  fun h => ⟨(det_pitchBody s).trans hd, pitchCurrent_pitchBody s h⟩

theorem validIsCurrent_runBody {s : State} (hd : s.det = .ready) : ValidIsCurrent (runBody s).state := by
  by_cases h : s.minPeriod.toNat = 0
  · rw [runBody_of_minPeriod_zero s h]
    exact validIsCurrent_of_invalid (State.setBest_pitchValid _ _ _ _)
  · obtain ⟨_, _, _, _, hharm⟩ := harmCorrected_frame (runCorrelated s)
    obtain ⟨m, hcorr⟩ := runCorrelated_frame s
    have hdet : (harmCorrected (runCorrelated s)).det = .ready := by rw [hharm, hcorr]; exact hd
    rw [runBody_of_minPeriod_pos s h]
    exact validIsCurrent_pitchBody hdet

/-! ## The invariant, body by body -/

theorem Inv.released {s : State} (h : Inv s) (hb : s.busy = true) : s.resetHeld = false := by
  refine Bool.eq_false_iff.2 fun hheld => ?_
  obtain ⟨hidle, _⟩ := h.held hheld
  exact Bool.false_ne_true (hidle.symm.trans hb)

theorem heldAtReset_bodyOf {s : State} (i : Instr) (h : s.resetHeld = false) :
    HeldAtReset (bodyOf i s).state := by
  have hkept := bodyOf_surroundings i s
  simp only [surroundings, Prod.mk.injEq] at hkept
  obtain ⟨_, _, _, _, hheld⟩ := hkept
  exact heldAtReset_of_released (hheld.trans h)

theorem Inv.configured_of {s t : State} (hs : Inv s) (hcap : t.maxBatch = s.maxBatch) (hram : t.ram = s.ram)
    (hd : t.det ≠ .unconf) (hconf : ActiveConfig t) (hvalid : t.pitchValid = false)
    (hheld : t.resetHeld = false) : Inv t :=
  { capacity := hcap ▸ hs.capacity
    ram_form := hram ▸ hs.ram_form
    ram_inside := by rw [hram, hcap]; exact hs.ram_inside
    configured := fun _ => hconf
    unconfigured := fun h => absurd h hd
    valid := validIsCurrent_of_invalid hvalid
    held := heldAtReset_of_released hheld }

/-- Registers at their reset values make an unconfigured block. -/
theorem Inv.clearRegisters {s t : State} (hs : Inv s) (hram : RamValid s.maxBatch.toNat t.ram)
    (hheld : HeldAtReset t) (ht : inForce t = inForce s.clearRegisters) (hvalid : t.pitchValid = false) :
    Inv t := by
  simp only [inForce, Prod.mk.injEq] at ht
  obtain ⟨hcap, hdet, hb, hr, hf, hmp, hlo, hhi⟩ := ht
  have hcap : t.maxBatch = s.maxBatch := hcap
  rw [← hcap] at hram
  exact
    { capacity := hcap ▸ hs.capacity
      ram_form := hram.form
      ram_inside := hram.inside
      configured := fun h => absurd hdet h
      unconfigured := fun _ => ⟨hb, hr, hf, hmp, hlo, hhi, hvalid⟩
      valid := validIsCurrent_of_invalid hvalid
      held := hheld }

/-- In a STATE that admits the command, its body keeps the invariant. -/
theorem bodyOf_keeps_inv (i : Instr) {s : State} (hs : Inv s) (hadm : s.det ∈ precondition i)
    (hrel : s.resetHeld = false) : Inv (bodyOf i s).state := by
  have hram := hs.fits.bodyOf i
  have hheld := heldAtReset_bodyOf i hrel
  cases i with
  | nop => exact hs
  | clear | pack | shift | corr => exact hs.of_inForce rfl hram hs.valid hheld
  | sreset => exact hs.clearRegisters hram hheld rfl rfl
  | config =>
    rcases configBody_cases s with ⟨_, _, hb⟩ | ⟨_, _, hv, hb⟩ <;> rw [bodyOf, hb]
    · exact hs
    · exact hs.configured_of rfl rfl Detector.noConfusion (activeConfig_adoptConfig hv) rfl hrel
  | supply len =>
    rcases supplyBody_cases len s with ⟨_, _, hb⟩ | ⟨_, _, hv, hb⟩ <;> rw [bodyOf, hb]
    · exact hs
    · exact hs.configured_of rfl rfl Detector.noConfusion (activeConfig_adoptLength hv) rfl hrel
  | harm =>
    obtain ⟨_, _, _, _, hb⟩ := harmBody_frame s
    rw [bodyOf, hb] at hram hheld ⊢
    exact hs.of_inForce rfl hram hs.valid hheld
  | pitch =>
    have hvalid := validIsCurrent_pitchBody (List.mem_singleton.1 hadm)
    obtain ⟨_, _, _, _, _, _, _, hb⟩ := pitchBody_frame s
    rw [bodyOf, hb] at hram hheld ⊢
    rw [hb] at hvalid
    exact hs.of_inForce rfl hram hvalid hheld
  | run =>
    have hvalid := validIsCurrent_runBody (List.mem_singleton.1 hadm)
    obtain ⟨_, _, _, _, _, _, _, _, _, _, _, _, _, hb⟩ := runBody_frame s
    rw [bodyOf, hb] at hram hheld ⊢
    rw [hb] at hvalid
    exact hs.of_inForce rfl hram hvalid hheld

theorem Inv.retire {s : State} (hs : Inv s) (hrel : s.resetHeld = false) (op : Byte) (e : ErrCode) :
    Inv (s.retire op e) :=
  hs.of_inForce rfl ⟨hs.ram_form, hs.ram_inside⟩ hs.valid (heldAtReset_of_released hrel)

/-- A completion keeps the invariant: reset is not asserted while a command is pending. -/
theorem completion_keeps_inv {s t : State} (hs : Inv s) (hb : s.busy = true) (h : completion s = .next t) :
    Inv t := by
  have hrel := hs.released hb
  rcases completion_cases s with ⟨i, _, hc⟩ | ⟨_, hc⟩ <;> cases hc.symm.trans h
  · rcases runCommand_cases i (bodyOf i) s with ⟨hadm, hrun⟩ | ⟨_, hrun⟩ <;> rw [hrun]
    · have hkept := bodyOf_surroundings i s
      simp only [surroundings, Prod.mk.injEq] at hkept
      obtain ⟨_, _, _, _, hheld⟩ := hkept
      exact (bodyOf_keeps_inv i hs hadm hrel).retire (hheld.trans hrel) _ _
    · exact hs.retire hrel _ _
  · exact hs.retire hrel _ _

/-! ## The invariant, event by event -/

theorem portRead_keeps_inv {s : State} (hs : Inv s) (off : Offset) : Inv (portRead s off) := by
  have hheld := heldAtReset_portRead off hs.held
  have hram : RamValid s.maxBatch.toNat s.ram := hs.fits.ram
  rcases portRead_cases s off with ⟨_, hr⟩ | ⟨_, hr⟩ <;> rw [hr] at hheld ⊢ <;>
    exact hs.of_inForce rfl hram hs.valid hheld

/-- A stored word stays inside its window with each of its bytes. -/
theorem RamValid.writeWord {cap : Nat} {m : Memory} (h : RamValid cap m) (hc : Config.legalMaxBatch cap = true)
    (off : Offset) (v : Word) (hin : inWindow cap (wordOffset off) = true) :
    RamValid cap (Memory.writeWord m (wordOffset off) v) := by
  refine h.writeBytes _ _ fun k hk => ?_
  rw [inWindow_word cap _ k hc (by rw [wordOffset_eq]; omega) hk]
  exact hin

theorem portWrite_keeps_inv {s : State} (hs : Inv s) (off : Offset) (v : Word) : Inv (portWrite s off v) := by
  have hheld := heldAtReset_portWrite off v hs.held
  have hram : RamValid s.maxBatch.toNat s.ram := hs.fits.ram
  rcases portWrite_cases s off v with ⟨_, hw⟩ | ⟨_, ⟨_, r, _, hw⟩ | ⟨hreg, hw⟩ | hw⟩ <;>
    rw [hw] at hheld ⊢
  · exact hs.of_inForce rfl hram hs.valid hheld
  · cases r <;> exact hs.of_inForce rfl hram hs.valid hheld
  · have hin : inWindow s.maxBatch.toNat (wordOffset off) = true :=
      inWindow_of_region _ _ (by revert hreg; cases regionOf s.maxBatch.toNat (wordOffset off) <;> decide)
    exact hs.of_inForce rfl (hram.writeWord hs.capacity off v hin) hs.valid hheld
  · exact hs

theorem pollStatus_keeps_inv {s : State} (hs : Inv s) (rest : List HostEvent) : Inv (pollStatus s rest) := by
  have hheld := heldAtReset_pollStatus rest hs.held
  have hram : RamValid s.maxBatch.toNat s.ram := hs.fits.ram
  cases hb : s.busy with
  | true =>
    rw [pollStatus_of_busy s rest hb] at hheld ⊢
    exact hs.of_inForce rfl hram hs.valid hheld
  | false =>
    rw [pollStatus_of_idle s rest hb] at hheld ⊢
    exact hs.of_inForce rfl hram hs.valid hheld

theorem assertReset_keeps_inv {s : State} (hs : Inv s) : Inv (assertReset s) := by
  have hheld := heldAtReset_assertReset s
  rcases assertReset_cases s with ⟨_, h⟩ | ⟨_, h⟩ <;> rw [h] at hheld ⊢
  · exact hs.clearRegisters hs.fits.ram hheld rfl rfl
  · exact hs.clearRegisters (hs.fits.abandonSpans s.draws) hheld rfl rfl

theorem hostTurn_keeps_inv {s : State} (hs : Inv s) (e : HostEvent) (rest : List HostEvent) :
    Inv (hostTurn s e rest) := by
  have hq : Inv (s.queue rest) :=
    hs.of_inForce rfl hs.fits.ram hs.valid (HeldAtReset.congr hs.held rfl rfl rfl (readReg_queue s rest))
  cases e with
  | rd off => exact portRead_keeps_inv hq off
  | wr off v => exact portWrite_keeps_inv hq off v
  | poll => exact pollStatus_keeps_inv hs rest
  | assertReset => exact assertReset_keeps_inv hq
  | releaseReset => exact hq.of_inForce rfl hq.fits.ram hq.valid (heldAtReset_of_released rfl)

/-- Settles O59: a completion keeps it body by body, a host event transaction by transaction. -/
theorem everyStepKeepsTheInvariant : Obligations.EveryStepKeepsTheInvariant := by
  intro s t hs h
  rcases step_cases s with hc | ⟨e, rest, hm⟩ | ⟨hb, hi⟩
  · exact completion_keeps_inv hs (And.left hc) ((step_completesNow s hc).symm.trans h)
  · cases (step_hostMoves s e rest hm).symm.trans h
    have htick : Inv s.tick := hs.of_inForce rfl hs.fits.ram hs.valid (heldAtReset_tick hs.held)
    split
    · exact hostTurn_keeps_inv htick e rest
    · exact hostTurn_keeps_inv hs e rest
  · cases (step_idle s hb hi).symm.trans h
    exact hs

/-- The power-on state of a legal capacity meets the invariant: it is UNCONF, with RAM unwritten. -/
theorem inv_powerOn (cap : Word) (hcap : Config.legalMaxBatch cap.toNat = true) : Inv (State.powerOn cap) :=
  { capacity := hcap
    ram_form := rfl
    ram_inside := fun _ h => absurd h List.not_mem_nil
    configured := fun h => absurd rfl h
    unconfigured := fun _ => ⟨rfl, rfl, rfl, rfl, rfl, rfl, rfl⟩
    valid := validIsCurrent_of_invalid rfl
    held := heldAtReset_of_released rfl }

/-- Settles O60: State.reset is the power-on state of the default capacity, which is legal. -/
theorem invariantHoldsAfterReset : Obligations.InvariantHoldsAfterReset :=
  ⟨inv_powerOn Config.defaultMaxBatch (by decide), inv_powerOn⟩

end Sys2Proof.Machine


/-! PROOFS. The host port (10_state.md R22 to R29, 20_memory.md R62, R63 and R72): reads and writes of the
register block and of the SAMPLE and CURVE windows, STATUS as a number, and reads during BUSY. -/

namespace Sys2Proof.Machine

/-! ## The register block -/

theorem registerMap_eq_map (s : State) : registerMap s = Reg.all.map fun r => (r.offset, readReg s r) := rfl

theorem mem_registerMap {s : State} {p : Nat × Word} (h : p ∈ registerMap s) :
    ∃ r : Reg, p = (r.offset, readReg s r) := by
  rw [registerMap_eq_map] at h
  obtain ⟨r, _, rfl⟩ := List.mem_map.1 h
  exact ⟨r, rfl⟩

/-- Settles O18: the map lists each register at its offset, where the port reads it. -/
theorem registerReadsFollowTheMap : Obligations.RegisterReadsFollowTheMap := by
  intro s off rest p hb hi hp hoff
  obtain ⟨r, rfl⟩ := mem_registerMap hp
  exact step_read_register s off rest r hb hi hoff

/-- The number two fields make, the right one in the low bits. -/
theorem toNat_append_eq {n m : Nat} (x : BitVec n) (y : BitVec m) :
    (x ++ y).toNat = x.toNat * 2 ^ m + y.toNat := by
  rw [BitVec.toNat_append, ← Nat.shiftLeft_add_eq_or_of_lt y.isLt, Nat.shiftLeft_eq]

/-- Settles O19: STATUS is its fields one after another, each as wide as 10_state.md R27 says. -/
theorem statusWordLayout : Obligations.StatusWordLayout := by
  refine ⟨fun s => ?_, ⟨rfl, rfl, rfl⟩, rfl, rfl, rfl, rfl, rfl, rfl, rfl, rfl⟩
  simp only [statusWord, toNat_append_eq, BitVec.toNat_ofBool, BitVec.toNat_ofNat]
  ring

/-- While BUSY = 0 and reset is not asserted a write at a register's word is that register's
(10_state.md R22). -/
theorem writeCurrent_register (s : State) (r : Reg) (v : Word) (h : s.resetHeld = false) :
    writeCurrent s r.offset v = writeReg s v r := by
  simp [writeCurrent, regionOf_registers _ _ r.offset_lt, h]

theorem step_write_register (s : State) (off : Offset) (v : Word) (rest : List HostEvent) (r : Reg)
    (hb : s.busy = false) (hheld : s.resetHeld = false) (hi : s.inputs = .wr off v :: rest)
    (hoff : off.toNat / 4 * 4 = r.offset) : step s = .next (writeReg { s with inputs := rest } v r) := by
  rw [step_write_idle s off v rest hb hi, (wordOffset_eq off).trans hoff,
    writeCurrent_register { s with inputs := rest } r v hheld]

theorem Reg.offset_of_at? {a : Nat} {r : Reg} (h : Reg.at? a = some r) : r.offset = a := by
  simpa using List.find?_some h

/-- A register that is neither CMD nor one of the four that store ignores a write (10_state.md R23). -/
theorem writeReg_of_readOnly (s : State) (v : Word) (r : Reg)
    (h : r.offset ∉ [0x00C, 0x020, 0x024, 0x028, 0x054]) : writeReg s v r = s := by
  cases r with
  | cmd | cfgBatch | cfgRate | cfgMaxf | lag => exact absurd h (by decide)
  | _ => rfl

theorem writeCurrent_of_readOnly (s : State) (a : Nat) (v : Word) (ha : a < 0x1000)
    (h : a ∉ [0x00C, 0x020, 0x024, 0x028, 0x054]) : writeCurrent s a v = s := by
  cases hheld : s.resetHeld with
  | true => exact writeCurrent_held s a v ha hheld
  | false =>
    cases hr : Reg.at? a with
    | none => simp [writeCurrent, regionOf_registers _ a ha, hr]
    | some r =>
      obtain rfl := Reg.offset_of_at? hr
      rw [writeCurrent_register s r v hheld, writeReg_of_readOnly s v r h]

/-- Settles O20: four registers store, CMD issues, and no other word of the block takes a write. -/
theorem registerWritesFollowTheMap : Obligations.RegisterWritesFollowTheMap := by
  intro s off v rest hb hheld hi
  refine ⟨fun hoff => ?_, fun hoff => ?_, fun hoff => ?_, fun hoff => ?_, fun hlt hne => ?_⟩
  · exact step_write_register s off v rest .cfgBatch hb hheld hi hoff
  · exact step_write_register s off v rest .cfgRate hb hheld hi hoff
  · exact step_write_register s off v rest .cfgMaxf hb hheld hi hoff
  · exact step_write_register s off v rest .lag hb hheld hi hoff
  · rw [step_write_idle s off v rest hb hi, wordOffset_eq, writeCurrent_of_readOnly _ _ v hlt hne]

/-! ## The SAMPLE and CURVE windows -/

/-- A write at a word of a window the host may write stores it (20_memory.md R63 and R64). -/
theorem writeCurrent_of_stored (s : State) (a : Nat) (v : Word)
    (h : regionOf s.maxBatch.toNat a ∈ [Region.sample, .packed, .curve]) :
    writeCurrent s a v = s.setRam (Memory.writeWord s.ram a v) := by
  unfold writeCurrent
  cases hr : regionOf s.maxBatch.toNat a with
  | registers | shift | reserved => simp [hr] at h
  | sample | packed | curve => rfl

theorem regionOf_sampleOffset (cap i : Nat) (hi : i < cap) : regionOf cap (sampleOffset i) = .sample :=
  regionOf_sample cap i 0 hi (by decide)

theorem regionOf_curveOffset (cap i : Nat) (hc : cap ≤ 65536) (hi : i < cap / 2) :
    regionOf cap (curveOffset i) = .curve :=
  regionOf_curve cap i 0 hc hi (by decide)

/-- Settles O21: the word of an entry's offset is the entry, in one of the windows that store. -/
theorem sampleAndCurveWindows : Obligations.SampleAndCurveWindows := by
  intro s off i v rest hc hb
  obtain ⟨_, hcap, _⟩ := (legalMaxBatch_iff _).1 hc
  refine ⟨fun hlt hoff => ?_, fun hlt hoff => ?_⟩
  · have hw : wordOffset off = sampleOffset i :=
      wordOffset_of_aligned off _ hoff (by unfold sampleOffset sampleBase; omega)
    have hr := regionOf_sampleOffset s.maxBatch.toNat i hlt
    refine ⟨fun hi => ?_, fun hi => ?_⟩
    · rw [step_read_idle s off rest hb hi, hw,
        currentWord_of_inWindow s _ (inWindow_of_region _ _ (by simp [hr]))]
      rfl
    · rw [step_write_idle s off v rest hb hi, hw,
        writeCurrent_of_stored { s with inputs := rest } _ v (by simp [hr])]
      exact ⟨_, rfl, rfl, Memory.readWord_writeWord _ _ v, fun a ha => Memory.read_writeWord_outside _ _ a v ha⟩
  · have hw : wordOffset off = curveOffset i :=
      wordOffset_of_aligned off _ hoff (by unfold curveOffset curveBase; omega)
    have hr := regionOf_curveOffset s.maxBatch.toNat i hcap hlt
    refine ⟨fun hi => ⟨Memory.readWord s.ram (curveOffset i), ?_, rfl⟩, fun hi => ?_⟩
    · rw [step_read_idle s off rest hb hi, hw,
        currentWord_of_inWindow s _ (inWindow_of_region _ _ (by simp [hr]))]
    · rw [step_write_idle s off v rest hb hi, hw,
        writeCurrent_of_stored { s with inputs := rest } _ v (by simp [hr])]
      exact ⟨_, rfl, rfl, congrArg BitVec.toNat (Memory.readWord_writeWord _ _ v),
        fun a ha => Memory.read_writeWord_outside _ _ a v ha⟩

/-! ## The word of the address map -/

/-- The value 20_memory.md R62 to R66 gives a word is the one the port reads. -/
theorem currentWord_of_mapWord {s : State} {a : Nat} {w : Word}
    (hc : Config.legalMaxBatch s.maxBatch.toNat = true) (h : MapWord s a w) : currentWord s a = w := by
  obtain ⟨_, hcap, _⟩ := (legalMaxBatch_iff _).1 hc
  rcases h with h | ⟨i, hi, rfl, rfl⟩ | ⟨m, hm, rfl, rfl⟩ | ⟨v, m, hv, hm, rfl, rfl⟩ | ⟨i, hi, rfl, hw⟩ |
    ⟨hres, rfl⟩
  · obtain ⟨r, he⟩ := mem_registerMap h
    obtain ⟨rfl, rfl⟩ := Prod.mk.injEq .. ▸ he
    exact currentWord_offset s r
  · exact currentWord_of_inWindow s _
      (inWindow_of_region _ _ (by rw [← sampleBase, ← sampleOffset, regionOf_sampleOffset _ i hi]; decide))
  · exact currentWord_of_inWindow s _ (inWindow_of_region _ _ (by
      rw [← packedBase, regionOf_packedWord _ m hc hm]; decide))
  · exact currentWord_of_inWindow s _ (inWindow_of_region _ _ (by
      rw [← viewBase, regionOf_shiftWord _ v m hc hv hm]; decide))
  · refine (currentWord_of_inWindow s _ (inWindow_of_region _ _ (by
      rw [← curveBase, ← curveOffset, regionOf_curveOffset _ i hcap hi]; decide))).trans ?_
    exact (BitVec.eq_of_toNat_eq hw).symm
  · exact currentWord_reservedOffset s a hc hres

/-- An aligned word above the register block that is not reserved lies in one of the windows, and has its
value there. -/
theorem exists_mapWord_of_window (s : State) (a : Nat) (ha : a % 4 = 0) (hmul : s.maxBatch.toNat % 32 = 0)
    (hge : 0x1000 ≤ a) (hres : ¬ReservedOffset s.maxBatch.toNat a) : ∃ w, MapWord s a w := by
  by_cases hsample : 0x40000 ≤ a ∧ a < 0x40000 + 4 * s.maxBatch.toNat
  · exact ⟨_, .inr (.inl ⟨(a - 0x40000) / 4, by omega, by omega, rfl⟩)⟩
  by_cases hpacked : 0x80000 ≤ a ∧ a < 0x80000 + s.maxBatch.toNat / 8
  · exact ⟨_, .inr (.inr (.inl ⟨(a - 0x80000) / 4, by omega, by omega, rfl⟩))⟩
  by_cases hshift : ∃ v, v < 8 ∧ 0x90000 + 0x2000 * v ≤ a ∧ a < 0x90000 + 0x2000 * v + s.maxBatch.toNat / 8
  · obtain ⟨v, hv, hlo, hhi⟩ := hshift
    exact ⟨_, .inr (.inr (.inr (.inl ⟨v, (a - (0x90000 + 0x2000 * v)) / 4, hv, by omega, by omega, rfl⟩)))⟩
  by_cases hcurve : 0xA0000 ≤ a ∧ a < 0xA0000 + 2 * s.maxBatch.toNat
  · exact ⟨Memory.readWord s.ram (curveOffset ((a - 0xA0000) / 4)),
      .inr (.inr (.inr (.inr (.inl ⟨(a - 0xA0000) / 4, by omega, by omega, rfl⟩))))⟩
  · exact absurd (.inr ⟨hge, hsample, hpacked, fun v hv hin => hshift ⟨v, hv, hin⟩, hcurve⟩) hres

/-- Every word of the address map has a value (20_memory.md R62 and R66). -/
theorem exists_mapWord (s : State) (a : Nat) (ha : a % 4 = 0)
    (hc : Config.legalMaxBatch s.maxBatch.toNat = true) : ∃ w, MapWord s a w := by
  obtain ⟨_, _, hmul⟩ := (legalMaxBatch_iff _).1 hc
  by_cases hres : ReservedOffset s.maxBatch.toNat a
  · exact ⟨0#32, .inr (.inr (.inr (.inr (.inr ⟨hres, rfl⟩))))⟩
  rcases Nat.lt_or_ge a 0x1000 with hlt | hge
  · obtain ⟨r, _, hr⟩ := List.mem_map.1 (not_not.1 fun hn => hres (.inl ⟨hlt, hn⟩))
    refine ⟨readReg s r, .inl ?_⟩
    rw [registerMap_eq_map, ← hr]
    exact List.mem_map_of_mem r.mem_all
  · exact exists_mapWord_of_window s a ha hmul hge hres

/-! ## What the pending command writes -/

theorem inSpans_append (xs ys : List (Nat × Nat)) (a : Nat) :
    inSpans (xs ++ ys) a = (inSpans xs a || inSpans ys a) := List.any_append

theorem inSpans_packSpans (s : State) (a : Nat) :
    inSpans (packSpans s) a = true ↔ RowByte s.batch.toNat a .pack := by
  simp [inSpans, packSpans, RowByte, packedBase, activeB, activeN]

theorem inSpans_shiftSpans (s : State) (a : Nat) :
    inSpans (shiftSpans s) a = true ↔ RowByte s.batch.toNat a .shift := by
  simp [inSpans, shiftSpans, RowByte, viewBase, activeB, activeN]

theorem inSpans_corrSpans (s : State) (a : Nat) :
    inSpans (corrSpans s) a = true ↔ RowByte s.batch.toNat a .corr := by
  simp [inSpans, corrSpans, RowByte, curveBase, activeN2, activeN]

/-- The spans are the RAM bytes of the command's row (10_state.md R47). -/
theorem inSpans_writtenSpans (s : State) (i : Instr) (a : Nat) :
    inSpans (writtenSpans s i) a = true ↔ RowByte s.batch.toNat a i := by
  cases i with
  | nop | config | supply | clear | sreset | harm | pitch => simp [writtenSpans, inSpans, RowByte]
  | pack => exact inSpans_packSpans s a
  | shift => exact inSpans_shiftSpans s a
  | corr => exact inSpans_corrSpans s a
  | run =>
    rw [writtenSpans, inSpans_append, inSpans_append, Bool.or_eq_true, Bool.or_eq_true, inSpans_packSpans,
      inSpans_shiftSpans, inSpans_corrSpans, or_assoc]
    rfl

theorem noEdge_iff_firstCrossing (s : State) (lo : Nat) :
    firstCrossing (sampleAt s) lo (activeN s) = none ↔ NoEdge s lo := by
  simp only [firstCrossing_eq_none, ← Bool.not_eq_true, crossing_iff_crossAt]
  rfl

theorem NoEdge.not_firstEdge {s : State} {lo j : Nat} (h : NoEdge s lo) : ¬FirstEdge s lo j :=
  fun ⟨hlo, hlt, hcross, _⟩ => h j hlo hlt hcross

/-- How far PITCH gets, with the edges of R182 to R184 (45_pitch.md R180). -/
theorem pitchOf_cases (s : State) :
    (NoEdge s 1 ∧ pitchOf s = .noStart) ∨
      (∃ se, FirstEdge s 1 se ∧ pitchOf s = .noNext se) ∨
      (∃ se ne ls, pitchOf s = .degenerate se ne ls) ∨ (∃ se ne ls p, pitchOf s = .found se ne ls p) := by
  rcases refinePitch_cases (sampleAt s) (activeN s) s.lag.toNat s.rate.toNat with
    ⟨h, hp⟩ | ⟨se, h, _, hp⟩ | ⟨se, ne, _, _, _, hp⟩ | ⟨se, ne, _, _, _, hp⟩
  · exact .inl ⟨(noEdge_iff_firstCrossing s 1).1 h, hp⟩
  · exact .inr (.inl ⟨se, (firstCrossing_iff_firstEdge s 1 se).1 h, hp⟩)
  · exact .inr (.inr (.inl ⟨se, ne, _, hp⟩))
  · exact .inr (.inr (.inr ⟨se, ne, _, _, hp⟩))

/-- The registers PITCH writes as far as it gets are the words of its row for the code it ends with. -/
theorem pitchWord_iff (s : State) (a : Nat) :
    PitchWord s (pitchBody s).code a ↔ a ∈ (pitchRegs (pitchOf s)).map Reg.offset := by
  unfold pitchBody
  rcases pitchOf_cases s with ⟨hno, hp⟩ | ⟨se, hse, hp⟩ | ⟨se, ne, ls, hp⟩ | ⟨se, ne, ls, p, hp⟩ <;>
    rw [hp]
  · simpa [PitchWord, pitchRegs] using fun _ j => hno.not_firstEdge
  · simpa [PitchWord, pitchRegs, Reg.offset] using fun _ => ⟨se, hse⟩
  · simp [PitchWord, pitchRegs, Reg.offset]
  · simp [PitchWord, pitchRegs, Reg.offset]

/-- The start edge depends on the samples of the batch alone. -/
theorem firstEdge_congr {s t : State} (hb : t.batch = s.batch) (hn : s.batch.toNat ≤ 65536)
    (hs : ∀ k, k < 65536 → sampleAt t k = sampleAt s k) (lo j : Nat) :
    FirstEdge t lo j ↔ FirstEdge s lo j := by
  have hcross : ∀ k, k < s.batch.toNat → (CrossAt t k ↔ CrossAt s k) := fun k hk => by
    rw [CrossAt, CrossAt, hs k (by omega), hs (k - 1) (by omega)]
  rw [FirstEdge, FirstEdge, hb]
  exact and_congr_right fun _ => and_congr_right fun hj => and_congr (hcross j hj)
    (forall₃_congr fun k _ hk => not_congr (hcross k (hk.trans hj)))

theorem pitchWord_congr {s t : State} (hedge : ∀ j, FirstEdge t 1 j ↔ FirstEdge s 1 j) (e : ErrCode) (a : Nat) :
    PitchWord t e a ↔ PitchWord s e a := by
  simp only [PitchWord, hedge]

/-- RUN leaves the samples alone, and PITCH finds the same start edge after it. -/
theorem firstEdge_harmCorrected_runCorrelated (s : State) (hn : s.batch.toNat ≤ 65536) (j : Nat) :
    FirstEdge (harmCorrected (runCorrelated s)) 1 j ↔ FirstEdge s 1 j := by
  obtain ⟨_, _, _, _, hharm⟩ := harmCorrected_frame (runCorrelated s)
  obtain ⟨m, hcorr⟩ := runCorrelated_frame s
  have hread := read_runCorrelated_outside s
  rw [hcorr] at hread
  have hbatch : (harmCorrected (runCorrelated s)).batch = s.batch := by rw [hharm, hcorr]; rfl
  have hram : (harmCorrected (runCorrelated s)).ram = m := by rw [hharm, hcorr]; rfl
  refine firstEdge_congr hbatch hn (fun k hk => sampleAt_eq_of_read_eq s _ k hk fun a ha => ?_) 1 j
  rw [hram]
  exact hread a (not_rowByte_of_lt _ a .run ha)

theorem runRegs_of_minPeriod_zero (s : State) (h : s.minPeriod.toNat = 0) :
    runRegs s = [.globalMax, .bestValue, .bestLag] := by
  have hc := (congrArg BitVec.toNat (runCorrelated_minPeriod s)).trans h
  simp [runRegs, harmRegs, runToCurve_eq_complete, harmBody_of_minPeriod_zero _ hc, h]

theorem runRegs_of_minPeriod_pos (s : State) (h : s.minPeriod.toNat ≠ 0) :
    runRegs s =
      [.globalMax, .bestValue, .bestLag, .lag] ++ pitchRegs (pitchOf (harmCorrected (runCorrelated s))) := by
  have hc : (runCorrelated s).minPeriod.toNat ≠ 0 := by rwa [runCorrelated_minPeriod]
  simp [runRegs, harmRegs, runToCurve_eq_complete, harmBody_of_minPeriod_pos _ hc, h]

theorem rowWord_run_iff (s : State) (hn : s.batch.toNat ≤ 65536) (a : Nat) :
    RowWord s (runBody s).code a .run ↔ a ∈ (runRegs s).map Reg.offset := by
  by_cases h : s.minPeriod.toNat = 0
  · rw [runBody_of_minPeriod_zero s h, runRegs_of_minPeriod_zero s h]
    simp [RowWord, h, Reg.offset]
  · have hword := (pitchWord_congr (firstEdge_harmCorrected_runCorrelated s hn) _ a).symm.trans
      (pitchWord_iff (harmCorrected (runCorrelated s)) a)
    rw [runBody_of_minPeriod_pos s h, runRegs_of_minPeriod_pos s h, RowWord, List.map_append, List.mem_append,
      ← hword]
    simp [Nat.one_le_iff_ne_zero, h, Reg.offset, or_assoc]

/-- In a STATE that admits the command, the registers it writes are the words of its row for the code it
ends with (10_state.md R47). -/
theorem rowWord_iff (s : State) (hn : s.batch.toNat ≤ 65536) (i : Instr) (a : Nat) :
    RowWord s (bodyOf i s).code a i ↔ a ∈ (writtenRegs s i).map Reg.offset := by
  cases i with
  | nop | clear | pack | shift | corr => simp [RowWord, writtenRegs]
  | sreset => rfl
  | config =>
    rw [bodyOf, writtenRegs]
    rcases configBody_cases s with ⟨e, hv, hb⟩ | ⟨_, _, _, hb⟩ <;> rw [hb]
    · simp [RowWord, validate_error_ne_ok hv]
    · simp [RowWord, supplyRegs, Reg.offset]; tauto
  | supply len =>
    rw [bodyOf, writtenRegs]
    rcases supplyBody_cases len s with ⟨e, hv, hb⟩ | ⟨_, _, _, hb⟩ <;> rw [hb]
    · simp [RowWord, validate_error_ne_ok hv]
    · simp [RowWord, supplyRegs, Reg.offset]
  | harm =>
    rw [bodyOf, writtenRegs, harmRegs]
    rcases harmBody_cases s _ rfl with ⟨h, hb⟩ | ⟨h, hb⟩ <;> rw [hb]
    · simp [RowWord, h, Reg.offset]
    · simp [RowWord, h, Reg.offset, or_assoc]
  | pitch => exact pitchWord_iff s a
  | run => exact rowWord_run_iff s hn a

theorem pendingCommand?_eq_some (s : State) (i : Instr) :
    pendingCommand? s = some i ↔ decode s.pend = .ok i ∧ s.det ∈ precondition i := by
  unfold pendingCommand?
  cases hd : decode s.pend with
  | error e => simp
  | ok j =>
    by_cases hadm : s.det ∈ precondition j
    · simp only [if_pos hadm, Option.some.injEq, Except.ok.injEq]
      exact ⟨fun h => ⟨h, h ▸ hadm⟩, And.left⟩
    · simp only [if_neg hadm, Except.ok.injEq, reduceCtorEq, false_iff]
      rintro ⟨rfl, hi⟩
      exact hadm hi

/-- What the port takes the pending command to write is what its completion writes (20_memory.md R72). -/
theorem pendingWrites_iff_completionWrites (s : State) (hn : s.batch.toNat ≤ 65536) (a : Nat) :
    pendingWrites s a = true ↔ CompletionWrites s a := by
  have hword (i : Instr) (hadm : s.det ∈ precondition i) :
      RowWord s (runCommand i (bodyOf i) s).errCode a i ↔ ∃ r ∈ writtenRegs s i, r.offset = a := by
    rw [runCommand_admitted i _ s hadm, ← List.mem_map]
    exact rowWord_iff s hn i a
  simp only [pendingWrites_iff, pendingCommand?_eq_some, CompletionWrites, exec_next_iff, inSpans_writtenSpans]
  constructor
  · rintro ⟨i, ⟨hd, hadm⟩, h⟩
    exact ⟨i, _, hd, hadm, rfl, h.imp_left (hword i hadm).2⟩
  · rintro ⟨i, t, hd, hadm, rfl, h⟩
    exact ⟨i, ⟨hd, hadm⟩, h.imp_left (hword i hadm).1⟩

/-- What a completion writes does not depend on the host (log entries 1 and 2). -/
theorem completionWrites_withHost (s : State) (ins : List HostEvent) (rds : List Word) (d n a : Nat) :
    CompletionWrites (s.withHost ins rds d n) a ↔ CompletionWrites s a := by
  simp only [CompletionWrites, exec_next_iff, runCommand_withHost]
  constructor
  · rintro ⟨i, t, hd, hadm, rfl, h⟩
    exact ⟨i, _, hd, hadm, rfl, h⟩
  · rintro ⟨i, t, hd, hadm, rfl, h⟩
    exact ⟨i, _, hd, hadm, rfl, h⟩

/-- Settles O26: a read during BUSY draws a word exactly where the pending command's row has the word, and
returns the map's value elsewhere. -/
theorem readDuringBusy : Obligations.ReadDuringBusy := by
  intro s off rest hs hb hm
  obtain ⟨_, hcap, _⟩ := (legalMaxBatch_iff _).1 hs.capacity
  have hwrites : pendingWrites (s.afterEvent rest) (wordOffset off) = true ↔
      CompletionWrites s (off.toNat / 4 * 4) := by
    rw [← wordOffset_eq]
    exact (pendingWrites_iff_completionWrites (s.afterEvent rest) (hs.batch_le.trans hcap) _).trans
      (completionWrites_withHost s rest s.reads _ s.draws _)
  refine ⟨fun hw => ?_, fun hw w hmap => ?_, exists_mapWord s _ (by omega) hs.capacity, fun hoff => ?_⟩
  · rw [step_read s off rest hm]
    rcases portRead_cases (s.afterEvent rest) off with ⟨_, hr⟩ | ⟨hp, _⟩
    · exact ⟨_, by rw [hr]; rfl⟩
    · rw [hwrites.2 hw, Bool.and_true] at hp
      exact absurd (hp.symm.trans hb) Bool.false_ne_true
  · rw [step_read_current s off rest hm (by rw [Bool.eq_false_iff.2 (mt hwrites.1 hw), Bool.and_false]),
      wordOffset_eq, currentWord_of_mapWord hs.capacity hmap]
  · exact step_read_low_register s off rest .status hm (by decide) hoff

end Sys2Proof.Machine


/-! PROOFS. CORR's sums (43_correlation.md R151) and PITCH's endings (45_pitch.md R180 to R189). -/

namespace Sys2Proof.Machine

/-! ## CORR -/

/-- Settles O37: CURVE[i] is the sum of its lanes, and CORR stores nothing outside the curve. -/
theorem corrSumsThePopcounts : Obligations.CorrSumsThePopcounts := fun s hd =>
  ⟨_, exec_corr_of_configured s hd, rfl, curveAt_after_corr s, read_corrRam_outside s⟩

/-! ## PITCH -/

theorem pitchOf_of_noStart {s : State} (h : NoEdge s 1) : pitchOf s = .noStart := by
  rw [pitchOf, refinePitch, (noEdge_iff_firstCrossing s 1).2 h]

theorem pitchOf_of_noNext {s : State} {se j0 : Nat} (hse : FirstEdge s 1 se) (hj0 : SecondStart s j0)
    (h : NoEdge s j0) : pitchOf s = .noNext se := by
  rw [hj0.eq_scanStart] at h
  rw [pitchOf, refinePitch, (firstCrossing_iff_firstEdge s 1 se).2 hse]
  simp only [(noEdge_iff_firstCrossing s _).2 h]

/-- Settles O47: with lagSamples above 0 the refiner finds the pitch. -/
theorem pitchRefinesBetweenTheEdges : Obligations.PitchRefinesBetweenTheEdges := by
  intro s se ne j0 x1 x2 ls hd hse hj0 hne hx1 hx2 hls hlt
  have hlag : ls = lagSamples (sampleAt s) se ne := by rw [hls, hx1, hx2]; rfl
  rw [exec_pitch_of_ready s hd, pitchOf_of_edges hse hj0 hne, ← hlag, if_pos hlt, storePitch_found,
    finish_complete]
  simp only [State.setStartEdge, State.setNextEdge, State.setLagSamp, State.setPitch, State.setPitchValid, State.retire]

/-- Settles O48: the three endings of the refiner short of a pitch. -/
theorem pitchFailuresKeepThePitch : Obligations.PitchFailuresKeepThePitch := by
  refine ⟨rfl, fun s hd => ⟨fun hno => ?_, fun se j0 hse hj0 => ⟨fun hno => ?_, fun ne ls hne hls hlt => ?_⟩⟩⟩
  · rw [exec_pitch_of_ready s hd, pitchOf_of_noStart hno]
    rfl
  · rw [exec_pitch_of_ready s hd, pitchOf_of_noNext hse hj0 hno]
    rfl
  · rw [exec_pitch_of_ready s hd, pitchOf_of_edges hse hj0 hne, ← hls, if_neg (by rw [hlt]; decide),
      storePitch_degenerate, finish_raise]
    simp only [State.setStartEdge, State.setNextEdge, State.setLagSamp, State.setPitchValid, State.retire]

/-- Storing an answer of the refiner again, after the outcome is written, changes nothing, whatever PITCH_VALID
was in between. -/
theorem storePitch_again (s : State) (r : PitchResult) (op : Byte) (b : Bool) :
    finish op (((finish op (s.storePitch r)).setPitchValid b).storePitch r) = finish op (s.storePitch r) := by
  cases r <;>
    simp only [storePitch_noStart, storePitch_noNext, storePitch_degenerate, storePitch_found, finish_raise,
      finish_complete, State.setStartEdge, State.setNextEdge, State.setLagSamp, State.setPitch,
      State.setPitchValid, State.retire]

theorem finish_eq_retire (op : Byte) (r : Ending) : finish op r = r.state.retire op r.code := rfl

/-- What PITCH reads is not what it writes (45_pitch.md R189). -/
theorem pitchOf_finish_storePitch (s : State) (r : PitchResult) (op : Byte) (b : Bool) :
    pitchOf ((finish op (s.storePitch r)).setPitchValid b) = pitchOf s := by
  obtain ⟨_, _, _, _, _, _, _, h⟩ := storePitch_frame s r
  rw [finish_eq_retire, h]
  exact pitchOf_congr s _ rfl rfl rfl rfl

theorem det_finish_storePitch (s : State) (r : PitchResult) (op : Byte) :
    (finish op (s.storePitch r)).det = s.det := by
  obtain ⟨_, _, _, _, _, _, _, h⟩ := storePitch_frame s r
  rw [finish_eq_retire, h]
  rfl

/-- A refused command changes nothing when it is refused again. -/
theorem exec_again_of_refused (i : Instr) (s : State) (h : s.det ∉ precondition i) :
    exec i (runCommand i (bodyOf i) s) = .next (runCommand i (bodyOf i) s) := by
  rw [runCommand_notReady i _ s h]
  exact exec_of_refused i (s.retire (opcode i) .notReady) h

/-- Settles O51: the second PITCH reads what the first read, and stores what the first stored. -/
theorem pitchIsIdempotent : Obligations.PitchIsIdempotent := by
  intro s t h
  obtain rfl := (exec_next_iff .pitch s t).1 h
  by_cases hd : s.det = .ready
  · have hrun : runCommand .pitch (bodyOf .pitch) s = finish 0x14#8 (s.storePitch (pitchOf s)) :=
      ((exec_next_iff .pitch s _).1 (exec_pitch_of_ready s hd)).symm
    have hagain := storePitch_again s (pitchOf s) 0x14#8 (finish 0x14#8 (s.storePitch (pitchOf s))).pitchValid
    have hpitch : pitchOf (finish 0x14#8 (s.storePitch (pitchOf s))) = pitchOf s :=
      pitchOf_finish_storePitch s (pitchOf s) 0x14#8 (finish 0x14#8 (s.storePitch (pitchOf s))).pitchValid
    rw [hrun, exec_pitch_of_ready _ ((det_finish_storePitch s _ _).trans hd), hpitch]
    exact congrArg Host.Outcome.next hagain
  · exact exec_again_of_refused .pitch s (by simpa [precondition] using hd)

end Sys2Proof.Machine


/-! PROOFS. RAM after RUN's first three stages (46_detector.md R206): it holds the sign bits, their views and the
curve, and storing them again changes nothing. -/

namespace Sys2Proof.Machine

/-! ## RAM that holds a run of bytes -/

/-- The bytes `vs` have been written at `a` and stand there (log entry 4). -/
def Memory.Holds (m : Memory) (a : Nat) (vs : List Byte) : Prop :=
  ∀ k, (h : k < vs.length) → Memory.written? m (a + k) = some vs[k]

theorem Memory.holds_cons (m : Memory) (a : Nat) (v : Byte) (vs : List Byte) :
    m.Holds a (v :: vs) ↔ Memory.written? m a = some v ∧ m.Holds (a + 1) vs := by
  have hshift (k : Nat) : a + 1 + k = a + (k + 1) := by omega
  constructor
  · intro h
    refine ⟨h 0 (Nat.succ_pos _), fun k hk => ?_⟩
    rw [hshift]
    exact h (k + 1) (Nat.succ_lt_succ hk)
  · rintro ⟨hv, hvs⟩ k hk
    cases k with
    | zero => exact hv
    | succ k =>
      rw [← hshift]
      exact hvs k (Nat.lt_of_succ_lt_succ hk)

theorem Memory.written?_writeBytes_outside (vs : List Byte) (m : Memory) (a x : Nat)
    (h : x < a ∨ a + vs.length ≤ x) : Memory.written? (Memory.writeBytes m a vs) x = Memory.written? m x := by
  induction vs generalizing m a with
  | nil => rfl
  | cons v vs ih =>
    rw [List.length_cons] at h
    rw [Memory.writeBytes, ih _ _ (by omega), Memory.written?_set, if_neg (by omega)]

theorem Memory.holds_writeBytes (vs : List Byte) (m : Memory) (a : Nat) :
    (Memory.writeBytes m a vs).Holds a vs := by
  induction vs generalizing m a with
  | nil => exact fun k h => absurd h (Nat.not_lt_zero k)
  | cons v vs ih =>
    rw [Memory.writeBytes, Memory.holds_cons, Memory.written?_writeBytes_outside _ _ _ _ (.inl (by omega)),
      Memory.written?_set, if_pos rfl]
    exact ⟨rfl, ih _ _⟩

/-- A run of bytes outlives a store beside it. -/
theorem Memory.Holds.writeBytes {m : Memory} {a : Nat} {vs : List Byte} (h : m.Holds a vs) (b : Nat)
    (ws : List Byte) (hapart : a + vs.length ≤ b ∨ b + ws.length ≤ a) : (Memory.writeBytes m b ws).Holds a vs := by
  intro k hk
  rw [Memory.written?_writeBytes_outside _ _ _ _ (by omega)]
  exact h k hk

theorem Memory.Holds.read {m : Memory} {a : Nat} {vs : List Byte} (h : m.Holds a vs) (k : Nat)
    (hk : k < vs.length) : Memory.read m (a + k) = vs[k] := by
  rw [Memory.read, h k hk]
  rfl

theorem Memory.Holds.readBytes {m : Memory} {a : Nat} {vs : List Byte} (h : m.Holds a vs) :
    Memory.readBytes m a vs.length = vs := by
  refine List.ext_getElem (Memory.readBytes_length _ _ _) fun k _ hk => ?_
  rw [Memory.readBytes_getElem, h.read k hk]

theorem Memory.le_of_written? {m : Memory} {lo a : Nat} {v : Byte} (hm : Memory.risingFrom lo m = true)
    (h : Memory.written? m a = some v) : lo ≤ a := by
  induction m generalizing lo with
  | nil => cases h
  | cons c rest ih =>
    obtain ⟨b, w⟩ := c
    simp only [Memory.risingFrom, Bool.and_eq_true, decide_eq_true_eq] at hm
    obtain ⟨hlo, hrest⟩ := hm
    rw [Memory.written?_cons] at h
    split at h
    · omega
    · have := ih hrest h
      omega

/-- In canonical form a byte is listed once, so storing it again changes nothing. -/
theorem Memory.set_of_written? {m : Memory} {lo a : Nat} {v : Byte} (hm : Memory.risingFrom lo m = true)
    (h : Memory.written? m a = some v) : Memory.set m a v = m := by
  induction m generalizing lo with
  | nil => cases h
  | cons c rest ih =>
    obtain ⟨b, w⟩ := c
    simp only [Memory.risingFrom, Bool.and_eq_true, decide_eq_true_eq] at hm
    obtain ⟨_, hrest⟩ := hm
    rw [Memory.written?_cons] at h
    rw [Memory.set]
    by_cases hab : a = b
    · rw [if_pos hab] at h
      cases h
      rw [if_neg (by omega), if_pos hab, hab]
    · rw [if_neg hab] at h
      have := Memory.le_of_written? hrest h
      rw [if_neg (by omega), if_neg hab, ih hrest h]

theorem Memory.writeBytes_of_holds {m : Memory} (hm : Memory.wf m = true) (vs : List Byte) (a : Nat)
    (h : m.Holds a vs) : Memory.writeBytes m a vs = m := by
  induction vs generalizing a with
  | nil => rfl
  | cons v vs ih =>
    obtain ⟨hv, hvs⟩ := (Memory.holds_cons _ _ _ _).1 h
    rw [Memory.writeBytes, Memory.set_of_written? hm hv]
    exact ih (a + 1) hvs

/-! ## RAM that holds the views of a packed stream -/

theorem viewBase_add_le {v w n : Nat} (hn : n ≤ 0x2000) (h : v < w) : viewBase v + n ≤ viewBase w := by
  unfold viewBase
  omega

theorem holds_writeViews (m : Memory) (packed : List Byte) (n v : Nat) (hn : n ≤ 8)
    (hlen : packed.length ≤ 0x2000) (hv : v < n) :
    (writeViews m packed n).Holds (viewBase v) (arrayBitShift packed v) := by
  induction n with
  | zero => omega
  | succ n ih =>
    rw [writeViews_succ]
    rcases Nat.lt_succ_iff_lt_or_eq.1 hv with hlt | rfl
    · refine (ih (by omega) hlt).writeBytes _ _ (.inl ?_)
      rw [arrayBitShift_view_length _ v (by omega)]
      exact viewBase_add_le hlen hlt
    · exact Memory.holds_writeBytes _ _ _

/-- A run of bytes below the views outlives storing them. -/
theorem Memory.Holds.writeViews {m : Memory} {a : Nat} {vs : List Byte} (h : m.Holds a vs) (packed : List Byte)
    (n : Nat) (hbelow : a + vs.length ≤ viewBase 0) : (writeViews m packed n).Holds a vs := by
  induction n with
  | zero => exact h
  | succ n ih =>
    rw [writeViews_succ]
    refine ih.writeBytes _ _ (.inl (hbelow.trans ?_))
    unfold viewBase
    omega

theorem writeViews_of_holds {m : Memory} (hm : Memory.wf m = true) (packed : List Byte) (n : Nat)
    (h : ∀ v, v < n → m.Holds (viewBase v) (arrayBitShift packed v)) : writeViews m packed n = m := by
  induction n with
  | zero => rfl
  | succ n ih =>
    rw [writeViews_succ, ih fun v hv => h v (by omega)]
    exact Memory.writeBytes_of_holds hm _ _ (h n (by omega))

/-! ## What RUN leaves in RAM -/

/-- PACKED as RUN stores it (41_bitpacker.md R131). -/
def runSigns (s : State) : List Byte := packSigns (sampleAt s) (activeB s)

/-- CURVE as RUN stores it (43_correlation.md R151). -/
def runCurve (s : State) : List Nat := correlate (runSigns s) (arrayBitShift (runSigns s)) (activeN2 s)

/-- A RAM that holds the stages' results for the samples of `s`: sign bits, views and curve. -/
structure HoldsPipeline (s : State) (m : Memory) : Prop where
  packed : m.Holds packedBase (runSigns s)
  views : ∀ v, v < 8 → m.Holds (viewBase v) (arrayBitShift (runSigns s) v)
  curve : m.Holds curveBase (curveBytes (runCurve s))

theorem runSigns_length (s : State) : (runSigns s).length = activeB s := packSigns_length _ _

/-- The bytes of the views that a lag reads are those of view i mod 8. -/
theorem correlate_congr (packed : List Byte) (view view' : Nat → List Byte) (n2 : Nat)
    (h : ∀ v, v < 8 → view v = view' v) : correlate packed view n2 = correlate packed view' n2 := by
  refine List.map_congr_left fun i _ => ?_
  rw [correlateLag, correlateLag, h (i % 8) (Nat.mod_lt i (by decide))]

/-- A state whose RAM holds the packed stream and its views reads them back. -/
theorem packedBytes_of_holds {s t : State} (hb : activeB t = activeB s)
    (h : t.ram.Holds packedBase (runSigns s)) : packedBytes t (activeB t) = runSigns s := by
  rw [packedBytes, hb, ← runSigns_length s]
  exact h.readBytes

theorem viewBytes_of_holds {s t : State} (hb : activeB t = activeB s) {v : Nat} (hv : v < 8)
    (h : t.ram.Holds (viewBase v) (arrayBitShift (runSigns s) v)) :
    viewBytes t (activeB t) v = arrayBitShift (runSigns s) v := by
  rw [viewBytes, hb, ← runSigns_length s, ← arrayBitShift_view_length (runSigns s) v hv]
  exact h.readBytes

/-- CORR's body in a state that holds the sign bits and their views stores their curve. -/
theorem corrRam_of_holds {s t : State} (hb : t.batch = s.batch) (hpacked : t.ram.Holds packedBase (runSigns s))
    (hviews : ∀ v, v < 8 → t.ram.Holds (viewBase v) (arrayBitShift (runSigns s) v)) :
    corrRam t = Memory.writeBytes t.ram curveBase (curveBytes (runCurve s)) := by
  have hB : activeB t = activeB s := by rw [activeB, activeB, activeN, activeN, hb]
  have hN2 : activeN2 t = activeN2 s := by rw [activeN2, activeN2, activeN, activeN, hb]
  rw [corrRam, packedBytes_of_holds hB hpacked, runCurve, hN2,
    correlate_congr _ _ _ _ fun v hv => viewBytes_of_holds hB hv (hviews v hv)]

/-- The sign bits depend on the samples of the batch alone. -/
theorem packByte_congr {f g : Nat → Word} {b : Nat} (h : ∀ i, i < 8 → f (8 * b + i) = g (8 * b + i)) :
    packByte f b = packByte g b :=
  List.foldl_ext _ _ _ fun _ i hi => by rw [h i (List.mem_range.1 hi)]

theorem runSigns_congr {s t : State} (hb : t.batch = s.batch) (hn : s.batch.toNat ≤ 65536)
    (hsamples : ∀ k, k < 65536 → sampleAt t k = sampleAt s k) : runSigns t = runSigns s := by
  have hB : activeB t = activeB s := by rw [activeB, activeB, activeN, activeN, hb]
  rw [runSigns, runSigns, hB]
  refine List.map_congr_left fun b hmem => packByte_congr fun i hi => hsamples _ ?_
  have hlt : b < s.batch.toNat / 8 := List.mem_range.1 hmem
  omega

section

variable (s : State) (hn : s.batch.toNat ≤ 65536)

include hn

theorem runSigns_length_le : (runSigns s).length ≤ 0x2000 := by
  rw [runSigns_length, activeB, activeN]
  omega

theorem packed_below_views : packedBase + (runSigns s).length ≤ viewBase 0 := by
  have := runSigns_length_le s hn
  unfold packedBase viewBase
  omega

theorem view_below_curve (v : Nat) (hv : v < 8) :
    viewBase v + (arrayBitShift (runSigns s) v).length ≤ curveBase := by
  have := runSigns_length_le s hn
  rw [arrayBitShift_view_length _ v hv]
  unfold viewBase curveBase
  omega

/-- Once SHIFT's body has run RAM holds the sign bits and their views. -/
theorem holds_runShifted :
    (runShifted s).ram.Holds packedBase (runSigns s) ∧
      ∀ v, v < 8 → (runShifted s).ram.Holds (viewBase v) (arrayBitShift (runSigns s) v) := by
  have hpacked : (packedRam s).Holds packedBase (runSigns s) := Memory.holds_writeBytes _ _ _
  have hread : packedBytes (runPacked s) (activeB (runPacked s)) = runSigns s := packedBytes_of_holds rfl hpacked
  have hram : (runShifted s).ram = writeViews (packedRam s) (runSigns s) 8 :=
    congrArg (writeViews (packedRam s) · 8) hread
  rw [hram]
  exact ⟨hpacked.writeViews _ 8 (packed_below_views s hn), fun v hv =>
    holds_writeViews _ _ 8 v le_rfl (runSigns_length_le s hn) hv⟩

theorem holdsPipeline_runCorrelated : HoldsPipeline s (runCorrelated s).ram := by
  obtain ⟨hpacked, hviews⟩ := holds_runShifted s hn
  have hram : (runCorrelated s).ram =
      Memory.writeBytes (runShifted s).ram curveBase (curveBytes (runCurve s)) :=
    corrRam_of_holds (t := runShifted s) rfl hpacked hviews
  rw [hram]
  refine ⟨hpacked.writeBytes _ _ (.inl ?_), fun v hv => (hviews v hv).writeBytes _ _
    (.inl (view_below_curve s hn v hv)), Memory.holds_writeBytes _ _ _⟩
  exact (packed_below_views s hn).trans (by decide)

/-- RUN's stores change nothing in a RAM that holds their results already. -/
theorem runCorrelated_ram_of_holds {t : State} (hb : t.batch = s.batch)
    (hsamples : ∀ k, k < 65536 → sampleAt t k = sampleAt s k) (hm : Memory.wf t.ram = true)
    (h : HoldsPipeline s t.ram) : (runCorrelated t).ram = t.ram := by
  have hB : activeB t = activeB s := by rw [activeB, activeB, activeN, activeN, hb]
  have hpacked : (runPacked t).ram = t.ram :=
    calc (runPacked t).ram = Memory.writeBytes t.ram packedBase (runSigns t) := rfl
      _ = t.ram := by
        rw [runSigns_congr hb hn hsamples]
        exact Memory.writeBytes_of_holds hm _ _ h.packed
  have hshifted : (runShifted t).ram = t.ram :=
    calc (runShifted t).ram
        = writeViews (runPacked t).ram (packedBytes (runPacked t) (activeB (runPacked t))) 8 := rfl
      _ = t.ram := by
        rw [packedBytes_of_holds (s := s) (t := runPacked t) hB (by rw [hpacked]; exact h.packed), hpacked]
        exact writeViews_of_holds hm _ 8 h.views
  calc (runCorrelated t).ram = corrRam (runShifted t) := rfl
    _ = Memory.writeBytes (runShifted t).ram curveBase (curveBytes (runCurve s)) :=
        corrRam_of_holds hb (by rw [hshifted]; exact h.packed) (by rw [hshifted]; exact h.views)
    _ = t.ram := by
        rw [hshifted]
        exact Memory.writeBytes_of_holds hm _ _ h.curve

end

/-- RUN leaves every sample as it was: its row lies above SAMPLE. -/
theorem sampleAt_of_runCorrelated_ram {s t : State} (ht : t.ram = (runCorrelated s).ram) (k : Nat)
    (hk : k < 65536) : sampleAt t k = sampleAt s k := by
  refine sampleAt_eq_of_read_eq s t k hk fun a ha => ?_
  rw [ht]
  exact read_runCorrelated_outside s a (not_rowByte_of_lt _ a .run ha)

/-! ## RUN repeated -/

/-- After RUN its first three stages change PITCH_VALID alone. -/
theorem runCorrelated_again {s t : State} (hs : Inv s) (ht : t.ram = (runCorrelated s).ram)
    (hb : t.batch = s.batch) : runCorrelated t = t.setPitchValid false := by
  obtain ⟨_, hcap, _⟩ := (legalMaxBatch_iff _).1 hs.capacity
  have hn : s.batch.toNat ≤ 65536 := hs.batch_le.trans hcap
  have hram : (runCorrelated t).ram = t.ram :=
    runCorrelated_ram_of_holds s hn hb (fun k hk => sampleAt_of_runCorrelated_ram ht k hk)
      (by rw [ht]; exact hs.fits.runCorrelated.form) (by rw [ht]; exact holdsPipeline_runCorrelated s hn)
  calc runCorrelated t = (t.setPitchValid false).setRam (runCorrelated t).ram := rfl
    _ = t.setPitchValid false := by rw [hram]; rfl

/-- HARM's registers, written again with the same answers after PITCH and the outcome, stay as they are. -/
theorem setBest_setCorrected_again (c : State) (h : HarmResult) (r : PitchResult) (op : Byte) (b : Bool) :
    let u := (c.setBest h.globalMax h.bestValue h.bestLag).setCorrected h.corrected
    let t := (finish op (u.storePitch r)).setPitchValid b
    (t.setBest h.globalMax h.bestValue h.bestLag).setCorrected h.corrected = t := by
  intro u t
  obtain ⟨_, _, _, _, _, _, _, hframe⟩ := storePitch_frame u r
  simp only [t, u, finish_eq_retire, hframe]
  cases h.corrected <;> rfl

end Sys2Proof.Machine


/-! PROOFS. RUN repeated, and RUN against its stage commands (46_detector.md R207 to R209). -/

namespace Sys2Proof.Machine

/-! ## RUN repeated -/

/-- RUN in READY, as one state function. -/
theorem exec_run_of_ready (s : State) (hd : s.det = .ready) : exec .run s = .next (finish 0x03#8 (runBody s)) := by
  have hadm : s.det ∈ precondition .run := by rw [hd]; decide
  rw [exec_eq_runCommand, runCommand_admitted _ _ s hadm]
  rfl

/-- Outside RAM and its own registers RUN leaves the state as it was. -/
theorem finish_runBody_frame (s : State) (op : Byte) :
    (finish op (runBody s)).ram = (runCorrelated s).ram ∧ (finish op (runBody s)).batch = s.batch ∧
      (finish op (runBody s)).minPeriod = s.minPeriod ∧ (finish op (runBody s)).det = s.det := by
  obtain ⟨m, g, bv, bl, l, se, ne, lsLo, lsHi, pLo, pHi, valid, hm, hb⟩ := runBody_frame s
  rw [finish_eq_retire, hb]
  exact ⟨hm, rfl, rfl, rfl⟩

/-- The analyzer's answer is the same in every state with RUN's curve and the configuration. -/
theorem harmResult_of_run {s t : State} (ht : t.ram = (runCorrelated s).ram) (hb : t.batch = s.batch)
    (hp : t.minPeriod = s.minPeriod) : harmResult (t.setPitchValid false) = harmResult (runCorrelated s) := by
  obtain ⟨m, hm⟩ := runCorrelated_frame s
  rw [hm] at ht ⊢
  exact harmResult_congr ((s.setPitchValid false).setRam m) (t.setPitchValid false) ht hb hp

/-- RUN stopped at HARM, once more. -/
theorem harmBest_again (s : State) (m : Memory) (h : HarmResult) (op : Byte) (e : ErrCode) :
    let t := (((s.setPitchValid false).setRam m).setBest h.globalMax h.bestValue h.bestLag).retire op e
    ((t.setPitchValid false).setBest h.globalMax h.bestValue h.bestLag).retire op e = t := by
  simp only [State.setRam, State.setBest, State.setPitchValid, State.retire]

theorem runBody_again (s t : State) (hs : Inv s) (h : t = finish 0x03#8 (runBody s)) :
    finish 0x03#8 (runBody t) = t := by
  obtain ⟨hram, hbatch, hmp, _⟩ := finish_runBody_frame s 0x03#8
  rw [← h] at hram hbatch hmp
  have hcorr := runCorrelated_again hs hram hbatch
  have hharm := harmResult_of_run hram hbatch hmp
  by_cases hzero : s.minPeriod.toNat = 0
  · have hzero' : t.minPeriod.toNat = 0 := by rw [hmp, hzero]
    rw [runBody_of_minPeriod_zero s hzero, finish_raise, harmBest] at h
    rw [runBody_of_minPeriod_zero t hzero', finish_raise, hcorr, harmBest, hharm]
    obtain ⟨m, hm⟩ := runCorrelated_frame s
    generalize harmResult (runCorrelated s) = r at h ⊢
    rw [hm] at h
    rw [h]
    exact harmBest_again s m r 0x03#8 .degenerateLag
  · have hpos' : t.minPeriod.toNat ≠ 0 := by rwa [hmp]
    rw [runBody_of_minPeriod_pos s hzero, pitchBody] at h
    have hcorrected : harmCorrected (t.setPitchValid false) = t.setPitchValid false := by
      rw [harmCorrected, harmBest, hharm, h]
      exact setBest_setCorrected_again (runCorrelated s) (harmResult (runCorrelated s)) _ _ _
    rw [runBody_of_minPeriod_pos t hpos', hcorr, hcorrected, pitchBody, h, pitchOf_finish_storePitch]
    exact storePitch_again _ _ _ _

/-- Settles O54: the second RUN reads the samples the first read and stores what the first stored. -/
theorem runIsIdempotent : Obligations.RunIsIdempotent := by
  intro s t hs h
  by_cases hd : s.det = .ready
  · rw [exec_run_of_ready s hd] at h
    have ht : t = finish 0x03#8 (runBody s) := by cases h; rfl
    obtain ⟨_, _, _, hdet⟩ := finish_runBody_frame s 0x03#8
    rw [exec_run_of_ready t (by rw [ht, hdet, hd]), runBody_again s t hs ht]
  · obtain rfl := (exec_next_iff .run s t).1 h
    exact exec_again_of_refused .run s (by simpa [precondition] using hd)

/-! ## RUN and its stage commands -/

/-- The state with the flags that the stage commands write and RUN's stages do not: PITCH_VALID, which RUN
clears at its start, and the outcome. -/
def State.flagged (s : State) (v : Bool) (op : Byte) (e : ErrCode) : State := (s.setPitchValid v).retire op e

section

variable (s : State) (v : Bool) (op : Byte) (e : ErrCode)

@[simp] theorem State.flagged_minPeriod : (s.flagged v op e).minPeriod = s.minPeriod := rfl

@[simp] theorem State.flagged_det : (s.flagged v op e).det = s.det := rfl

theorem harmResult_flagged : harmResult (s.flagged v op e) = harmResult s := harmResult_congr s _ rfl rfl rfl

theorem harmBest_flagged (op' : Byte) (e' : ErrCode) :
    (harmBest (s.flagged v op e)).retire op' e' = (harmBest s).flagged v op' e' := by
  rw [harmBest, harmBest, harmResult_flagged]
  simp only [State.flagged, State.setBest, State.setPitchValid, State.retire]

theorem harmCorrected_flagged (op' : Byte) (e' : ErrCode) :
    (harmCorrected (s.flagged v op e)).retire op' e' = (harmCorrected s).flagged v op' e' := by
  rw [harmCorrected, harmCorrected, harmBest, harmBest, harmResult_flagged]
  cases (harmResult s).corrected <;>
    simp only [State.setCorrected, State.setLag, State.flagged, State.setBest, State.setPitchValid, State.retire]

theorem pitchOf_flagged : pitchOf (s.flagged v op e) = pitchOf s := pitchOf_congr s _ rfl rfl rfl rfl

/-- Every ending of the refiner writes PITCH_VALID. -/
theorem finish_storePitch_flagged (r : PitchResult) (op' op'' : Byte) :
    finish op'' (s.storePitch r) = { finish op' ((s.flagged v op e).storePitch r) with lastOp := op'' } := by
  cases r <;>
    simp only [storePitch_noStart, storePitch_noNext, storePitch_degenerate, storePitch_found, finish_raise,
      finish_complete, State.flagged, State.setStartEdge, State.setNextEdge, State.setLagSamp, State.setPitch,
      State.setPitchValid, State.retire]

end

theorem shiftedRam_congr {s t : State} (hm : t.ram = s.ram) (hb : t.batch = s.batch) : shiftedRam t = shiftedRam s := by
  simp only [shiftedRam, packedBytes, activeB, activeN, hm, hb]

theorem viewBytes_congr {s t : State} (hm : t.ram = s.ram) (b : Nat) : viewBytes t b = viewBytes s b := by
  funext v
  rw [viewBytes, viewBytes, hm]

theorem corrRam_congr {s t : State} (hm : t.ram = s.ram) (hb : t.batch = s.batch) : corrRam t = corrRam s := by
  simp only [corrRam, packedBytes, viewBytes_congr hm, activeB, activeN2, activeN, hm, hb]

/-- Of two stage commands the second overwrites what the first wrote outside RAM. -/
theorem State.stage_stage (s : State) (m m' : Memory) (op op' : Byte) (e e' : ErrCode) :
    (((s.setRam m).retire op e).setRam m').retire op' e' = (s.setRam m').retire op' e' := rfl

/-- PACK, SHIFT and CORR one after another leave RUN's curve, and PITCH_VALID as it was. -/
theorem stages_of_ready (s : State) (hd : s.det = .ready) :
    ∃ s1 s2, exec .pack s = .next s1 ∧ exec .shift s1 = .next s2 ∧
      exec .corr s2 = .next ((runCorrelated s).flagged s.pitchValid 0x12#8 .ok) := by
  have hconf : s.det ≠ .unconf := by rw [hd]; exact Detector.noConfusion
  let s1 := (s.setRam (runPacked s).ram).retire 0x10#8 .ok
  let s2 := (s.setRam (runShifted s).ram).retire 0x11#8 .ok
  have hshift : shiftedRam s1 = (runShifted s).ram := shiftedRam_congr (s := runPacked s) rfl rfl
  have hcorr : corrRam s2 = (runCorrelated s).ram := corrRam_congr (s := runShifted s) rfl rfl
  refine ⟨s1, s2, exec_pack_of_ready s hd, ?_, ?_⟩
  · rw [exec_shift_of_configured s1 hconf, hshift, State.stage_stage]
  · obtain ⟨m, hm⟩ := runCorrelated_frame s
    rw [exec_corr_of_configured s2 hconf, hcorr, State.stage_stage, hm]
    rfl

/-- Settles O52: the stage commands leave what RUN's stages leave, but for the flags, and HARM and PITCH read
no flag. -/
theorem runIsTheStageSequence : Obligations.RunIsTheStageSequence := by
  intro s hd
  obtain ⟨s1, s2, hpack, hshift, hcorr⟩ := stages_of_ready s hd
  obtain ⟨m, hm⟩ := runCorrelated_frame s
  have hdet : (runCorrelated s).det = .ready := by rw [hm]; exact hd
  refine ⟨s1, s2, _, _, hpack, hshift, hcorr, exec_harm_of_configured _ ?_, ?_⟩
  · rw [State.flagged_det, hdet]
    exact Detector.noConfusion
  by_cases hzero : s.minPeriod.toNat = 0
  · have hzero' : ((runCorrelated s).flagged s.pitchValid 0x12#8 .ok).minPeriod.toNat = 0 := by
      rw [State.flagged_minPeriod, runCorrelated_minPeriod, hzero]
    rw [harmBody_of_minPeriod_zero _ hzero', finish_raise, harmBest_flagged, exec_run_of_ready s hd,
      runBody_of_minPeriod_zero s hzero, finish_raise]
    refine ⟨fun h => ErrCode.noConfusion h, fun _ => congrArg _ ?_⟩
    rw [harmBest, hm]
    simp only [State.flagged, State.setBest, State.setPitchValid, State.setRam, State.retire]
  · have hpos' : ((runCorrelated s).flagged s.pitchValid 0x12#8 .ok).minPeriod.toNat ≠ 0 := by
      rwa [State.flagged_minPeriod, runCorrelated_minPeriod]
    rw [harmBody_of_minPeriod_pos _ hpos', finish_complete, harmCorrected_flagged]
    refine ⟨fun _ => ⟨_, exec_pitch_of_ready _ ?_, ?_⟩, fun h => absurd rfl h⟩
    · obtain ⟨g, bv, bl, l, hharm⟩ := harmCorrected_frame (runCorrelated s)
      rw [State.flagged_det, hharm]
      exact hdet
    · rw [exec_run_of_ready s hd, runBody_of_minPeriod_pos s hzero, pitchBody, pitchOf_flagged,
        finish_storePitch_flagged _ s.pitchValid 0x13#8 .ok _ 0x14#8]

end Sys2Proof.Machine


/-! PROOFS. RUN as one function of the samples (46_detector.md R206, R207): the analyzer reads the curve below N2
and the refiner the samples below N, and RUN's stages leave the one and keep the other. -/

namespace Sys2Proof.Machine

/-! ## What the analyzer reads -/

section

variable {f g : Nat → Nat} {n2 : Nat} (h : ∀ i, i < n2 → f i = g i)

include h

theorem curveMax_congr : curveMax f n2 = curveMax g n2 := by
  induction n2 with
  | zero => rfl
  | succ n ih => rw [curveMax, curveMax, ih fun i hi => h i (by omega), h n (by omega)]

theorem argMin_congr {lo : Nat} (hlo : lo < n2) (n : Nat) (hn : lo + n ≤ n2) : argMin f lo n = argMin g lo n := by
  induction n with
  | zero => rfl
  | succ n ih =>
    have hbest : argMin g lo n < n2 := by
      rcases Nat.eq_zero_or_pos n with rfl | hpos
      · exact hlo
      · obtain ⟨⟨_, hlt⟩, _⟩ := argMin_spec g lo n hpos
        omega
    rw [argMin, argMin, ih (by omega), smallerAt, smallerAt, h _ hbest, h (lo + n) (by omega)]

theorem divisionPasses_congr {bl : Nat} (hpos : 0 < bl) (hbl : bl < n2) (top d : Nat) :
    divisionPasses f top bl d = divisionPasses g top bl d := by
  rw [Bool.eq_iff_iff, divisionPasses_iff, divisionPasses_iff]
  refine forall_congr' fun k => forall_congr' fun hk => forall_congr' fun hkd => ?_
  rw [h _ ((checkedIndex_lt hpos hk hkd).trans hbl)]

theorem acceptedDivision_congr {bl : Nat} (hpos : 0 < bl) (hbl : bl < n2) (top d : Nat) :
    acceptedDivision f top bl d = acceptedDivision g top bl d := by
  induction d with
  | zero => rfl
  | succ d ih => rw [acceptedDivision, acceptedDivision, ih, divisionPasses_congr h hpos hbl]

/-- The analyzer reads the curve below N2 alone (44_harmonic.md R161 to R165). -/
theorem analyzeCurve_congr {mp : Nat} (hmp : 1 ≤ mp) (hlt : mp < n2) : analyzeCurve f n2 mp = analyzeCurve g n2 mp := by
  obtain ⟨⟨hge, hbl⟩, _⟩ := argMin_spec g mp (n2 - mp) (by omega)
  rw [Nat.add_sub_of_le hlt.le] at hbl
  simp only [analyzeCurve, curveMax_congr h, argMin_congr h hlt (n2 - mp) (by omega), h _ hbl,
    acceptedDivision_congr h (show 0 < argMin g mp (n2 - mp) by omega) hbl]

end

/-! ## What the refiner reads -/

section

variable {f g : Nat → Word} {n : Nat} (h : ∀ k, k < n → f k = g k)

include h

theorem crossing_congr {j : Nat} (hj : j < n) : crossing f j = crossing g j := by
  rw [crossing, crossing, h j hj, h (j - 1) (by omega)]

theorem firstCrossing_congr (lo : Nat) : firstCrossing f lo n = firstCrossing g lo n := by
  refine Option.ext fun j => ?_
  rw [firstCrossing_eq_some, firstCrossing_eq_some]
  refine and_congr_right fun ⟨_, hj⟩ => ?_
  rw [crossing_congr h hj]
  refine and_congr_right fun _ => forall_congr' fun k => forall_congr' fun _ => forall_congr' fun hk => ?_
  rw [crossing_congr h (hk.trans hj)]

theorem lagSamples_congr {se ne : Nat} (hse : se < n) (hne : ne < n) : lagSamples f se ne = lagSamples g se ne := by
  rw [lagSamples, lagSamples, interpolate, interpolate, interpolate, interpolate, h se hse, h ne hne,
    h (se - 1) (by omega), h (ne - 1) (by omega)]

/-- The refiner reads the samples below N alone (45_pitch.md R182 to R186). -/
theorem refinePitch_congr (lag rate : Nat) : refinePitch f n lag rate = refinePitch g n lag rate := by
  rw [refinePitch, refinePitch, firstCrossing_congr h, firstCrossing_congr h]
  cases hse : firstCrossing g 1 n with
  | none => rfl
  | some se =>
    cases hne : firstCrossing g (scanStart lag) n with
    | none => rfl
    | some ne =>
      obtain ⟨⟨_, hse'⟩, _⟩ := (firstCrossing_eq_some _ _ _ _).1 hse
      obtain ⟨⟨_, hne'⟩, _⟩ := (firstCrossing_eq_some _ _ _ _).1 hne
      simp only [lagSamples_congr h hse' hne']

end

/-- A lag the analyzer corrects is an index of the curve and fits in LAG. -/
theorem corrected_lt (s : State) (hrange : s.minPeriod.toNat < s.batch.toNat / 2) (hmp : 1 ≤ s.minPeriod.toNat)
    {lag : Nat} (h : (harmResult s).corrected = some lag) : lag < 2 ^ 32 := by
  have hext := harmResult_extremes s hrange
  obtain ⟨d, _, hcorr⟩ := harmResult_corrected s hmp hext.minPeriod_le
  have hlag : lag = (harmResult s).bestLag / d := Option.some.inj (h.symm.trans hcorr)
  have := Nat.div_le_self (harmResult s).bestLag d
  have := hext.lag_lt
  have := s.batch.isLt
  omega

/-! ## RUN -/

section

variable (s : State) (hs : Inv s)

include hs

theorem Inv.batch_toNat_le : s.batch.toNat ≤ 65536 := by
  obtain ⟨_, hcap, _⟩ := (legalMaxBatch_iff _).1 hs.capacity
  exact hs.batch_le.trans hcap

/-- The curve RUN's stages leave, as a function of the sign bits. -/
theorem curveAt_of_run {t : State} (ht : t.ram = (runCorrelated s).ram) (hb : t.batch = s.batch) {i : Nat}
    (hi : i < s.batch.toNat / 2) : curveAt t i = correlateLag (runSigns s) (arrayBitShift (runSigns s)) i := by
  have hB : activeB t = activeB s := by rw [activeB, activeB, activeN, activeN, hb]
  have hholds := holdsPipeline_runCorrelated s (hs.batch_toNat_le s)
  rw [← ht] at hholds
  have hlen : i < (runCurve s).length := by rwa [runCurve, correlate_length]
  have hlag : correlateLag (runSigns s) (arrayBitShift (runSigns s)) i =
      correlateLag (packedBytes t (activeB t)) (viewBytes t (activeB t)) i := by
    rw [correlateLag, correlateLag, packedBytes_of_holds hB hholds.packed,
      viewBytes_of_holds hB (Nat.mod_lt i (by decide)) (hholds.views _ (Nat.mod_lt i (by decide)))]
  have hfits : correlateLag (runSigns s) (arrayBitShift (runSigns s)) i < 2 ^ 32 := by
    rw [hlag]
    exact (correlateLag_le t (activeB t) i).trans_lt ((Nat.mul_div_le t.batch.toNat 8).trans_lt t.batch.isLt)
  have hword := readWord_curveBytes (runCurve s) t.ram curveBase i hlen
  rw [Memory.writeBytes_of_holds (by rw [ht]; exact hs.fits.runCorrelated.form) _ _ hholds.curve] at hword
  have hentry : (runCurve s)[i] = correlateLag (runSigns s) (arrayBitShift (runSigns s)) i := by
    simp [runCurve, correlate]
  rw [curveAt, curveOffset, hword, BitVec.toNat_ofNat, hentry, Nat.mod_eq_of_lt hfits]

/-- What RUN's analyzer answers, as a function of the sign bits. -/
theorem harmResult_of_signs (hd : s.det = .ready) (hmp : 1 ≤ s.minPeriod.toNat) :
    harmResult (runCorrelated s) =
      analyzeCurve (correlateLag (runSigns s) (arrayBitShift (runSigns s))) (s.batch.toNat / 2) s.minPeriod.toNat := by
  have hrange := minPeriod_lt_half s hs (by rw [hd]; exact Detector.noConfusion)
  have hN2 : activeN2 (runCorrelated s) = s.batch.toNat / 2 := by
    obtain ⟨m, hm⟩ := runCorrelated_frame s
    rw [hm]
    rfl
  rw [harmResult, hN2, runCorrelated_minPeriod]
  obtain ⟨m, hm⟩ := runCorrelated_frame s
  have hbatch : (runCorrelated s).batch = s.batch := by rw [hm]; rfl
  exact analyzeCurve_congr (fun i hi => curveAt_of_run s hs rfl hbatch hi) hmp hrange

/-- RUN's refiner reads the samples RUN was started with. -/
theorem pitchOf_of_run {u : State} (hu : u.ram = (runCorrelated s).ram) (hb : u.batch = s.batch)
    (hr : u.rate = s.rate) : pitchOf u = refinePitch (sampleAt s) s.batch.toNat u.lag.toNat s.rate.toNat := by
  rw [pitchOf, activeN, hb, hr]
  exact refinePitch_congr (fun k hk => sampleAt_of_runCorrelated_ram hu k (hk.trans_le (hs.batch_toNat_le s))) _ _

end

/-- RUN's writes where HARM corrects the lag and PITCH finds a pitch. -/
theorem finish_runBody_of_found {s : State} {lag se ne : Nat} {ls p : F64} (hmp : s.minPeriod.toNat ≠ 0)
    (hlag : (harmResult (runCorrelated s)).corrected = some lag)
    (hfound : pitchOf ((harmBest (runCorrelated s)).setLag (BitVec.ofNat 32 lag)) = .found se ne ls p) :
    finish 0x03#8 (runBody s) =
      (((((((harmBest (runCorrelated s)).setLag (BitVec.ofNat 32 lag)).setStartEdge se).setNextEdge ne).setLagSamp
        ls).setPitch p).setPitchValid true).retire 0x03#8 .ok := by
  rw [runBody_of_minPeriod_pos s hmp, pitchBody, harmCorrected, hlag, State.setCorrected, hfound, storePitch_found,
    finish_complete]

/-- Settles O53: RUN's stages leave the curve of the sign bits and keep the samples, so the analyzer and the
refiner answer as they do for these. -/
theorem runComputesThePipeline : Obligations.RunComputesThePipeline := by
  intro s packed curve h lag se ne ls p hs hd hmp hpacked hcurve hh hlag hfound
  obtain rfl : packed = runSigns s := hpacked
  obtain rfl : h = harmResult (runCorrelated s) := by rw [hh, hcurve, harmResult_of_signs s hs hd hmp]
  have hpos : s.minPeriod.toNat ≠ 0 := by omega
  obtain ⟨m, hm⟩ := runCorrelated_frame s
  have hmram : m = (runCorrelated s).ram := by rw [hm]; rfl
  have hlt : lag < 2 ^ 32 := by
    refine corrected_lt (runCorrelated s) ?_ ?_ hlag <;> rw [hm]
    · exact minPeriod_lt_half s hs (by rw [hd]; exact Detector.noConfusion)
    · exact hmp
  have hpitch : pitchOf ((harmBest (runCorrelated s)).setLag (BitVec.ofNat 32 lag)) = .found se ne ls p := by
    rw [harmBest]
    generalize harmResult (runCorrelated s) = r
    rw [hm]
    refine Eq.trans (pitchOf_of_run s hs ?_ ?_ ?_) ?_
    · exact hmram
    · rfl
    · rfl
    · rwa [State.setLag_lag, BitVec.toNat_ofNat, Nat.mod_eq_of_lt hlt]
  have hrun := finish_runBody_of_found hpos hlag hpitch
  obtain ⟨hram, hbatch, _⟩ := finish_runBody_frame s 0x03#8
  have hB : activeB (finish 0x03#8 (runBody s)) = s.batch.toNat / 8 := by rw [activeB, activeN, hbatch]
  have hholds := holdsPipeline_runCorrelated s (hs.batch_toNat_le s)
  rw [← hram] at hholds
  refine ⟨_, exec_run_of_ready s hd, ?_, ?_, fun v hv => ?_, fun i hi => ?_, fun a ha => ?_⟩
  · rw [hrun, harmBest]
    generalize harmResult (runCorrelated s) = r
    rw [hm]
    simp only [State.setRam, State.setBest, State.setLag, State.setStartEdge, State.setNextEdge, State.setLagSamp,
      State.setPitch, State.setPitchValid, State.retire]
  · rw [← hB]
    exact packedBytes_of_holds hB hholds.packed
  · rw [← hB]
    exact viewBytes_of_holds hB hv (hholds.views v hv)
  · rw [curveAt_of_run s hs hram hbatch hi, hcurve]
  · rw [hram]
    exact read_runCorrelated_outside s a ha

end Sys2Proof.Machine


/-! PROOFS. The one rounding of 00_scope.md R14 is to nearest, ties to even, and the binary64 layout holds what it
delivers (10_state.md R33). -/

namespace Sys2Proof.Machine

/-! ## Rounding a quotient to an integer -/

/-- No integer is nearer to `p / q` than the one it is rounded to, and a tie has gone to the even one. -/
theorem roundQuotient_nearest {p q : Nat} (hq : 0 < q) (j : Nat) :
    ((roundQuotient p q * q : Int) - p).natAbs ≤ ((j * q : Int) - p).natAbs ∧
      (((roundQuotient p q * q : Int) - p).natAbs = ((j * q : Int) - p).natAbs → j ≠ roundQuotient p q →
        roundQuotient p q % 2 = 0) := by
  have hr : p % q < q := Nat.mod_lt p hq
  have hp : p / q * q + p % q = p := Nat.div_add_mod' p q
  simp only [← Nat.cast_mul]
  unfold roundQuotient
  generalize p / q = d at *
  generalize p % q = r at *
  have hup : (d + 1) * q = d * q + q := Nat.succ_mul d q
  have hbelow (h : j < d) : j * q + q ≤ d * q := (Nat.succ_mul j q).symm.trans_le (Nat.mul_le_mul_right q h)
  have habove (h : d + 1 < j) : d * q + 2 * q ≤ j * q :=
    (Nat.add_mul d 2 q).symm.trans_le (Nat.mul_le_mul_right q h)
  rcases lt_trichotomy j d with hj | rfl | hj
  · have := hbelow hj
    split <;> omega
  · split <;> omega
  · rcases (show d + 1 ≤ j from hj).eq_or_lt with rfl | hj'
    · split <;> omega
    · have := habove hj'
      split <;> omega

/-- An even integer is reached from half a step below it on. -/
theorem le_roundQuotient_iff_of_even {m p q : Nat} (hq : 0 < q) (hm : 0 < m) (heven : m % 2 = 0) :
    m ≤ roundQuotient p q ↔ (2 * m - 1) * q ≤ 2 * p := by
  have hr : p % q < q := Nat.mod_lt p hq
  have hp : p / q * q + p % q = p := Nat.div_add_mod' p q
  unfold roundQuotient
  generalize p / q = d at *
  generalize p % q = r at *
  have hhalf : (2 * m - 1) * q + q = 2 * (m * q) := by
    rw [← Nat.succ_mul, Nat.succ_eq_add_one, Nat.sub_add_cancel (by omega), Nat.mul_assoc]
  rcases lt_trichotomy (d + 1) m with h | rfl | h
  · have : d * q + 2 * q ≤ m * q := (Nat.add_mul d 2 q).symm.trans_le (Nat.mul_le_mul_right q h)
    split <;> omega
  · have : (d + 1) * q = d * q + q := Nat.succ_mul d q
    split <;> omega
  · have : m * q ≤ d * q := Nat.mul_le_mul_right q (by omega)
    split <;> omega

/-! ## Binades -/

theorem unitStep_of_lt {n : Nat} (hn : n < 2 ^ 53) : unitStep n = 0 := by
  have : n.log2 < 53 ∨ n = 0 := by
    rcases Nat.eq_zero_or_pos n with h | h
    · exact .inr h
    · exact .inl ((Nat.log2_lt h.ne').2 hn)
  rcases this with h | rfl
  · unfold unitStep
    omega
  · rfl

theorem unitStep_mul_two_pow {n : Nat} (k : Nat) (hlo : 2 ^ 52 ≤ n) (hhi : n < 2 ^ 53) :
    unitStep (n * 2 ^ k) = k := by
  have hlog : (n * 2 ^ k).log2 = 52 + k := by
    refine (Nat.log2_eq_iff (Nat.mul_pos (by omega) (Nat.two_pow_pos k)).ne').2 ⟨?_, ?_⟩
    · rw [Nat.pow_add]
      exact Nat.mul_le_mul_right _ hlo
    · exact significand_mul_two_pow_lt hhi (by omega)
  rw [unitStep, hlog, Nat.add_sub_cancel_left]

theorem lt_two_pow_unitStep (n : Nat) : n < 2 ^ (53 + unitStep n) :=
  (Nat.lt_log2_self).trans_le (Nat.pow_le_pow_right (by decide) (by unfold unitStep; omega))

/-- The significand of a rounded value is even when the integer it was rounded to is. -/
theorem significand_even {n k : Nat} (hn : n ≤ 2 ^ 53) (hfull : k = 0 ∨ 2 ^ 52 ≤ n) (heven : n % 2 = 0) :
    n * 2 ^ k / 2 ^ unitStep (n * 2 ^ k) % 2 = 0 := by
  rcases hn.lt_or_eq with hlt | rfl
  · have hstep : unitStep (n * 2 ^ k) = k := by
      rcases hfull with rfl | hlo
      · rw [Nat.pow_zero, Nat.mul_one, unitStep_of_lt hlt]
      · exact unitStep_mul_two_pow k hlo hlt
    rw [hstep, Nat.mul_div_cancel _ (Nat.two_pow_pos k), heven]
  · have hcarry : 2 ^ 53 * 2 ^ k = 2 ^ 52 * 2 ^ (k + 1) := by ring
    rw [hcarry, unitStep_mul_two_pow (k + 1) le_rfl (by decide), Nat.mul_div_cancel _ (Nat.two_pow_pos _)]
    rfl

/-! ## Rounding to a representable value -/

section

variable (p : Nat) {q : Nat} (hq : 0 < q)

/-- The integer that is scaled by the step of the quotient's binade. -/
def scaledQuotient (p q : Nat) : Nat := roundQuotient p (q * 2 ^ unitStep (p / q))

theorem roundedUnits_eq (p q : Nat) : roundedUnits p q = scaledQuotient p q * 2 ^ unitStep (p / q) := rfl

include hq

theorem scale_pos (k : Nat) : 0 < q * 2 ^ k := Nat.mul_pos hq (Nat.two_pow_pos k)

theorem lt_scale : p < 2 ^ 53 * (q * 2 ^ unitStep (p / q)) :=
  ((Nat.div_lt_iff_lt_mul hq).1 (lt_two_pow_unitStep (p / q))).trans_eq (by ring)

/-- The quotient fits the 53 bits of the significand, or is rounded up to their end. -/
theorem scaledQuotient_le : scaledQuotient p q ≤ 2 ^ 53 := roundQuotient_le (scale_pos hq _) (lt_scale p hq).le

theorem scaledQuotient_nearest (j : Nat) :
    ((scaledQuotient p q * (q * 2 ^ unitStep (p / q) : Nat) : Int) - p).natAbs ≤
        ((j * (q * 2 ^ unitStep (p / q) : Nat) : Int) - p).natAbs ∧
      (((scaledQuotient p q * (q * 2 ^ unitStep (p / q) : Nat) : Int) - p).natAbs =
          ((j * (q * 2 ^ unitStep (p / q) : Nat) : Int) - p).natAbs →
        j ≠ scaledQuotient p q → scaledQuotient p q % 2 = 0) :=
  roundQuotient_nearest (scale_pos hq _) j

/-- Above the subnormals the quotient fills the significand. -/
theorem scaledQuotient_full :
    unitStep (p / q) = 0 ∨ 2 ^ 52 * (q * 2 ^ unitStep (p / q)) ≤ p ∧ 2 ^ 52 ≤ scaledQuotient p q := by
  refine (unitStep_cases (p / q)).imp_right fun h => ?_
  have hfull : 2 ^ 52 * (q * 2 ^ unitStep (p / q)) ≤ p :=
    le_of_eq_of_le (by ring) ((Nat.le_div_iff_mul_le hq).1 h)
  exact ⟨hfull, le_roundQuotient (scale_pos hq _) hfull⟩

theorem representable_roundedUnits (h : roundedUnits p q < 2 ^ 2098) : Representable (roundedUnits p q) := by
  refine ⟨h, ?_⟩
  rcases (scaledQuotient_le p hq).lt_or_eq with hlt | heq
  · exact ⟨_, _, hlt, rfl⟩
  · refine ⟨1, 53 + unitStep (p / q), by decide, ?_⟩
    rw [roundedUnits_eq, heq, Nat.one_mul, Nat.pow_add]

/-- No representable value is nearer than the rounded one, and a tie has gone to the even significand. -/
theorem roundedUnits_nearest {v : Nat} (hv : Representable v) :
    ((roundedUnits p q * q : Int) - p).natAbs ≤ ((v * q : Int) - p).natAbs ∧
      (((roundedUnits p q * q : Int) - p).natAbs = ((v * q : Int) - p).natAbs → v ≠ roundedUnits p q →
        roundedUnits p q / 2 ^ unitStep (roundedUnits p q) % 2 = 0) := by
  obtain ⟨_, m, e, hm, rfl⟩ := hv
  have hfull := scaledQuotient_full p hq
  have hle := scaledQuotient_le p hq
  have hnearest := scaledQuotient_nearest p hq
  rw [roundedUnits_eq]
  generalize scaledQuotient p q = n at *
  generalize unitStep (p / q) = k at *
  have hscale (j : Nat) : ((j * 2 ^ k : Nat) * q : Int) = j * (q * 2 ^ k : Nat) := by push_cast; ring
  rw [hscale]
  rcases Nat.lt_or_ge e k with hek | hek
  · obtain ⟨hfullp, _⟩ := hfull.resolve_left (by omega)
    obtain ⟨hclose, _⟩ := hnearest (2 ^ 52)
    have hfar : m * 2 ^ e * q < 2 ^ 52 * (q * 2 ^ k) :=
      calc m * 2 ^ e * q < 2 ^ (52 + k) * q :=
            Nat.mul_lt_mul_of_pos_right (significand_mul_two_pow_lt hm (by omega)) hq
        _ = 2 ^ 52 * (q * 2 ^ k) := by ring
    simp only [← Nat.cast_mul] at hclose ⊢
    generalize m * 2 ^ e * q = a at *
    generalize q * 2 ^ k = b at *
    omega
  · obtain ⟨d, rfl⟩ := Nat.exists_eq_add_of_le' hek
    obtain ⟨hclose, htie⟩ := hnearest (m * 2 ^ d)
    have hm' : m * 2 ^ (d + k) = m * 2 ^ d * 2 ^ k := by ring
    rw [hm', hscale]
    refine ⟨hclose, fun heq hne => significand_even hle (hfull.imp_right And.right) (htie heq ?_)⟩
    rintro rfl
    exact hne rfl

end

/-- A power of two is reached from half a step of the binade below it on. -/
theorem two_pow_le_roundedUnits_iff (p e : Nat) {q : Nat} (hq : 0 < q) :
    2 ^ (53 + e) ≤ roundedUnits p q ↔ (2 ^ 54 - 1) * 2 ^ e * q ≤ 2 * p := by
  have hfull := scaledQuotient_full p hq
  have hle := scaledQuotient_le p hq
  have hlt := lt_scale p hq
  have heven := le_roundQuotient_iff_of_even (p := p) (scale_pos hq (unitStep (p / q))) (m := 2 ^ 53) (by decide)
    (by decide)
  rw [← scaledQuotient] at heven
  rw [roundedUnits_eq, Nat.pow_add, Nat.mul_assoc, Nat.mul_comm (2 ^ e) q]
  have hpos := Nat.two_pow_pos e
  generalize scaledQuotient p q = n at *
  generalize unitStep (p / q) = k at *
  rcases lt_trichotomy k e with hk | rfl | hk
  · have hke : 2 ^ k * 2 ≤ 2 ^ e := Nat.pow_le_pow_right (n := 2) (by decide) hk
    have hqke := Nat.mul_le_mul_left q hke
    have hn := Nat.mul_le_mul_right (2 ^ k) hle
    rw [← Nat.mul_assoc] at hqke
    have := Nat.mul_pos hq hpos
    generalize 2 ^ k = b at *
    generalize 2 ^ e = t at *
    generalize q * b = x at *
    generalize q * t = y at *
    omega
  · rw [Nat.mul_le_mul_right_iff hpos, heven]
    exact Iff.rfl
  · obtain ⟨hfullp, hn⟩ := hfull.resolve_left (by omega)
    have hek : 2 ^ e * 2 ≤ 2 ^ k := Nat.pow_le_pow_right (n := 2) (by decide) hk
    have hqek := Nat.mul_le_mul_left q hek
    have hn' := Nat.mul_le_mul_right (2 ^ k) hn
    rw [← Nat.mul_assoc] at hqek
    generalize 2 ^ k = b at *
    generalize 2 ^ e = t at *
    generalize q * b = x at *
    generalize q * t = y at *
    omega

theorem roundUnits_of_ge (neg : Bool) (p q : Nat) (h : 2 ^ 2098 ≤ roundedUnits p q) :
    roundUnits neg p q = .inf neg := by
  unfold roundUnits
  simp only [ge_iff_le]
  rw [← roundedUnits, if_pos h]

/-- The model's rounding is the correct rounding of 00_scope.md R14. -/
theorem roundUnits_roundsTo (neg : Bool) (p : Nat) {q : Nat} (hq : 0 < q) : RoundsTo neg p q (roundUnits neg p q) := by
  have hover := two_pow_le_roundedUnits_iff p 2045 hq
  rw [show 53 + 2045 = 2098 from rfl] at hover
  rcases Nat.lt_or_ge (roundedUnits p q) (2 ^ 2098) with h | h
  · exact .inr ⟨Nat.not_le.1 fun hge => absurd (hover.2 hge) (Nat.not_le.2 h), _, roundUnits_of_lt neg p q h,
      representable_roundedUnits p hq h, fun v hv => roundedUnits_nearest p hq hv⟩
  · exact .inl ⟨hover.1 h, roundUnits_of_ge neg p q h⟩

/-! ## The operations on finite values -/

section

variable (s t : Bool) (u v : Nat)

theorem add_roundsTo (h : signedUnits s u + signedUnits t v ≠ 0) :
    RoundsTo (decide (signedUnits s u + signedUnits t v < 0)) (signedUnits s u + signedUnits t v).natAbs 1
      (F64.add (.fin s u) (.fin t v)) := by
  rw [F64.add, if_neg h]
  exact roundUnits_roundsTo _ _ Nat.one_pos

theorem sub_eq_add : F64.sub (.fin s u) (.fin t v) = F64.add (.fin s u) (.fin (!t) v) := rfl

theorem signedUnits_sub : signedUnits s u + signedUnits (!t) v = signedUnits s u - signedUnits t v := by
  rw [signedUnits_not, Int.sub_eq_add_neg]

theorem sub_roundsTo (h : signedUnits s u - signedUnits t v ≠ 0) :
    RoundsTo (decide (signedUnits s u - signedUnits t v < 0)) (signedUnits s u - signedUnits t v).natAbs 1
      (F64.sub (.fin s u) (.fin t v)) := by
  rw [← signedUnits_sub] at h ⊢
  exact add_roundsTo s (!t) u v h

theorem mul_roundsTo : RoundsTo (s != t) (u * v) (2 ^ 1074) (F64.mul (.fin s u) (.fin t v)) :=
  roundUnits_roundsTo _ _ (by positivity)

theorem div_roundsTo (hv : 0 < v) : RoundsTo (s != t) (u * 2 ^ 1074) v (F64.div (.fin s u) (.fin t v)) := by
  rw [F64.div, if_neg hv.ne']
  exact roundUnits_roundsTo _ _ hv

theorem lt_fin_iff : F64.lt (.fin s u) (.fin t v) = true ↔ signedUnits s u < signedUnits t v := decide_eq_true_iff

theorem le_fin_iff : F64.le (.fin s u) (.fin t v) = true ↔ signedUnits s u ≤ signedUnits t v := decide_eq_true_iff

end

theorem msb_eq_topBit (w : Word) : w.msb = (w.toNat / 2 ^ 31 == 1) := by
  rw [Bool.eq_iff_iff, msb_iff, beq_iff_eq]
  omega

/-- Settles O44: the one rounding serves all four operations. -/
theorem roundingIsToNearestEven : Obligations.RoundingIsToNearestEven := by
  refine ⟨fun neg p q hq => roundUnits_roundsTo neg p hq, fun s t u v x y hx hy => ?_, fun w e f he hf hfin => ?_,
    fun n hn => ⟨ofNat_eq n hn, representable_mul_two_pow hn (by decide)⟩⟩
  · obtain rfl : x = signedUnits s u := hx
    obtain rfl : y = signedUnits t v := hy
    refine ⟨add_roundsTo s t u v, add_fin_of_zero s t u v, sub_roundsTo s t u v, fun h => ?_, mul_roundsTo s t u v,
      div_roundsTo s t u v, rfl, lt_fin_iff s t u v, le_fin_iff s t u v⟩
    rw [sub_eq_add]
    exact add_fin_of_zero s (!t) u v ((signedUnits_sub s t u v).trans h)
  · obtain rfl : e = f32Exp w := he
    obtain rfl : f = f32Frac w := hf
    exact ⟨_, msb_eq_topBit w ▸ ofF32_of_finite w hfin, representable_f32Units w, rfl⟩

/-! ## The binary64 layout -/

/-- A representable value is a significand in the step of its own binade, which fills 53 bits above the
subnormals. -/
theorem Representable.significand {u : Nat} (h : Representable u) :
    ∃ n, u = n * 2 ^ unitStep u ∧ n < 2 ^ 53 ∧ (unitStep u = 0 ∨ 2 ^ 52 ≤ n) ∧ unitStep u ≤ 2045 := by
  obtain ⟨hlt, m, e, hm, hu⟩ := h
  have hcases := unitStep_cases u
  have hbin := lt_two_pow_unitStep u
  generalize unitStep u = k at *
  have hek : k ≤ e := by
    rcases hcases with hzero | hfull
    · omega
    · by_contra hlt'
      exact (hfull.trans_eq hu).not_gt (significand_mul_two_pow_lt hm (by omega))
  obtain ⟨d, rfl⟩ := Nat.exists_eq_add_of_le' hek
  have hn : u = m * 2 ^ d * 2 ^ k := by rw [hu]; ring
  refine ⟨m * 2 ^ d, hn, ?_, hcases.imp_right fun hfull => ?_, ?_⟩
  · rw [hn, Nat.pow_add] at hbin
    exact Nat.lt_of_mul_lt_mul_right hbin
  · rw [hn, Nat.pow_add] at hfull
    exact Nat.le_of_mul_le_mul_right hfull (Nat.two_pow_pos k)
  · rcases hcases with hzero | hfull
    · omega
    · have := (Nat.pow_lt_pow_iff_right (by decide)).1 (hfull.trans_lt hlt)
      omega

/-- The pattern of a finite value as a number, the leading bit of the significand carried into the exponent. -/
theorem magnitudeField_eq {u n : Nat} (h : u = n * 2 ^ unitStep u) :
    magnitudeField u = unitStep u * 2 ^ 52 + n := by
  have hdiv : u / 2 ^ unitStep u = n := Nat.div_eq_of_eq_mul_left (Nat.two_pow_pos _) h
  rw [magnitudeField, hdiv]

theorem bits_fin_toNat (neg : Bool) {u : Nat} (h : magnitudeField u < 2 ^ 63) :
    (F64.fin neg u).bits.toNat = neg.toNat * 2 ^ 63 + magnitudeField u := by
  have hsign : signField neg = neg.toNat * 2 ^ 63 := by cases neg <;> rfl
  have hneg : neg.toNat ≤ 1 := Bool.toNat_le neg
  rw [F64.bits, hsign, BitVec.toNat_ofNat]
  exact Nat.mod_eq_of_lt (by omega)

theorem finite_layout (neg : Bool) {u : Nat} (h : Representable u) :
    (F64.fin neg u).bits.msb = neg ∧
      u = (if (F64.fin neg u).bits.toNat / 2 ^ 52 % 2 ^ 11 = 0
        then (F64.fin neg u).bits.toNat % 2 ^ 52
        else (2 ^ 52 + (F64.fin neg u).bits.toNat % 2 ^ 52) *
          2 ^ ((F64.fin neg u).bits.toNat / 2 ^ 52 % 2 ^ 11 - 1)) := by
  obtain ⟨n, hu, hn, hfull, hk⟩ := h.significand
  have hfield := magnitudeField_eq hu
  have hbits := bits_fin_toNat neg (u := u) (by omega)
  have hneg : neg.toNat ≤ 1 := Bool.toNat_le neg
  have hmsb : (F64.fin neg u).bits.msb = neg := by
    rw [BitVec.msb_eq_decide, hbits]
    cases neg
    · exact decide_eq_false (by rw [Bool.toNat_false]; omega)
    · exact decide_eq_true (by rw [Bool.toNat_true]; omega)
  refine ⟨hmsb, ?_⟩
  rw [hbits, hfield]
  generalize unitStep u = k at *
  by_cases hsub : n < 2 ^ 52
  · obtain rfl : k = 0 := by omega
    have hexp : (neg.toNat * 2 ^ 63 + (0 * 2 ^ 52 + n)) / 2 ^ 52 % 2 ^ 11 = 0 := by omega
    rw [if_pos hexp]
    omega
  · have hexp : (neg.toNat * 2 ^ 63 + (k * 2 ^ 52 + n)) / 2 ^ 52 % 2 ^ 11 = k + 1 := by omega
    have hfrac : 2 ^ 52 + (neg.toNat * 2 ^ 63 + (k * 2 ^ 52 + n)) % 2 ^ 52 = n := by omega
    rw [hexp, hfrac, if_neg (Nat.succ_ne_zero k), Nat.add_sub_cancel]
    exact hu

/-- A NaN's pattern has the exponent 2047 and a payload. -/
theorem nan_layout (p : Bits64) :
    (F64.nan p).bits.toNat / 2 ^ 52 % 2 ^ 11 = 2047 ∧ (F64.nan p).bits.toNat % 2 ^ 52 ≠ 0 := by
  have hbits : (F64.nan p).bits = nanPattern p := rfl
  rw [hbits, nanPattern, toNat_append_eq, toNat_append_eq]
  have hpayload : (if p.extractLsb' 0 52 = 0#52 then 0x8000000000000#52 else p.extractLsb' 0 52).toNat ≠ 0 := by
    split
    next => decide
    next h => exact fun h0 => h (BitVec.eq_of_toNat_eq h0)
  have hlt := (if p.extractLsb' 0 52 = 0#52 then 0x8000000000000#52 else p.extractLsb' 0 52).isLt
  generalize (if p.extractLsb' 0 52 = 0#52 then 0x8000000000000#52 else p.extractLsb' 0 52).toNat = f at *
  have hexp : (0x7FF#11).toNat = 2047 := rfl
  omega

/-- Settles O45: the layout of each finite value and of each NaN. -/
theorem binary64LayoutHoldsTheValue : Obligations.Binary64LayoutHoldsTheValue :=
  ⟨fun neg _ => finite_layout neg, nan_layout⟩

end Sys2Proof.Machine


/-! PROOFS. The threshold test of 44_harmonic.md R164 against its binary64 evaluation. -/

namespace Sys2Proof.Machine

/-! ## 0.15 in binary64 -/

/-- The significand of the binary64 value 0.15 (44_harmonic.md R164): 20 of it are 3 * 2^55 less 4, so that 0.15
lies below 3/20 by a fifth of a unit in its last place. -/
def threshold : Nat := 5404319552844595

theorem threshold_eq : threshold = 5404319552844595 := rfl

theorem bits_threshold : (F64.fin false (threshold * 2 ^ 1019)).bits = 0x3FC3333333333333#64 := by
  have hstep : unitStep (threshold * 2 ^ 1019) = 1019 := unitStep_mul_two_pow 1019 (by decide) (by decide)
  have hfield := magnitudeField_eq (u := threshold * 2 ^ 1019) (n := threshold) (by rw [hstep])
  rw [F64.bits, hfield, hstep]
  decide

theorem mul_fin (u v : Nat) : F64.mul (.fin false u) (.fin false v) = roundUnits false (u * v) (2 ^ 1074) := rfl

/-! ## The rounded product, at any scale

The scale `e` is 1019 in binary64, where 1.0 is `2 ^ (55 + e)` units. -/

/-- The product of 0.15 and an integer in units, and that of 1.0. -/
def thresholdProduct (e g : Nat) : Nat := threshold * 2 ^ e * (g * 2 ^ (55 + e))

/-- The product of 0.15 and an integer, rounded. -/
def thresholdUnits (e g : Nat) : Nat := roundedUnits (thresholdProduct e g) (2 ^ (55 + e))

section

variable (e : Nat)

theorem thresholdProduct_eq (g : Nat) : thresholdProduct e g = threshold * g * 2 ^ e * 2 ^ (55 + e) := by
  unfold thresholdProduct
  ring

theorem thresholdProduct_div (g : Nat) : thresholdProduct e g / 2 ^ (55 + e) = threshold * g * 2 ^ e := by
  rw [thresholdProduct_eq, Nat.mul_div_cancel _ (Nat.two_pow_pos _)]

theorem thresholdUnits_le {g m k : Nat} (hrep : Representable (m * 2 ^ (k + e))) (h : threshold * g ≤ m * 2 ^ k) :
    thresholdUnits e g ≤ m * 2 ^ (k + e) := by
  refine roundedUnits_le (Nat.two_pow_pos _) hrep ?_
  rw [thresholdProduct_eq, Nat.pow_add 2 k e, ← Nat.mul_assoc m]
  exact Nat.mul_le_mul_right _ (Nat.mul_le_mul_right _ h)

theorem le_thresholdUnits {g m k : Nat} (hrep : Representable (m * 2 ^ (k + e))) (h : m * 2 ^ k ≤ threshold * g) :
    m * 2 ^ (k + e) ≤ thresholdUnits e g := by
  refine le_roundedUnits (Nat.two_pow_pos _) hrep ?_
  rw [thresholdProduct_eq, Nat.pow_add 2 k e, ← Nat.mul_assoc m]
  exact Nat.mul_le_mul_right _ (Nat.mul_le_mul_right _ h)

variable {e} (he : e ≤ 1019)

include he

/-- A curve value above the threshold lies a representable value apart from the product. -/
theorem thresholdUnits_lt_of_above {c g : Nat} (hc : c < 2 ^ 32) (h : 3 * g < 20 * c) :
    thresholdUnits e g < c * 2 ^ (55 + e) := by
  have hrep : Representable ((c * 2 ^ 21 - 1) * 2 ^ (34 + e)) := representable_mul_two_pow (by omega) (by omega)
  calc thresholdUnits e g ≤ (c * 2 ^ 21 - 1) * 2 ^ (34 + e) :=
        thresholdUnits_le e hrep (by unfold threshold; omega)
    _ < c * 2 ^ 21 * 2 ^ (34 + e) := Nat.mul_lt_mul_of_pos_right (by omega) (Nat.two_pow_pos _)
    _ = c * 2 ^ (55 + e) := by ring

/-- A curve value under the threshold is under the product before it is rounded. -/
theorem le_thresholdUnits_of_under {c g : Nat} (hc : c < 2 ^ 32) (hg : g < 2 ^ 32) (h : 20 * c < 3 * g) :
    c * 2 ^ (55 + e) ≤ thresholdUnits e g :=
  le_thresholdUnits e (representable_mul_two_pow (by omega) (by omega)) (by unfold threshold; omega)

omit he

/-- The binade of the product where 20 c = 3 g, that is c = 3 j and g = 20 j. -/
theorem unitStep_thresholdProduct {j b : Nat} (hlo : 2 ^ b < 3 * j) (hhi : 3 * j ≤ 2 ^ (b + 1)) (hj : j < 2 ^ 32) :
    unitStep (threshold * (20 * j) * 2 ^ e) = b + 3 + e := by
  have hpos : threshold * (20 * j) * 2 ^ e ≠ 0 :=
    (Nat.mul_pos (Nat.mul_pos (by decide) (by omega)) (Nat.two_pow_pos e)).ne'
  have hlog : (threshold * (20 * j) * 2 ^ e).log2 = b + 55 + e := by
    refine (Nat.log2_eq_iff hpos).2 ⟨?_, ?_⟩
    · rw [Nat.pow_add, Nat.pow_add]
      exact Nat.mul_le_mul_right _ (by unfold threshold; omega)
    · rw [show b + 55 + e + 1 = b + 1 + 55 + e by omega, Nat.pow_add, Nat.pow_add _ (b + 1)]
      exact Nat.mul_lt_mul_of_pos_right (by unfold threshold; omega) (Nat.two_pow_pos e)
  rw [unitStep, hlog]
  omega

/-- At the threshold the value of the curve is even in its last place, and the product, low by a fifth of a unit in
the last place of 0.15, lies less than half a step below it. -/
theorem half_step_below {j b d : Nat} (hbd : b + d = 51) (hlo : 2 ^ b < 3 * j) (hhi : 3 * j ≤ 2 ^ (b + 1)) :
    (2 * (3 * j * 2 ^ (d + 1)) - 1) * 2 ^ (b + 3) ≤ 2 * (threshold * (20 * j)) := by
  have hpow : 2 ^ (d + 1) * 2 ^ (b + 3) = 2 ^ 55 := by
    rw [← Nat.pow_add]
    exact congrArg _ (by omega)
  have hvalue : 2 * (3 * j * 2 ^ (d + 1)) * 2 ^ (b + 3) = 2 * (3 * j) * 2 ^ 55 := by
    rw [← hpow]
    ring
  rw [Nat.sub_mul, hvalue, Nat.pow_add 2 b 3]
  unfold threshold
  omega

theorem le_thresholdUnits_of_equal {j : Nat} (hj : 0 < j) (hj' : j < 2 ^ 30) :
    3 * j * 2 ^ (55 + e) ≤ thresholdUnits e (20 * j) := by
  have hne : 3 * j - 1 ≠ 0 := by omega
  obtain ⟨b, hb⟩ : ∃ b, b = (3 * j - 1).log2 := ⟨_, rfl⟩
  obtain ⟨hlo, hhi⟩ := (Nat.log2_eq_iff hne).1 hb.symm
  have hb32 : b < 32 := by
    rw [hb]
    exact (Nat.log2_lt hne).2 (by omega)
  obtain ⟨d, hbd⟩ : ∃ d, b + d = 51 := ⟨51 - b, by omega⟩
  have hstep := unitStep_thresholdProduct (e := e) (j := j) (b := b) (by omega) (by omega) (by omega)
  rw [← thresholdProduct_div] at hstep
  have heven : 3 * j * 2 ^ (d + 1) % 2 = 0 := by
    rw [Nat.pow_succ, ← Nat.mul_assoc, Nat.mul_mod_left]
  have hround : 3 * j * 2 ^ (d + 1) ≤ scaledQuotient (thresholdProduct e (20 * j)) (2 ^ (55 + e)) := by
    rw [scaledQuotient, le_roundQuotient_iff_of_even (scale_pos (Nat.two_pow_pos _) _)
      (Nat.mul_pos (by omega) (Nat.two_pow_pos _)) heven, hstep, thresholdProduct_eq]
    calc (2 * (3 * j * 2 ^ (d + 1)) - 1) * (2 ^ (55 + e) * 2 ^ (b + 3 + e))
        = (2 * (3 * j * 2 ^ (d + 1)) - 1) * 2 ^ (b + 3) * (2 ^ e * 2 ^ (55 + e)) := by ring
      _ ≤ 2 * (threshold * (20 * j)) * (2 ^ e * 2 ^ (55 + e)) :=
        Nat.mul_le_mul_right _ (half_step_below hbd (by omega) (by omega))
      _ = 2 * (threshold * (20 * j) * 2 ^ e * 2 ^ (55 + e)) := by ring
  calc 3 * j * 2 ^ (55 + e) = 3 * j * 2 ^ (d + 1) * 2 ^ (b + 3 + e) := by
        rw [Nat.mul_assoc _ (2 ^ (d + 1)), ← Nat.pow_add]
        exact congrArg _ (congrArg _ (by omega))
    _ ≤ scaledQuotient (thresholdProduct e (20 * j)) (2 ^ (55 + e)) * 2 ^ (b + 3 + e) :=
        Nat.mul_le_mul_right _ hround
    _ = thresholdUnits e (20 * j) := by rw [thresholdUnits, roundedUnits_eq, hstep]

/-- The test on integers and the test on the rounded product agree (44_harmonic.md R164). -/
theorem threshold_iff (he : e ≤ 1019) {c g : Nat} (hc : c < 2 ^ 32) (hg : g < 2 ^ 32) :
    20 * c ≤ 3 * g ↔ c * 2 ^ (55 + e) ≤ thresholdUnits e g := by
  refine ⟨fun h => ?_, fun h => ?_⟩
  · rcases h.lt_or_eq with hlt | heq
    · exact le_thresholdUnits_of_under he hc hg hlt
    · obtain ⟨j, rfl, rfl⟩ : ∃ j, c = 3 * j ∧ g = 20 * j := ⟨c / 3, by omega, by omega⟩
      rcases Nat.eq_zero_or_pos j with rfl | hj
      · rw [Nat.mul_zero, Nat.zero_mul]
        exact Nat.zero_le _
      · exact le_thresholdUnits_of_equal hj (by omega)
  · by_contra hlt
    exact (thresholdUnits_lt_of_above he hc (by omega)).not_ge h

end

/-! ## The test in binary64 -/

theorem mul_threshold {g : Nat} (hg : g < 2 ^ 32) :
    F64.mul (F64.fin false (threshold * 2 ^ 1019)) (F64.ofNat g) = .fin false (thresholdUnits 1019 g) := by
  have hrep : Representable (1 * 2 ^ (85 + 1019)) := representable_mul_two_pow (by decide) (by decide)
  have hlt : thresholdUnits 1019 g < 2 ^ 2098 :=
    (thresholdUnits_le 1019 hrep (by unfold threshold; omega)).trans_lt hrep.1
  rw [ofNat_eq g (by omega), mul_fin, show 1074 = 55 + 1019 from rfl]
  exact roundUnits_of_lt false _ _ hlt

/-- Settles O43: 0.15 is low by less than what a 32-bit value can tell from 3/20, and rounding takes the product
back up to the curve's value where the two sides are equal. -/
theorem thresholdAgreesWithBinary64 : Obligations.ThresholdAgreesWithBinary64 := by
  unfold Obligations.ThresholdAgreesWithBinary64
  rw [← threshold_eq]
  refine ⟨bits_threshold, fun c g hc hg => ?_⟩
  rw [mul_threshold hg, ofNat_eq c (by omega), le_fin, decide_eq_decide, show 1074 = 55 + 1019 from rfl]
  exact threshold_iff le_rfl hc hg

end Sys2Proof.Machine


/-! PROOFS. What cannot and what can interrupt a pending command: a host write, SRESET's word included, and
the reset input (70_reset_and_hazards.md R263, R264 and R270). -/

namespace Sys2Proof.Machine

/-! ## A host write during BUSY -/

/-- Settles O8: during BUSY the port looks at neither the offset nor the word. -/
theorem writeDuringBusyOnlySetsProto : Obligations.WriteDuringBusyOnlySetsProto := by
  intro s off v rest hb hm
  exact step_write_busy s off v rest hb hm

/-! ## SRESET -/

theorem exec_sreset (s : State) : exec .sreset s = .next (s.clearRegisters.retire 0x05#8 .ok) := by
  rw [exec_of_admitted .sreset s (sreset_admitted s)]
  rfl

/-- The outcome of a completion lies in STATUS; every other register keeps its value. -/
theorem readReg_retire (s : State) (op : Byte) (e : ErrCode) (r : Reg) (hr : r ≠ .status) :
    readReg (s.retire op e) r = readReg s r := by
  cases r with
  | status => contradiction
  | _ => rfl

/-- Of the STATUS fields SRESET leaves only LASTOP above 0 (46_detector.md R214). -/
theorem statusWord_after_sreset (s : State) :
    statusWord (s.clearRegisters.retire 0x05#8 .ok) = 0x00050000#32 := by
  change 0#8 ++ 0x05#8 ++ 0#4 ++ 0#4 ++ 0#3 ++ BitVec.ofBool false ++ BitVec.ofBool false ++ 0#2 ++
    BitVec.ofBool false = 0x00050000#32
  decide

/-- Settles O13: SRESET runs in every STATE and clears the registers, and its word on the port during BUSY is
a write like any other. -/
theorem softResetClearsRegistersAndKeepsRam : Obligations.SoftResetClearsRegistersAndKeepsRam := by
  refine ⟨fun s => ⟨_, exec_sreset s, fun r hr => ?_, statusWord_after_sreset s, rfl, rfl, rfl, rfl, rfl, rfl⟩,
    fun s off rest => step_write_busy s off (encode .sreset) rest⟩
  rw [readReg_retire _ _ _ r hr, readReg_clearRegisters]

/-! ## The reset input during BUSY -/

/-- A RAM byte of the row of the command that PEND will perform; a word that ends NotReady or IllegalCommand
has no row (10_state.md R47, 46_detector.md R203 and R212). -/
def PendingRowByte (s : State) (a : Nat) : Prop :=
  ∃ i, decode s.pend = .ok i ∧ s.det ∈ precondition i ∧ RowByte s.batch.toNat a i

/-- The spans the reset input frees are the pending command's row. -/
theorem inSpans_pendingSpans (s : State) (a : Nat) :
    inSpans (pendingSpans s) a = true ↔ PendingRowByte s a := by
  have hrow : PendingRowByte s a ↔ ∃ i, pendingCommand? s = some i ∧ RowByte s.batch.toNat a i := by
    simp only [PendingRowByte, pendingCommand?_eq_some, and_assoc]
  rw [hrow, pendingSpans]
  cases pendingCommand? s with
  | none => simp [inSpans]
  | some i => simp [inSpans_writtenSpans]

theorem step_assertReset (s : State) (rest : List HostEvent) (hm : HostMoves s .assertReset rest) :
    step s = .next (assertReset (s.afterEvent rest)) := by
  rw [step_hostMoves s _ rest hm, ← queue_eq_afterEvent]
  rfl

/-- RAM after a reset during BUSY: a free byte in the pending command's row, the old byte elsewhere. -/
theorem read_assertReset_busy (s : State) (hb : s.busy = true) (a : Nat) :
    (PendingRowByte s a → Memory.read (assertReset s).ram a = Config.abandonedByte s.draws a) ∧
      (¬PendingRowByte s a → Memory.read (assertReset s).ram a = Memory.read s.ram a) := by
  have hram : (assertReset s).ram = abandonSpans s.draws s.ram (pendingSpans s) := by
    simp [assertReset, hb]
  rw [hram, read_abandonSpans, ← inSpans_pendingSpans]
  exact ⟨fun h => if_pos h, fun h => if_neg h⟩

theorem assertReset_host (s : State) :
    (assertReset s).resetHeld = true ∧ (assertReset s).inputs = s.inputs ∧ (assertReset s).reads = s.reads := by
  rcases assertReset_cases s with ⟨_, h⟩ | ⟨_, h⟩ <;> rw [h] <;> exact ⟨rfl, rfl, rfl⟩

/-- Every other host event during BUSY leaves the command pending. -/
theorem hostTurn_keeps_pending (s : State) (e : HostEvent) (rest : List HostEvent) (hb : s.busy = true)
    (he : e ≠ .assertReset) : (hostTurn s e rest).busy = true ∧ (hostTurn s e rest).pend = s.pend := by
  cases e with
  | assertReset => contradiction
  | rd off =>
    rcases portRead_cases (s.queue rest) off with ⟨_, h⟩ | ⟨_, h⟩ <;> rw [hostTurn, h] <;> exact ⟨hb, rfl⟩
  | wr off v =>
    have h : portWrite (s.queue rest) off v = (s.queue rest).setProto true := if_pos hb
    rw [hostTurn, h]
    exact ⟨hb, rfl⟩
  | poll =>
    rw [hostTurn, pollStatus_of_busy s rest hb]
    exact ⟨hb, rfl⟩
  | releaseReset => exact ⟨hb, rfl⟩

/-- Settles O16: the assertion frees the spans of the pending command and resets every register, and of the
host's other events none touches BUSY or PEND. -/
theorem resetDuringBusyAbandonsTheCommand : Obligations.ResetDuringBusyAbandonsTheCommand := by
  refine ⟨fun s rest hb hm => ?_, fun s t e rest hb hm he hstep => ?_⟩
  · obtain ⟨hheld, hinputs, hreads⟩ := assertReset_host (s.afterEvent rest)
    exact ⟨_, step_assertReset s rest hm, readReg_assertReset (s.afterEvent rest), assertReset_busy _, hheld,
      hinputs, hreads, read_assertReset_busy (s.afterEvent rest) hb⟩
  · rw [step_hostMoves s e rest hm, if_pos hb] at hstep
    cases hstep
    exact hostTurn_keeps_pending s.tick e rest hb he

end Sys2Proof.Machine
